-- ==== Sys2Proof/Word.lean ====
section
/-!
DEFINITION. The word types of the EA I2C sensor controller (00_scope.md rules R8, R9).
-/

namespace Sys2Proof

/-- A 32-bit CSR value or command word (10_state.md rule R21). -/
abbrev Word := BitVec 32

/-- One byte of the sensor's register space (20_memory.md rule R67). -/
abbrev Byte := BitVec 8

/-- A 7-bit I2C target address (20_memory.md rule R66). -/
abbrev Addr7 := BitVec 7

/-- The assembled value of a sensor register, wide enough for the widest one, `CALIBRATION`
(40_register_map_codec.md rule R121). -/
abbrev Raw := BitVec 192

/-- The 64-bit pattern of an IEEE 754 binary64 value (00_scope.md rule R9, `bits64`). -/
abbrev F64 := BitVec 64

end Sys2Proof
end

