-- ==== Sys2Proof/Syntax.lean ====
section
/-!
DEFINITION. The twelve commands of the EA command set (30_encoding.md rule R94), each with the
operands its command word carries (rule R92). Operands in argument registers are no part of the word
(rule R93).
-/

namespace Sys2Proof

/-- One constructor per row of the opcode map. -/
inductive Instr where
  /-- `SELECT_ADDRESS A7`, format A (41_transport.md rule R155). -/
  | selectAddress (a7 : Addr7)
  /-- `REG_READ REG`, format R (41_transport.md rule R160). -/
  | regRead (reg : BitVec 3)
  /-- `REG_WRITE REG`, format R (41_transport.md rule R161). -/
  | regWrite (reg : BitVec 3)
  /-- `FIELD_READ FLD`, format F (40_register_map_codec.md rule R135). -/
  | fieldRead (fld : BitVec 5)
  /-- `FIELD_WRITE FLD`, format F (40_register_map_codec.md rule R136). -/
  | fieldWrite (fld : BitVec 5)
  /-- `SETUP`, format N (43_controller.md rule R221). -/
  | setup
  /-- `UPDATE`, format N (43_controller.md rule R226). -/
  | update
  /-- `GET_TEMPERATURE`, format N (43_controller.md rule R231). -/
  | getTemperature
  /-- `GET_PRESSURE`, format N (43_controller.md rule R232). -/
  | getPressure
  /-- `GET_ALTITUDE [manual]`, format M (43_controller.md rule R233). -/
  | getAltitude (manual : Bool)
  /-- `COMP_T`, format N (42_compensation.md rule R188). -/
  | compT
  /-- `COMP_P`, format N (42_compensation.md rule R189). -/
  | compP
  deriving DecidableEq, Repr

end Sys2Proof
end

