-- ==== Sys2Proof/WellFormed.lean ====
section
/-!
DEFINITION. Which commands have an encoding: `REG` names one of six registers and `FLD` one of
twenty-three fields (30_encoding.md rules R92, R95).
-/

namespace Sys2Proof

/-- A `REG` operand of 6 or 7 names no table entry (30_encoding.md rule R95). -/
def regOperandOk (reg : BitVec 3) : Bool := decide (reg ≤ 5)

/-- An `FLD` operand of 23 to 31 names no table entry (30_encoding.md rule R95). -/
def fldOperandOk (fld : BitVec 5) : Bool := decide (fld ≤ 22)

/-- The command is one a legal word stands for. Every 7-bit address is a legal operand word, a
candidate or not (95_test_vectors.md V-E30). -/
def Instr.wf : Instr → Bool
  | .selectAddress _ => true
  | .regRead reg => regOperandOk reg
  | .regWrite reg => regOperandOk reg
  | .fieldRead fld => fldOperandOk fld
  | .fieldWrite fld => fldOperandOk fld
  | .setup => true
  | .update => true
  | .getTemperature => true
  | .getPressure => true
  | .getAltitude _ => true
  | .compT => true
  | .compP => true

end Sys2Proof
end

