-- ==== Sys2Proof/Decode.lean ====
section
/-!
DEFINITION. The opcode map and its decoder and encoder (30_encoding.md rules R90 to R99).
-/

namespace Sys2Proof

/-- The twelve rows of the opcode map (30_encoding.md rule R94). -/
inductive Opcode where
  | selectAddress | regRead | regWrite | fieldRead | fieldWrite
  | setup | update | getTemperature | getPressure | getAltitude | compT | compP
  deriving DecidableEq, Repr

/-- Why a word is illegal (30_encoding.md rule R95). -/
inductive DecodeError where
  /-- The opcode is not in the map. -/
  | unknownOpcode
  /-- A listed opcode with a reserved bit set. -/
  | reservedBit
  /-- A `REG` operand of 6 or 7. -/
  | illegalReg
  /-- An `FLD` operand of 23 to 31. -/
  | illegalFld
  deriving DecidableEq, Repr

/-- The rows in the order of 30_encoding.md rule R94. -/
def Opcode.all : List Opcode :=
  [.selectAddress, .regRead, .regWrite, .fieldRead, .fieldWrite, .setup, .update,
   .getTemperature, .getPressure, .getAltitude, .compT, .compP]

/-- The `match` column of 30_encoding.md rule R94. -/
def Opcode.pattern : Opcode → Word
  | .selectAddress => 0x01000000
  | .regRead => 0x02000000
  | .regWrite => 0x03000000
  | .fieldRead => 0x04000000
  | .fieldWrite => 0x05000000
  | .setup => 0x10000000
  | .update => 0x11000000
  | .getTemperature => 0x12000000
  | .getPressure => 0x13000000
  | .getAltitude => 0x14000000
  | .compT => 0x21000000
  | .compP => 0x22000000

/-- The `mask` column of 30_encoding.md rule R94. -/
def Opcode.mask : Opcode → Word
  | .selectAddress => 0xFFFFFF80
  | .regRead => 0xFFFFFFF8
  | .regWrite => 0xFFFFFFF8
  | .fieldRead => 0xFFFFFFE0
  | .fieldWrite => 0xFFFFFFE0
  | .setup => 0xFFFFFFFF
  | .update => 0xFFFFFFFF
  | .getTemperature => 0xFFFFFFFF
  | .getPressure => 0xFFFFFFFF
  | .getAltitude => 0xFFFFFFFE
  | .compT => 0xFFFFFFFF
  | .compP => 0xFFFFFFFF

/-- `OPC = w[31:24]` (30_encoding.md rule R90). -/
def opcOf (w : Word) : Byte := w.extractLsb' 24 8

/-- "Command `C` is selected by word `w` exactly when `(w & mask_C) == match_C`"
(30_encoding.md rule R94). -/
def Opcode.selects (op : Opcode) (w : Word) : Bool := (w &&& op.mask) == op.pattern

/-- The command of a word that the row `op` selects: its operand field pulled out, and the operands
that name no table entry refused (30_encoding.md rules R91, R92, R95). -/
def Opcode.operands (op : Opcode) (w : Word) : Except DecodeError Instr :=
  let reg : BitVec 3 := w.extractLsb' 0 3
  let fld : BitVec 5 := w.extractLsb' 0 5
  match op with
  | .selectAddress => .ok (.selectAddress (w.extractLsb' 0 7))
  | .regRead => if regOperandOk reg then .ok (.regRead reg) else .error .illegalReg
  | .regWrite => if regOperandOk reg then .ok (.regWrite reg) else .error .illegalReg
  | .fieldRead => if fldOperandOk fld then .ok (.fieldRead fld) else .error .illegalFld
  | .fieldWrite => if fldOperandOk fld then .ok (.fieldWrite fld) else .error .illegalFld
  | .setup => .ok .setup
  | .update => .ok .update
  | .getTemperature => .ok .getTemperature
  | .getPressure => .ok .getPressure
  | .getAltitude => .ok (.getAltitude (w.getLsbD 0))
  | .compT => .ok .compT
  | .compP => .ok .compP

/-- Why a word that no row selects is illegal. -/
def rejectUnmatched (w : Word) : DecodeError :=
  if Opcode.all.any (fun op => opcOf op.pattern == opcOf w) then .reservedBit else .unknownOpcode

/-- The decoder: total on every word, refusing by name, the same in every state
(30_encoding.md rules R94, R95, R97). -/
def decode (w : Word) : Except DecodeError Instr :=
  match Opcode.all.find? (fun op => op.selects w) with
  | some op => op.operands w
  | none => .error (rejectUnmatched w)

/-- The row of a command. -/
def Instr.opcode : Instr → Opcode
  | .selectAddress _ => .selectAddress
  | .regRead _ => .regRead
  | .regWrite _ => .regWrite
  | .fieldRead _ => .fieldRead
  | .fieldWrite _ => .fieldWrite
  | .setup => .setup
  | .update => .update
  | .getTemperature => .getTemperature
  | .getPressure => .getPressure
  | .getAltitude _ => .getAltitude
  | .compT => .compT
  | .compP => .compP

/-- The operand of 30_encoding.md rule R99: `A7`, the index of the register or field, 1 for
`manual`, 0 for nothing. -/
def Instr.operandWord : Instr → Word
  | .selectAddress a7 => a7.setWidth 32
  | .regRead reg => reg.setWidth 32
  | .regWrite reg => reg.setWidth 32
  | .fieldRead fld => fld.setWidth 32
  | .fieldWrite fld => fld.setWidth 32
  | .setup => 0
  | .update => 0
  | .getTemperature => 0
  | .getPressure => 0
  | .getAltitude manual => if manual then 1 else 0
  | .compT => 0
  | .compP => 0

/-- `word = (OPC << 24) | operand` (30_encoding.md rule R99). -/
def encode (i : Instr) : Word := i.opcode.pattern ||| i.operandWord

/-- The command word whose bits, numbered as the opcode table numbers them, are `w`; the bits above
`nbits` are 0. A command is one 32-bit word (30_encoding.md rule R90). -/
def tableWord (nbits w : Nat) : Word := BitVec.ofNat 32 (w % 2 ^ nbits)

/-- What the decoder reads from an instruction whose bits are `w`, `none` where it refuses. -/
def decodeTableWord (nbits w : Nat) : Option Instr :=
  match decode (tableWord nbits w) with
  | .ok i => some i
  | .error _ => none

end Sys2Proof
end

