-- ==== Sys2Proof/Config.lean ====
section
/-!
DEFINITION. What the spec leaves open: opaque constants with no body, so that a theorem about the
model holds whatever they are. The parameters that have admissible values to choose from are data,
in Machine/Params.lean.
-/

namespace Sys2Proof

/-- A bus transaction as the block issues it (41_transport.md rule R151). -/
inductive Txn where
  /-- `I2cRead(a7, reg, n)`. -/
  | read (a7 : Addr7) (reg : Byte) (n : Nat)
  /-- `I2cWrite(a7, reg, b)`. -/
  | write (a7 : Addr7) (reg : Byte) (b : List Byte)
  deriving DecidableEq, Repr

/-- The sensor's answer to a transaction (41_transport.md rules R151, R154). -/
inductive Answer where
  /-- `NACK`, every I/O failure. -/
  | nack
  /-- `OK(b)`; the answer to a write carries no bytes. -/
  | ok (b : List Byte)
  deriving DecidableEq, Repr

/-- One event of the bus history `H`: a transaction with its answer (41_transport.md rule R151). -/
structure BusEvent where
  txn : Txn
  answer : Answer
  deriving DecidableEq, Repr

/-- The binary64 operations of 00_scope.md rule R9, and the power of rule R6. -/
inductive FOp where
  | add | sub | mul | div | pow
  deriving DecidableEq, Repr

/-- The values of the parameter `NUM` (00_scope.md rule R6): binary64 arithmetic with one of the
rounding directions of IEEE 754 and no traps (DESIGN CHOICE, safe: log 8). -/
inductive Rounding where
  /-- To nearest, ties to even: the default. -/
  | nearestEven
  /-- To nearest, ties away from zero. -/
  | nearestAway
  | towardZero
  | towardPositive
  | towardNegative
  deriving DecidableEq, Repr

/-- FREE VALUE (DESIGN CHOICE, safe: log 4): whether the sensor fails a transaction, given how many
transactions it has answered so far, the bus history and the transaction (41_transport.md rule
R152). -/
opaque Config.sensorNacks : Nat → List BusEvent → Txn → Bool

/-- FREE VALUE (DESIGN CHOICE, safe: log 4): byte `i` of the sensor's answer to a read, on the same
arguments (41_transport.md rule R152). -/
opaque Config.sensorByte : Nat → List BusEvent → Txn → Nat → Byte

/-- FREE VALUE (DESIGN CHOICE, safe: log 10): the parameter `POW`, a total function on binary64
values (00_scope.md rule R6, 43_controller.md rule R236). -/
opaque Config.pow : F64 → F64 → F64

/-- FREE VALUE (DESIGN CHOICE, safe: log 9): the bit pattern of a NaN result, per operation and
operands; the spec says "NaN" and gives no pattern (43_controller.md rule R236). -/
opaque Config.nanBits : FOp → F64 → F64 → F64

/-- FREE VALUE (DESIGN CHOICE, safe: log 11): what the 32-bit `POLLCNT` shows for a count it cannot
hold (10_state.md rule R28). -/
opaque Config.pollcntOverflow : Nat → Word

end Sys2Proof
end

