-- ==== Sys2Proof/Machine/Params.lean ====
section
/-!
DEFINITION. The parameters of 00_scope.md rule R6 that the model takes as an argument: plain data,
carried in the state and changed by no step (DESIGN CHOICE, unsafe: log 6). The defaults are the
spec's (PRESUMED, unsafe: log 7).
-/

namespace Sys2Proof.Machine

/-- `COEFF_BYTE_ORDER` (20_memory.md rule R69). -/
inductive CoeffOrder where
  | lsbFirst | msbFirst
  deriving DecidableEq, Repr

/-- `SREG_ADDR`: the base address of each sensor register (40_register_map_codec.md rule R121). -/
structure SregAddr where
  chipId : Byte
  status : Byte
  ctrlMeas : Byte
  config : Byte
  data : Byte
  calibration : Byte
  deriving DecidableEq, Repr

/-- `LOOKUP`: the sensor code of each symbol of the three tables
(40_register_map_codec.md rule R127). -/
structure Lookup where
  sleep : BitVec 2
  forced : BitVec 2
  normal : BitVec 2
  x1 : BitVec 3
  x2 : BitVec 3
  x4 : BitVec 3
  x8 : BitVec 3
  x16 : BitVec 3
  ms0_5 : BitVec 3
  ms62_5 : BitVec 3
  ms125 : BitVec 3
  ms250 : BitVec 3
  ms500 : BitVec 3
  ms1000 : BitVec 3
  ms2000 : BitVec 3
  ms4000 : BitVec 3
  deriving DecidableEq, Repr

/-- The parameters (00_scope.md rule R6). -/
structure Params where
  /-- `ADDR_CANDIDATES.A0`. -/
  a0 : Addr7
  /-- `ADDR_CANDIDATES.A1`. -/
  a1 : Addr7
  /-- `CHIP_ID_ALT`. -/
  chipIdAlt : Byte
  /-- `COEFF_BYTE_ORDER`. -/
  coeffOrder : CoeffOrder
  /-- `POLL_LIMIT`; `none` is `INF`. OPEN: no statement rests on a value of it. -/
  pollLimit : Option Nat
  /-- `NUM`. -/
  num : Rounding
  /-- `SREG_ADDR`. -/
  sreg : SregAddr
  /-- `LOOKUP`. -/
  lookup : Lookup
  /-- `SADDR_RESET`. -/
  saddrReset : Addr7
  /-- `SCFG_RESET`, the 25 bits of `SCFG` that exist. -/
  scfgReset : BitVec 25
  deriving DecidableEq, Repr

/-- `CHIP_ID_PRIMARY`, fixed (00_scope.md rule R6, 43_controller.md rule R224). -/
def chipIdPrimary : Byte := 0x58

/-- The default sensor register map (40_register_map_codec.md rule R121). -/
def defaultSreg : SregAddr :=
  { chipId := 0xD0, status := 0xF3, ctrlMeas := 0xF4, config := 0xF5, data := 0xF7,
    calibration := 0x88 }

/-- The default codes (40_register_map_codec.md rule R127). -/
def defaultLookup : Lookup :=
  { sleep := 0b00, forced := 0b10, normal := 0b11,
    x1 := 0b001, x2 := 0b010, x4 := 0b011, x8 := 0b100, x16 := 0b101,
    ms0_5 := 0b000, ms62_5 := 0b001, ms125 := 0b010, ms250 := 0b011,
    ms500 := 0b100, ms1000 := 0b101, ms2000 := 0b110, ms4000 := 0b111 }

/-- The defaults of 00_scope.md rule R6. `POLL_LIMIT` has none that the spec relies on; `INF`
"reproduces the observed source" (DESIGN CHOICE, unsafe: log 6). -/
def defaultParams : Params :=
  { a0 := 0x76, a1 := 0x77, chipIdAlt := 0x60, coeffOrder := .lsbFirst, pollLimit := none,
    num := .nearestEven,
    sreg := defaultSreg, lookup := defaultLookup, saddrReset := 0x76, scfgReset := 0x03E8842 }

/-- The `MODE` table, symbol and code (40_register_map_codec.md rules R126, R127). -/
def Lookup.modeRows (l : Lookup) : List (Nat × Nat) :=
  [(0, l.sleep.toNat), (1, l.forced.toNat), (2, l.normal.toNat)]

/-- The `OSRS` table: the symbol is the factor itself. -/
def Lookup.osrsRows (l : Lookup) : List (Nat × Nat) :=
  [(1, l.x1.toNat), (2, l.x2.toNat), (4, l.x4.toNat), (8, l.x8.toNat), (16, l.x16.toNat)]

/-- The `TSB` table: the symbol is the period in units of 0.5 ms. -/
def Lookup.tsbRows (l : Lookup) : List (Nat × Nat) :=
  [(1, l.ms0_5.toNat), (125, l.ms62_5.toNat), (250, l.ms125.toNat), (500, l.ms250.toNat),
   (1000, l.ms500.toNat), (2000, l.ms1000.toNat), (4000, l.ms2000.toNat), (8000, l.ms4000.toNat)]

/-- Each table is a bijection between its symbols and its listed codes
(40_register_map_codec.md rule R127). -/
def Lookup.wf (l : Lookup) : Bool :=
  decide ((l.modeRows.map Prod.snd).Nodup) && decide ((l.osrsRows.map Prod.snd).Nodup) &&
  decide ((l.tsbRows.map Prod.snd).Nodup)

/-- The admissible parameters: distinct candidates, a positive poll limit or `INF`, code tables that
are bijections (00_scope.md rule R6; DESIGN CHOICE, safe: log 21). `SREG_ADDR` is not bounded: a
base address whose register would run past 0xFF is admitted, although 20_memory.md rule R67 derives
from the default table that none does (DESIGN CHOICE, safe: log 25). -/
def Params.wf (p : Params) : Bool :=
  decide (p.a0 ≠ p.a1) && decide (p.pollLimit ≠ some 0) && p.lookup.wf

/-- `a7` is one of `ADDR_CANDIDATES` (41_transport.md rule R155). -/
def Params.candidate (p : Params) (a7 : Addr7) : Bool := decide (a7 = p.a0 ∨ a7 = p.a1)

/-- The identifier is one of the two supported ones (43_controller.md rule R224). -/
def Params.supportedChip (p : Params) (id : Byte) : Bool :=
  decide (id = chipIdPrimary ∨ id = p.chipIdAlt)

end Sys2Proof.Machine
end

