-- ==== Sys2Proof/Machine/State.lean ====
section
/-!
DEFINITION. The state of the block (10_state.md rule R20), with the host's moves and the sensor's
answers as data beside it, why a step can stop, and the state after reset (70_reset_and_hazards.md
rule R291).
-/

namespace Sys2Proof.Machine

/-- The error kinds a command can end in (60_exceptions.md rule R261). -/
inductive Err where
  | busError | unsupportedChip | unknownSymbol | fieldOverflow | conversionTimeout
  | illegalCommand | sequenceError | readOnly
  deriving DecidableEq, Repr

/-- `SSTATE`; the source's `Configured` is `idle` or `converting` (43_controller.md rule R220). -/
inductive SState where
  | uninitialized | idle | converting
  deriving DecidableEq, Repr

/-- The operating modes (40_register_map_codec.md rule R126). -/
inductive Mode where
  | sleep | forced | normal
  deriving DecidableEq, Repr

/-- The values step S4 of a setup computes and its later steps use: the mode `m`, the wire mode's
code `cm`, and the codes `ct`, `cp`, `cs` (43_controller.md rule R221). -/
structure SetupCodes where
  m : Mode
  cm : Nat
  ct : Nat
  cp : Nat
  cs : Nat
  deriving DecidableEq, Repr

/-- The calibration store: the 16-bit pattern of each coefficient (10_state.md rule R36). -/
structure Coeffs where
  t1 : BitVec 16
  t2 : BitVec 16
  t3 : BitVec 16
  p1 : BitVec 16
  p2 : BitVec 16
  p3 : BitVec 16
  p4 : BitVec 16
  p5 : BitVec 16
  p6 : BitVec 16
  p7 : BitVec 16
  p8 : BitVec 16
  p9 : BitVec 16
  deriving DecidableEq, Repr

/-- The next atomic step of the running command. Every step but `decode` makes one transaction
(10_state.md rules R40, R41); a value its pseudocode computed in an earlier step comes with it
(DEDUCED, safe: log 20). -/
inductive Phase where
  /-- Everything before the first transaction. -/
  | decode
  /-- `REG_READ` step 4. -/
  | regRead
  /-- `REG_WRITE` step 6. -/
  | regWrite
  /-- `FIELD_READ` step 4. -/
  | fieldRead
  /-- `FIELD_WRITE` step 6, with `code`. -/
  | fieldModify (code : Nat)
  /-- `FIELD_WRITE` step 8, with `new`. -/
  | fieldWriteBack (new : Raw)
  /-- Setup step S6. -/
  | setupChipId (c : SetupCodes)
  /-- Setup step S7, the read. -/
  | setupCtrlRead (c : SetupCodes)
  /-- Setup step S7, the write of `v`. -/
  | setupCtrlWrite (c : SetupCodes) (v : Byte)
  /-- Setup step S8, the read. -/
  | setupConfigRead (c : SetupCodes)
  /-- Setup step S8, the write of `v`. -/
  | setupConfigWrite (c : SetupCodes) (v : Byte)
  /-- Setup step S9. -/
  | setupCal (c : SetupCodes)
  /-- Update step U3, the read. -/
  | triggerRead
  /-- Update step U3, the write of the byte. -/
  | triggerWrite (v : Byte)
  /-- Update step U4, one status read. -/
  | poll
  /-- Update step U5. -/
  | dataRead
  deriving DecidableEq, Repr

/-- `seq` (10_state.md rule R40). -/
inductive Seq where
  | idle
  | run (p : Phase)
  deriving DecidableEq, Repr

/-- The width of a host access (20_memory.md rules R61, R62). -/
inductive AccessWidth where
  | byte | half | word | double
  deriving DecidableEq, Repr

/-- A move of the world outside the block: the host's accesses and waits, block reset, and a pause
in which the sequencer makes one step (60_exceptions.md rule R277, DESIGN CHOICE, safe: log 2). -/
inductive HostOp where
  /-- A read at a byte offset of the window. -/
  | csrr (off : Byte) (width : AccessWidth)
  /-- A write at a byte offset of the window. -/
  | csrw (off : Byte) (width : AccessWidth) (v : Word)
  /-- The pseudo-operation `wait_idle` (30_encoding.md rule R101). -/
  | waitIdle
  /-- The host makes no access while the sequencer makes one step. -/
  | pause
  /-- Block reset is asserted (70_reset_and_hazards.md rule R290). -/
  | reset
  deriving DecidableEq, Repr

/-- Why the machine stops with a fault. -/
inductive Fault where
  /-- Raised by a command's meaning when `seq` names a step that the command does not have. No run
  reaches it (10_state.md rule R40; DEDUCED: log 13). Safe: the model stops where the block has no
  such state. -/
  | sequencerOffStep
  deriving DecidableEq, Repr

/-- What the model gives no meaning. -/
inductive Refusal where
  /-- Raised by `exec` for an instruction without a meaning. Safe. -/
  | notModelled (mnemonic : String)
  /-- Raised by a host access that is not 32 bits wide (20_memory.md rule R62: "refused"). Safe. -/
  | hostAccessWidth
  /-- Raised by a host access at an offset that is no multiple of 4 (20_memory.md rule R62:
  "refused"). Safe. -/
  | hostAccessMisaligned
  deriving DecidableEq, Repr

/-- All the state of 10_state.md rule R20, the bus history of 41_transport.md rule R151, and the
model's own fields: the parameters, the sensor's given answers, the host's moves and what its reads
returned. -/
structure State where
  /-- `SADDR[6:0]` (rule R24); the reserved bits do not exist (DEDUCED, safe: log 15). -/
  saddr : Addr7
  /-- `SCFG[24:0]` (rule R25); the reserved bits do not exist. -/
  scfg : BitVec 25
  /-- `ARG0` (rule R26). -/
  arg0 : Word
  /-- `ARG1`. -/
  arg1 : Word
  /-- `ARG2`. -/
  arg2 : Word
  /-- `ARG3`. -/
  arg3 : Word
  /-- `ERRINFO` (rule R27). -/
  errinfo : Word
  /-- `POLLCNT`, the number of status reads of the update cycle (rule R28). -/
  pollcnt : Nat
  /-- `RAW_T` (rule R29). -/
  rawT : BitVec 20
  /-- `RAW_P` (rule R29). -/
  rawP : BitVec 20
  /-- `RDATA`, the 192-bit data window (rule R30). -/
  rdata : Raw
  /-- `TEMP`, in °C (rule R31). -/
  temp : F64
  /-- `PRES`, in hPa (rule R31). -/
  pres : F64
  /-- `ALT`, in metres (rule R31). -/
  alt : F64
  /-- `RES` (rule R31). -/
  res : F64
  /-- `TFINE`, the carry (rule R37). -/
  tfine : F64
  /-- The calibration store (rule R36). -/
  cal : Coeffs
  /-- `CAL_VALID` (rule R36). -/
  calValid : Bool
  /-- `TFINE_VALID` (rule R37). -/
  tfineValid : Bool
  /-- `MEAS_VALID` (rule R38). -/
  measValid : Bool
  /-- `ALT_VALID` (rule R38). -/
  altValid : Bool
  /-- `STATUS.DONE` (rule R23). -/
  done : Bool
  /-- `STATUS.ERR` (rule R23). -/
  err : Bool
  /-- `STATUS.PERR`, sticky (rule R23). -/
  perr : Bool
  /-- `STATUS.ERRCODE`, `none` for code 0 (rule R23). -/
  errcode : Option Err
  /-- `SSTATE` (rule R35). -/
  sstate : SState
  /-- `ADDR_SEL` (rule R35). -/
  addrSel : Bool
  /-- `SEL_A7` (rule R35). -/
  selA7 : Addr7
  /-- `SMODE` (rule R35). -/
  smode : Mode
  /-- `seq` (rule R40). -/
  seq : Seq
  /-- `LCMD` (rule R40). -/
  lcmd : Word
  /-- `LARG0` (rule R40). -/
  larg0 : Word
  /-- `LARG1`. -/
  larg1 : Word
  /-- `LARG2`. -/
  larg2 : Word
  /-- `LARG3`. -/
  larg3 : Word
  /-- `LSADDR` (rule R40). -/
  lsaddr : Addr7
  /-- `LSCFG` (rule R40). -/
  lscfg : BitVec 25
  /-- The bus history `H`, newest first (41_transport.md rule R151). -/
  history : List BusEvent
  /-- The model's own: the parameters of 00_scope.md rule R6 (DESIGN CHOICE, unsafe: log 6). -/
  params : Params
  /-- The model's own: the sensor's next given answers (DESIGN CHOICE, safe: log 4). -/
  script : List Answer
  /-- The model's own: how many transactions the sensor has answered (DESIGN CHOICE, safe: log 5).
  -/
  answered : Nat
  /-- The model's own: the host's coming moves (DESIGN CHOICE, safe: log 2). -/
  host : List HostOp
  /-- The model's own: the offset and value of each read the host made, newest first (DESIGN
  CHOICE, safe: log 16). -/
  readLog : List (Byte × Word)
  deriving DecidableEq, Repr

/-- A store with every coefficient 0. -/
def Coeffs.zero : Coeffs :=
  { t1 := 0, t2 := 0, t3 := 0, p1 := 0, p2 := 0, p3 := 0, p4 := 0, p5 := 0, p6 := 0, p7 := 0,
    p8 := 0, p9 := 0 }

/-- The state after block reset for given parameters (70_reset_and_hazards.md rule R291); the
model's own fields are empty. -/
def State.resetWith (p : Params) : State :=
  { saddr := p.saddrReset, scfg := p.scfgReset, arg0 := 0, arg1 := 0, arg2 := 0, arg3 := 0,
    errinfo := 0, pollcnt := 0, rawT := 0, rawP := 0, rdata := 0,
    temp := 0, pres := 0, alt := 0, res := 0, tfine := 0,
    cal := Coeffs.zero, calValid := false, tfineValid := false, measValid := false,
    altValid := false, done := false, err := false, perr := false, errcode := none,
    sstate := .uninitialized, addrSel := false, selA7 := 0, smode := .sleep,
    seq := .idle, lcmd := 0, larg0 := 0, larg1 := 0, larg2 := 0, larg3 := 0,
    lsaddr := 0, lscfg := 0,
    history := [], params := p, script := [], answered := 0, host := [], readLog := [] }

/-- The machine right after reset, with the parameters at their defaults. -/
def State.reset : State := State.resetWith defaultParams

end Sys2Proof.Machine
end

