-- ==== Sys2Proof/Machine/Flags.lean ====
section
/-!
DEFINITION. The status flags: the `STATUS` view (10_state.md rule R23), the error codes and which of
them set `PERR` (60_exceptions.md rule R261), and the `ERRINFO` record (10_state.md rule R27).
-/

namespace Sys2Proof.Machine

/-- The code of an error (60_exceptions.md rule R261). -/
def Err.code : Err → BitVec 4
  | .busError => 1
  | .unsupportedChip => 2
  | .unknownSymbol => 3
  | .fieldOverflow => 4
  | .conversionTimeout => 5
  | .illegalCommand => 6
  | .sequenceError => 7
  | .readOnly => 8

/-- The error sets the sticky `PERR` (60_exceptions.md rules R261, R265). -/
def Err.setsPerr : Err → Bool
  | .illegalCommand => true
  | .sequenceError => true
  | .readOnly => true
  | .busError => false
  | .unsupportedChip => false
  | .unknownSymbol => false
  | .fieldOverflow => false
  | .conversionTimeout => false

/-- `STATUS.ERRCODE` (10_state.md rule R23). -/
def errcodeBits : Option Err → BitVec 4
  | none => 0
  | some e => e.code

/-- The encoding of `SSTATE` (10_state.md rule R23). -/
def SState.bits : SState → BitVec 2
  | .uninitialized => 0
  | .idle => 1
  | .converting => 2

/-- The encoding of `SMODE` (10_state.md rule R23). -/
def Mode.bits : Mode → BitVec 2
  | .sleep => 0
  | .forced => 1
  | .normal => 2

/-- `STATUS.BUSY`: 1 exactly when `seq != IDLE` (10_state.md rule R40). -/
def State.busy (s : State) : Bool :=
  match s.seq with
  | .idle => false
  | .run _ => true

/-- `STATUS.SEL_A7`: "the selected 7-bit address; 0 while `ADDR_SEL = 0`" (10_state.md rule R23;
DEDUCED, safe: log 12). -/
def State.selA7View (s : State) : BitVec 7 := if s.addrSel then s.selA7 else 0

/-- `STATUS.SMODE`: "0 while `SSTATE = UNINITIALIZED`" (10_state.md rule R23; DEDUCED, safe: log
12). -/
def State.smodeView (s : State) : BitVec 2 :=
  match s.sstate with
  | .uninitialized => 0
  | .idle => s.smode.bits
  | .converting => s.smode.bits

/-- The `STATUS` register, fields from bit 31 down to bit 0 (10_state.md rule R23). -/
def State.status (s : State) : Word :=
  (0 : BitVec 6) ++ s.smodeView ++ (0 : BitVec 1) ++ s.selA7View ++ (0 : BitVec 1) ++
  BitVec.ofBool s.altValid ++ BitVec.ofBool s.measValid ++ BitVec.ofBool s.tfineValid ++
  BitVec.ofBool s.calValid ++ BitVec.ofBool s.addrSel ++ s.sstate.bits ++
  errcodeBits s.errcode ++ BitVec.ofBool s.perr ++ BitVec.ofBool s.err ++
  BitVec.ofBool s.done ++ BitVec.ofBool s.busy

/-- The transaction an error concerns: the base register and the direction, true for a write
(10_state.md rule R27). -/
structure ErrXfer where
  sreg : Byte
  dir : Bool
  deriving DecidableEq, Repr

/-- The `ERRINFO` record: `OPC`, `DATA`, six reserved bits, `XFER`, `DIR`, `SREG`
(10_state.md rule R27). -/
def errinfoOf (opc data : Byte) (x : Option ErrXfer) : Word :=
  match x with
  | none => opc ++ data ++ (0 : BitVec 6) ++ (0 : BitVec 1) ++ (0 : BitVec 1) ++ (0 : BitVec 8)
  | some t =>
    opc ++ data ++ (0 : BitVec 6) ++ (1 : BitVec 1) ++ BitVec.ofBool t.dir ++ t.sreg

end Sys2Proof.Machine
end

