-- ==== Sys2Proof/Machine/Operands.lean ====
section
/-!
DEFINITION. Operands: the latched arguments (30_encoding.md rule R93), the sensor register table and
the field table (40_register_map_codec.md rules R121, R122), the codecs (rules R123 to R132), and
the byte order of sensor registers (20_memory.md rules R68, R69).
-/

namespace Sys2Proof.Machine

/-! ### The sensor register table -/

/-- The six registers of 40_register_map_codec.md rule R121. -/
inductive RegId where
  | chipId | status | ctrlMeas | config | data | calibration
  deriving DecidableEq, Repr

/-- The register a `REG` operand names, none for 6 and 7. -/
def regAt (reg : BitVec 3) : Option RegId :=
  [RegId.chipId, .status, .ctrlMeas, .config, .data, .calibration][reg.toNat]?

/-- The base address of a register, from the parameter `SREG_ADDR`. -/
def RegId.base (p : Params) : RegId → Byte
  | .chipId => p.sreg.chipId
  | .status => p.sreg.status
  | .ctrlMeas => p.sreg.ctrlMeas
  | .config => p.sreg.config
  | .data => p.sreg.data
  | .calibration => p.sreg.calibration

/-- The bytes of a register. -/
def RegId.bytes : RegId → Nat
  | .chipId => 1
  | .status => 1
  | .ctrlMeas => 1
  | .config => 1
  | .data => 6
  | .calibration => 24

/-- The bit width of a register. -/
def RegId.width (r : RegId) : Nat := 8 * r.bytes

/-! ### The field table -/

/-- The tables of the `Lookup` codec (40_register_map_codec.md rule R126). -/
inductive Table where
  | mode | osrs | tsb
  deriving DecidableEq, Repr

/-- The codec of a field (40_register_map_codec.md rules R124, R126, R130). -/
inductive Codec where
  | rawUnsigned
  | lookup (t : Table)
  | u16c
  | s16c
  deriving DecidableEq, Repr

/-- A field descriptor (40_register_map_codec.md rule R120). -/
structure Field where
  reg : RegId
  mask : Raw
  codec : Codec
  ro : Bool
  deriving DecidableEq, Repr

/-- Field `CALIBRATION.<name_k>`: mask `0xFFFF << (16 * (11 - k))`, unsigned for k = 0 and 3. -/
def calField (k : Nat) : Field :=
  { reg := .calibration, mask := (0xFFFF : Raw) <<< (16 * (11 - k)),
    codec := if k = 0 ∨ k = 3 then .u16c else .s16c, ro := true }

/-- The fields before the calibration ones, in the order of their `FLD`
(40_register_map_codec.md rule R122). -/
def plainFields : List Field :=
  [{ reg := .chipId, mask := 0xFF, codec := .rawUnsigned, ro := true },
   { reg := .status, mask := 0x08, codec := .rawUnsigned, ro := true },
   { reg := .status, mask := 0x01, codec := .rawUnsigned, ro := true },
   { reg := .ctrlMeas, mask := 0xE0, codec := .lookup .osrs, ro := false },
   { reg := .ctrlMeas, mask := 0x1C, codec := .lookup .osrs, ro := false },
   { reg := .ctrlMeas, mask := 0x03, codec := .lookup .mode, ro := false },
   { reg := .config, mask := 0xE0, codec := .lookup .tsb, ro := false },
   { reg := .config, mask := 0x1C, codec := .rawUnsigned, ro := false },
   { reg := .config, mask := 0x01, codec := .rawUnsigned, ro := true },
   { reg := .data, mask := 0xFFFFF0000000, codec := .rawUnsigned, ro := true },
   { reg := .data, mask := 0x000000FFFFF0, codec := .rawUnsigned, ro := true }]

/-- The field table of 40_register_map_codec.md rule R122. -/
def fieldTable : List Field := plainFields ++ (List.range 12).map calField

/-- The field an `FLD` operand names, none for 23 to 31. -/
def fieldAt (fld : BitVec 5) : Option Field := fieldTable[fld.toNat]?

/-- The register has a writable field (40_register_map_codec.md rule R121, last column). -/
def RegId.writable (r : RegId) : Bool := fieldTable.any (fun d => decide (d.reg = r) && !d.ro)

/-- `lsb(m)`, the index of the lowest set bit of a mask (00_scope.md rule R8). -/
def maskLsb (m : Raw) : Nat := ((List.range 192).find? (fun i => m.getLsbD i)).getD 0

/-- `width(m)`, the number of set bits of a mask (00_scope.md rule R8). -/
def maskWidth (m : Raw) : Nat := (List.range 192).countP (fun i => m.getLsbD i)

/-! ### Byte order -/

/-- The value of the bytes of a register, most significant first (20_memory.md rule R68). -/
def assemble (b : List Byte) : Raw := b.foldl (fun acc x => (acc <<< 8) ||| x.setWidth 192) 0

/-- The `n` bytes of a register value, most significant first (20_memory.md rule R68). -/
def bytesOf (n : Nat) (raw : Raw) : List Byte :=
  (List.range n).map (fun i => raw.extractLsb' (8 * (n - 1 - i)) 8)

/-- The low byte of an assembled value: `b[0]` of a one-byte register. -/
def byte0 (raw : Raw) : Byte := raw.extractLsb' 0 8

/-- A coefficient's two bytes in the order `COEFF_BYTE_ORDER`
(40_register_map_codec.md rule R130). -/
def coeffWord (o : CoeffOrder) (c : BitVec 16) : BitVec 16 :=
  match o with
  | .lsbFirst => c.extractLsb' 0 8 ++ c.extractLsb' 8 8
  | .msbFirst => c

/-! ### Codecs -/

/-- `(raw & mask) >> lsb(mask)` (40_register_map_codec.md rule R123). -/
def extractField (mask raw : Raw) : Raw := (raw &&& mask) >>> maskLsb mask

/-- `new = (old & ~mask) | (code << lsb(mask))` (40_register_map_codec.md rule R132). -/
def mergeField (mask old : Raw) (code : Nat) : Raw :=
  (old &&& ~~~mask) ||| (BitVec.ofNat 192 code <<< maskLsb mask)

/-- Decode of `SignedFromUnsigned` at 16 bits (40_register_map_codec.md rule R125). -/
def signed16 (c : BitVec 16) : Int :=
  if c.getLsbD 15 then (c.toNat : Int) - 65536 else (c.toNat : Int)

/-- Encode of `SignedFromUnsigned` at 16 bits (40_register_map_codec.md rule R125). No command
reaches it. -/
def encodeSigned16 (v : Int) : Except Err (BitVec 16) :=
  if -32768 ≤ v ∧ v ≤ 32767 then .ok (BitVec.ofNat 16 (v % 65536).toNat) else .error .fieldOverflow

/-- The rows, symbol and code, of a table (40_register_map_codec.md rule R127). -/
def Table.rows (l : Lookup) : Table → List (Nat × Nat)
  | .mode => l.modeRows
  | .osrs => l.osrsRows
  | .tsb => l.tsbRows

/-- The code of a symbol, none when the integer is not a symbol of the table
(40_register_map_codec.md rule R129). -/
def lookupEncode (rows : List (Nat × Nat)) (v : Nat) : Option Nat :=
  (rows.find? (fun r => r.1 == v)).map Prod.snd

/-- The symbol of a code, none when the code is unlisted
(40_register_map_codec.md rule R128). -/
def lookupDecode (rows : List (Nat × Nat)) (c : Nat) : Option Nat :=
  (rows.find? (fun r => r.2 == c)).map Prod.fst

/-- The 32-bit result of a field read, or `UNKNOWN_SYMBOL`: `sext_32` for `S16C`, `zext_32`
otherwise (40_register_map_codec.md rule R135 steps 7 and 8). -/
def decodeField (p : Params) (codec : Codec) (c : Raw) : Except Err Word :=
  match codec with
  | .rawUnsigned => .ok (c.setWidth 32)
  | .lookup t =>
    match lookupDecode (t.rows p.lookup) c.toNat with
    | some v => .ok (BitVec.ofNat 32 v)
    | none => .error .unknownSymbol
  | .u16c => .ok ((coeffWord p.coeffOrder (c.setWidth 16)).setWidth 32)
  | .s16c => .ok ((coeffWord p.coeffOrder (c.setWidth 16)).signExtend 32)

/-- The fit check (40_register_map_codec.md rule R131). -/
def fitCheck (mask : Raw) (code : Nat) : Except Err Nat :=
  if code < 2 ^ maskWidth mask then .ok code else .error .fieldOverflow

/-- The code of a host value for a field (40_register_map_codec.md rules R124, R129, R131). The
coefficient codecs have no encode (rule R130): their fields are read-only (DEDUCED, safe: log 19).
-/
def encodeField (p : Params) (d : Field) (v : Word) : Except Err Nat :=
  match d.codec with
  | .rawUnsigned => fitCheck d.mask v.toNat
  | .lookup t =>
    match lookupEncode (t.rows p.lookup) v.toNat with
    | some code => fitCheck d.mask code
    | none => .error .unknownSymbol
  | .u16c => .error .readOnly
  | .s16c => .error .readOnly

/-! ### Setup arguments -/

/-- The wire and host symbol of a mode (40_register_map_codec.md rule R126). -/
def Mode.symbol : Mode → Nat
  | .sleep => 0
  | .forced => 1
  | .normal => 2

/-- The mode a symbol names; 3 is not a symbol (10_state.md rule R25). -/
def modeAt (m : BitVec 2) : Option Mode :=
  if m = 0 then some .sleep else if m = 1 then some .forced else if m = 2 then some .normal
  else none

/-- "mode `forced` is programmed on the wire as `sleep`" (43_controller.md rule R221 step S4). -/
def Mode.wire : Mode → Mode
  | .sleep => .sleep
  | .forced => .sleep
  | .normal => .normal

/-- `SCFG.MODE` (10_state.md rule R25). -/
def cfgMode (cfg : BitVec 25) : BitVec 2 := cfg.extractLsb' 0 2

/-- `SCFG.OSRS_T` (10_state.md rule R25). -/
def cfgOsrsT (cfg : BitVec 25) : BitVec 5 := cfg.extractLsb' 2 5

/-- `SCFG.OSRS_P` (10_state.md rule R25). -/
def cfgOsrsP (cfg : BitVec 25) : BitVec 5 := cfg.extractLsb' 7 5

/-- `SCFG.TSB_HMS` (10_state.md rule R25). -/
def cfgTsb (cfg : BitVec 25) : BitVec 13 := cfg.extractLsb' 12 13

/-- Step S4 of a setup: the codes of the four arguments, none when one is not a symbol of its table
(43_controller.md rules R221, R222). -/
def setupCodes (p : Params) (cfg : BitVec 25) : Option SetupCodes :=
  match modeAt (cfgMode cfg) with
  | none => none
  | some m =>
    match lookupEncode p.lookup.modeRows m.wire.symbol,
          lookupEncode p.lookup.osrsRows (cfgOsrsT cfg).toNat,
          lookupEncode p.lookup.osrsRows (cfgOsrsP cfg).toNat,
          lookupEncode p.lookup.tsbRows (cfgTsb cfg).toNat with
    | some cm, some ct, some cp, some cs => some { m := m, cm := cm, ct := ct, cp := cp, cs := cs }
    | _, _, _, _ => none

/-- The `CTRL_MEAS` byte of step S7: `(b & 0x00) | (ct << 5) | (cp << 2) | cm`
(43_controller.md rule R221). -/
def ctrlMeasByte (c : SetupCodes) (b : Byte) : Byte :=
  (b &&& 0x00) ||| (BitVec.ofNat 8 c.ct <<< 5) ||| (BitVec.ofNat 8 c.cp <<< 2) |||
    BitVec.ofNat 8 c.cm

/-- The `CONFIG` byte of step S8: `(b & 0x1F) | (cs << 5)` (43_controller.md rule R221). -/
def configByte (c : SetupCodes) (b : Byte) : Byte := (b &&& 0x1F) ||| (BitVec.ofNat 8 c.cs <<< 5)

/-- The trigger byte of step U3: bits 7:2 as read and the forced code in bits 1:0
(43_controller.md rules R226, R227). -/
def triggerByte (p : Params) (b : Byte) : Byte := (b &&& 0xFC) ||| p.lookup.forced.setWidth 8

/-! ### Calibration store and data register -/

/-- The pattern of coefficient `k` in the 192-bit calibration register
(42_compensation.md rule R180 step 3). -/
def calWord (p : Params) (raw : Raw) (k : Nat) : BitVec 16 :=
  coeffWord p.coeffOrder (raw.extractLsb' (176 - 16 * k) 16)

/-- `LoadCal`, from the assembled register (42_compensation.md rule R180). -/
def loadCal (p : Params) (raw : Raw) : Coeffs :=
  { t1 := calWord p raw 0, t2 := calWord p raw 1, t3 := calWord p raw 2,
    p1 := calWord p raw 3, p2 := calWord p raw 4, p3 := calWord p raw 5,
    p4 := calWord p raw 6, p5 := calWord p raw 7, p6 := calWord p raw 8,
    p7 := calWord p raw 9, p8 := calWord p raw 10, p9 := calWord p raw 11 }

/-- The CSR `CALk`: `zext_32` for `dig_t1` and `dig_p1`, `sext_32` for the others
(10_state.md rule R33). -/
def calCsr (c : Coeffs) : Nat → Word
  | 0 => c.t1.setWidth 32
  | 1 => c.t2.signExtend 32
  | 2 => c.t3.signExtend 32
  | 3 => c.p1.setWidth 32
  | 4 => c.p2.signExtend 32
  | 5 => c.p3.signExtend 32
  | 6 => c.p4.signExtend 32
  | 7 => c.p5.signExtend 32
  | 8 => c.p6.signExtend 32
  | 9 => c.p7.signExtend 32
  | 10 => c.p8.signExtend 32
  | 11 => c.p9.signExtend 32
  | _ => 0

/-- `raw_p = raw[47:28]` (43_controller.md rule R229). -/
def dataRawP (raw : Raw) : BitVec 20 := raw.extractLsb' 28 20

/-- `raw_t = raw[23:4]` (43_controller.md rule R229). -/
def dataRawT (raw : Raw) : BitVec 20 := raw.extractLsb' 4 20

/-- `STATUS.measuring`, bit 3 (43_controller.md rule R228). -/
def measuringBit (raw : Raw) : Bool := raw.getLsbD 3

/-! ### Latched arguments -/

/-- `LARG0[19:0]` (30_encoding.md rule R93). -/
def State.rawOperand (s : State) : BitVec 20 := s.larg0.extractLsb' 0 20

/-- `qnh = f64of({LARG1, LARG0})` (30_encoding.md rule R93). -/
def State.qnhOperand (s : State) : F64 := s.larg1 ++ s.larg0

/-- `manual_temperature = f64of({LARG3, LARG2})` (30_encoding.md rule R93). -/
def State.manualOperand (s : State) : F64 := s.larg3 ++ s.larg2

end Sys2Proof.Machine
end

