-- ==== Sys2Proof/Machine/Ops.lean ====
section
/-!
DEFINITION. The named operations over the state: how a command is accepted and ends, the two bus
transactions, block reset, and reads and writes of the CSR window.
-/

namespace Sys2Proof.Machine

/-! ### Ends of a command -/

/-- `seq <- RUN(p)`. -/
def State.goto (s : State) (p : Phase) : State := { s with seq := .run p }

/-- The primitive `finish` (60_exceptions.md rule R264). -/
def State.finish (s : State) : State :=
  { s with done := true, err := false, errcode := none, seq := .idle }

/-- The primitive `raise`: an error ends the command at once (60_exceptions.md rule R265). This is
the block's one way of taking an error; there is no trap, vector or return from it (rules R266 to
R268). -/
def State.raiseWith (s : State) (e : Err) (x : Option ErrXfer) (data : Byte) : State :=
  { s with
    errinfo := errinfoOf (s.lcmd.extractLsb' 24 8) data x
    errcode := some e
    err := true
    done := true
    perr := s.perr || e.setsPerr
    seq := .idle }

/-- `raise E` for an error that concerns no transaction. -/
def State.raise (s : State) (e : Err) : State := s.raiseWith e none 0

/-- `raise E(SREG, DIR, DATA)` for an error that concerns a transaction. -/
def State.raiseBus (s : State) (e : Err) (sreg : Byte) (dir : Bool) (data : Byte) : State :=
  s.raiseWith e (some { sreg := sreg, dir := dir }) data

/-! ### Acceptance and reset -/

/-- Acceptance of the word `w`, steps A1 to A3 (60_exceptions.md rule R260). -/
def State.accept (s : State) (w : Word) : State :=
  { s with
    lcmd := w
    larg0 := s.arg0
    larg1 := s.arg1
    larg2 := s.arg2
    larg3 := s.arg3
    lsaddr := s.saddr
    lscfg := s.scfg
    done := false
    err := false
    errcode := none
    errinfo := 0
    seq := .run .decode }

/-- Block reset: every state element of the block to its reset value, between two steps, with no
end-of-command writes and no transaction (70_reset_and_hazards.md rules R290, R291). The world
outside the block goes on: the host's moves and what it has read, and the sensor (DEDUCED, safe: log
18). -/
def State.blockReset (s : State) : State :=
  { State.resetWith s.params with
    script := s.script
    answered := s.answered
    host := s.host
    readLog := s.readLog }

/-! ### Bus transactions -/

/-- The sensor's free answer to a read (41_transport.md rule R152, DESIGN CHOICE, safe: log 4). -/
def freeReadAnswer (s : State) (t : Txn) (n : Nat) : Answer :=
  if Config.sensorNacks s.answered s.history t then .nack
  else .ok ((List.range n).map (fun i => Config.sensorByte s.answered s.history t i))

/-- The sensor's free answer to a write. -/
def freeWriteAnswer (s : State) (t : Txn) : Answer :=
  if Config.sensorNacks s.answered s.history t then .nack else .ok []

/-- The sensor's answer to a read of `n` bytes: the next given one where it is an answer to such a
read, and a free one otherwise (41_transport.md rule R152, DESIGN CHOICE, safe: log 4). -/
def readAnswer (s : State) (t : Txn) (n : Nat) : Answer :=
  match s.script with
  | .nack :: _ => .nack
  | .ok b :: _ => if b.length = n then .ok b else freeReadAnswer s t n
  | [] => freeReadAnswer s t n

/-- The sensor's answer to a write. -/
def writeAnswer (s : State) (t : Txn) : Answer :=
  match s.script with
  | .nack :: _ => .nack
  | .ok _ :: _ => .ok []
  | [] => freeWriteAnswer s t

/-- The transaction is over: `H` records it with its answer (41_transport.md rule R151). -/
def State.record (s : State) (t : Txn) (a : Answer) : State :=
  { s with
    history := { txn := t, answer := a } :: s.history
    script := s.script.tail
    answered := s.answered + 1 }

/-- `MemRead(reg, n)`, `I2cRead(SEL_A7, reg, n)` (00_scope.md rule R10). -/
def State.readTxn (s : State) (reg : Byte) (n : Nat) : Txn := .read s.selA7 reg n

/-- `MemWrite(reg, n, b)`, `I2cWrite(SEL_A7, reg, b)` (00_scope.md rule R10). -/
def State.writeTxn (s : State) (reg : Byte) (b : List Byte) : Txn := .write s.selA7 reg b

/-- One read transaction: the state after it and its answer. -/
def busRead (s : State) (reg : Byte) (n : Nat) : State × Answer :=
  let a := readAnswer s (s.readTxn reg n) n
  (s.record (s.readTxn reg n) a, a)

/-- One write transaction: the state after it and its answer. -/
def busWrite (s : State) (reg : Byte) (b : List Byte) : State × Answer :=
  let a := writeAnswer s (s.writeTxn reg b)
  (s.record (s.writeTxn reg b) a, a)

/-! ### Atomic steps -/

/-- How far an atomic step of a procedure has come (10_state.md rule R41). -/
inductive Progress where
  /-- The step is over: the next one starts with a transaction, or the command has raised. -/
  | ends (s : State)
  /-- The procedure has returned; its caller goes on in the same step. -/
  | returned (s : State)
  /-- `seq` names a step the procedure does not have. -/
  | stray
  deriving DecidableEq, Repr

/-- A read that raises `BUS_ERROR` on `NACK` and goes on with the assembled value
(41_transport.md rule R154, 20_memory.md rule R68). -/
def memRead (s : State) (reg : Byte) (n : Nat) (k : State → Raw → Progress) : Progress :=
  match busRead s reg n with
  | (s', .nack) => .ends (s'.raiseBus .busError reg false 0)
  | (s', .ok b) => k s' (assemble b)

/-- A write that raises `BUS_ERROR` on `NACK` and goes on otherwise
(41_transport.md rule R154). -/
def memWrite (s : State) (reg : Byte) (b : List Byte) (k : State → Progress) : Progress :=
  match busWrite s reg b with
  | (s', .nack) => .ends (s'.raiseBus .busError reg true 0)
  | (s', .ok _) => k s'

/-- One atomic step of a command: where its procedure returns, the command writes its results with
`f` and finishes in the same step (60_exceptions.md rule R264). -/
def Progress.complete (p : Progress) (f : State → State) :
    Host.Outcome State Fault Refusal :=
  match p with
  | .ends s => .next s
  | .returned s => .next (f s).finish
  | .stray => .fault .sequencerOffStep

/-! ### The CSR window -/

/-- The low or high word of a binary64 value (20_memory.md rule R64). -/
def loWord (x : F64) : Word := x.extractLsb' 0 32

/-- The high word of a binary64 value. -/
def hiWord (x : F64) : Word := x.extractLsb' 32 32

/-- The `POLLCNT` view of the count of status reads (10_state.md rule R28); what it shows for a
count of `2^32` or more is open (DESIGN CHOICE, safe: log 11). -/
def pollcntView (n : Nat) : Word :=
  if n < 2 ^ 32 then BitVec.ofNat 32 n else Config.pollcntOverflow n

/-- `RDATAi = RDATA[32i+31 : 32i]` (10_state.md rule R30). -/
def rdataWord (r : Raw) (i : Nat) : Word := r.extractLsb' (32 * i) 32

/-- What a host read at byte offset `off` returns (10_state.md rule R21). Unlisted offsets and
reserved bits read 0 (rule R34). -/
def State.readCsr (s : State) (off : Byte) : Word :=
  match off.toNat with
  | 0x00 => 0
  | 0x04 => s.status
  | 0x08 => s.saddr.setWidth 32
  | 0x0C => s.scfg.setWidth 32
  | 0x10 => s.arg0
  | 0x14 => s.arg1
  | 0x18 => s.arg2
  | 0x1C => s.arg3
  | 0x20 => s.errinfo
  | 0x24 => pollcntView s.pollcnt
  | 0x28 => s.rawT.setWidth 32
  | 0x2C => s.rawP.setWidth 32
  | 0x30 => rdataWord s.rdata 0
  | 0x34 => rdataWord s.rdata 1
  | 0x38 => rdataWord s.rdata 2
  | 0x3C => rdataWord s.rdata 3
  | 0x40 => rdataWord s.rdata 4
  | 0x44 => rdataWord s.rdata 5
  | 0x48 => loWord s.temp
  | 0x4C => hiWord s.temp
  | 0x50 => loWord s.pres
  | 0x54 => hiWord s.pres
  | 0x58 => loWord s.alt
  | 0x5C => hiWord s.alt
  | 0x60 => loWord s.res
  | 0x64 => hiWord s.res
  | 0x68 => loWord s.tfine
  | 0x6C => hiWord s.tfine
  | 0x70 => calCsr s.cal 0
  | 0x74 => calCsr s.cal 1
  | 0x78 => calCsr s.cal 2
  | 0x7C => calCsr s.cal 3
  | 0x80 => calCsr s.cal 4
  | 0x84 => calCsr s.cal 5
  | 0x88 => calCsr s.cal 6
  | 0x8C => calCsr s.cal 7
  | 0x90 => calCsr s.cal 8
  | 0x94 => calCsr s.cal 9
  | 0x98 => calCsr s.cal 10
  | 0x9C => calCsr s.cal 11
  | _ => 0

/-- A host write of `v` at byte offset `off`, other than to `CMD`: it replaces the writable bits of
the register, and read-only, reserved and unlisted registers ignore it
(10_state.md rules R21, R24 to R26, R34). -/
def State.writeCsr (s : State) (off : Byte) (v : Word) : State :=
  match off.toNat with
  | 0x08 => { s with saddr := v.extractLsb' 0 7 }
  | 0x0C => { s with scfg := v.extractLsb' 0 25 }
  | 0x10 => { s with arg0 := v }
  | 0x14 => { s with arg1 := v }
  | 0x18 => { s with arg2 := v }
  | 0x1C => { s with arg3 := v }
  | _ => s

/-- Byte offset `4j + i` of the window would hold bits `8i+7` to `8i` of the register at `4j`; no
admitted access depends on it (20_memory.md rule R63). -/
def State.byteLane (s : State) (off : Byte) : Byte :=
  (s.readCsr (off &&& 0xFC)).extractLsb' (8 * (off.toNat % 4)) 8

end Sys2Proof.Machine
end

