-- ==== Sys2Proof/Machine/Codec.lean ====
section
/-!
DEFINITION. The field commands (40_register_map_codec.md rules R135, R136).
-/

namespace Sys2Proof.Machine

/-- Step 2 of `FIELD_READ` (40_register_map_codec.md rule R135). -/
def fieldReadStart (s : State) : Progress :=
  if s.addrSel = true then .ends (s.goto .fieldRead) else .ends (s.raise .sequenceError)

/-- Steps 6 to 8 of `FIELD_READ`: extract, decode, and the result in `RDATA0` with 0 in
`RDATA1..RDATA5` (40_register_map_codec.md rule R135). -/
def fieldReadResult (d : Field) (s : State) (raw : Raw) : Progress :=
  match decodeField s.params d.codec (extractField d.mask raw) with
  | .error e => .ends (s.raise e)
  | .ok v => .returned { s with rdata := v.setWidth 192 }

/-- One atomic step of `FIELD_READ` (40_register_map_codec.md rule R135). -/
def fieldReadStep (fld : BitVec 5) (s : State) : Progress :=
  match fieldAt fld with
  | none => .ends (s.raise .illegalCommand)
  | some d =>
    match s.seq with
    | .idle => fieldReadStart s
    | .run .decode => fieldReadStart s
    | .run .fieldRead => memRead s (d.reg.base s.params) d.reg.bytes (fieldReadResult d)
    | .run _ => .stray

/-- `FIELD_READ FLD`. -/
def execFieldRead (fld : BitVec 5) (s : State) : Host.Outcome State Fault Refusal :=
  (fieldReadStep fld s).complete id

/-- Steps 2 to 5 of `FIELD_WRITE` (40_register_map_codec.md rule R136). -/
def fieldWriteStart (d : Field) (s : State) : Progress :=
  if s.addrSel = true then
    if d.ro then .ends (s.raise .readOnly)
    else
      match encodeField s.params d s.larg0 with
      | .error e => .ends (s.raise e)
      | .ok code => .ends (s.goto (.fieldModify code))
  else .ends (s.raise .sequenceError)

/-- One atomic step of `FIELD_WRITE` (40_register_map_codec.md rule R136). -/
def fieldWriteStep (fld : BitVec 5) (s : State) : Progress :=
  match fieldAt fld with
  | none => .ends (s.raise .illegalCommand)
  | some d =>
    match s.seq with
    | .idle => fieldWriteStart d s
    | .run .decode => fieldWriteStart d s
    | .run (.fieldModify code) =>
      memRead s (d.reg.base s.params) d.reg.bytes fun s raw =>
        .ends (s.goto (.fieldWriteBack (mergeField d.mask raw code)))
    | .run (.fieldWriteBack new) =>
      memWrite s (d.reg.base s.params) (bytesOf d.reg.bytes new) fun s => .returned s
    | .run _ => .stray

/-- `FIELD_WRITE FLD`. -/
def execFieldWrite (fld : BitVec 5) (s : State) : Host.Outcome State Fault Refusal :=
  (fieldWriteStep fld s).complete id

end Sys2Proof.Machine
end

