-- ==== Sys2Proof/Machine/Float.lean ====
section
/-!
DEFINITION. IEEE 754 binary64 arithmetic without traps, for each value of the parameter `NUM`
(00_scope.md rules R6, R9; DESIGN CHOICE, safe: log 8). Each operation is exact on integers and
rounds once. A finite number is a sign, a magnitude `m` and an exponent `e`, for the value
`m * 2^e`.
-/

namespace Sys2Proof.Machine

/-- What a 64-bit pattern stands for. -/
inductive FVal where
  | nan
  | inf (neg : Bool)
  | fin (neg : Bool) (m : Nat) (e : Int)
  deriving DecidableEq, Repr

/-- The sign bit of a pattern. -/
def signOf (x : F64) : Bool := x.getLsbD 63

/-- Read a pattern: subnormals and zeros have exponent field 0, infinities and NaNs 2047. -/
def unpack (x : F64) : FVal :=
  let ex := (x.extractLsb' 52 11).toNat
  let fr := (x.extractLsb' 0 52).toNat
  if ex = 2047 then
    if fr = 0 then .inf (signOf x) else .nan
  else if ex = 0 then .fin (signOf x) fr (-1074)
  else .fin (signOf x) (2 ^ 52 + fr) ((ex : Int) - 1075)

/-- A pattern from a sign and a 63-bit magnitude. -/
def withSign (neg : Bool) (mag : Nat) : F64 :=
  BitVec.ofNat 64 (if neg then 2 ^ 63 + mag else mag)

/-- `+0.0` or `-0.0`. -/
def zeroOf (neg : Bool) : F64 := withSign neg 0

/-- `+inf` or `-inf`. -/
def infOf (neg : Bool) : F64 := withSign neg (2047 * 2 ^ 52)

/-- The pattern is a NaN. -/
def isNaN (x : F64) : Bool := unpack x == .nan

/-- The pattern is a finite number. -/
def isFinite (x : F64) : Bool := (x.extractLsb' 52 11).toNat != 2047

/-- Whether a number of sign `neg` is rounded away from zero, when what its magnitude `q` leaves out
is `r` of `unit` (`0 ≤ r < unit`). -/
def roundsAway (num : Rounding) (neg : Bool) (q r unit : Nat) : Bool :=
  match num with
  | .nearestEven => decide (2 * r > unit ∨ (2 * r = unit ∧ q % 2 = 1))
  | .nearestAway => decide (2 * r ≥ unit)
  | .towardZero => false
  | .towardPositive => !neg && decide (r ≠ 0)
  | .towardNegative => neg && decide (r ≠ 0)

/-- `m / 2^k`, the magnitude of a number of sign `neg`, rounded to an integer. -/
def roundShift (num : Rounding) (neg : Bool) (m k : Nat) : Nat :=
  let q := m / 2 ^ k
  if roundsAway num neg q (m % 2 ^ k) (2 ^ k) then q + 1 else q

/-- The result of an operation that overflows: an infinity, or the largest finite number where the
rounding goes toward zero. -/
def overflowOf (num : Rounding) (neg : Bool) : F64 :=
  match num with
  | .nearestEven => infOf neg
  | .nearestAway => infOf neg
  | .towardZero => withSign neg (2047 * 2 ^ 52 - 1)
  | .towardPositive => if neg then withSign neg (2047 * 2 ^ 52 - 1) else infOf neg
  | .towardNegative => if neg then infOf neg else withSign neg (2047 * 2 ^ 52 - 1)

/-- The exponent of the last place of the number that `m * 2^e` rounds to: 52 below its leading bit,
and at least that of the subnormals. -/
def lastPlace (m : Nat) (e : Int) : Int := max ((m.log2 : Int) + e - 52) (-1074)

/-- The number that `±m * 2^e` rounds to. The magnitude is built as exponent field and fraction
together, so a rounding that carries into the next binade needs no case of its own. -/
def roundPack (num : Rounding) (neg : Bool) (m : Nat) (e : Int) : F64 :=
  if m = 0 then zeroOf neg
  else
    let t := lastPlace m e
    let sig := if t ≤ e then m * 2 ^ (e - t).toNat else roundShift num neg m (t - e).toNat
    let mag := (t + 1074).toNat * 2 ^ 52 + sig
    if mag ≥ 2047 * 2 ^ 52 then overflowOf num neg else withSign neg mag

/-- A NaN result. Its pattern is open: any NaN (DESIGN CHOICE, safe: log 9). -/
def nanOf (op : FOp) (a b : F64) : F64 :=
  let x := Config.nanBits op a b
  if isNaN x then x else 0x7FF8000000000000

/-- A signed integer from sign and magnitude. -/
def signedOf (neg : Bool) (m : Nat) : Int := if neg then -(m : Int) else (m : Int)

/-- The sum of two finite numbers. An exact zero has the operands' sign where they agree, and is
`-0.0` otherwise only in rounding toward negative infinity. -/
def addFin (num : Rounding) (s₁ : Bool) (m₁ : Nat) (e₁ : Int) (s₂ : Bool) (m₂ : Nat) (e₂ : Int) :
    F64 :=
  let e := min e₁ e₂
  let n := signedOf s₁ (m₁ * 2 ^ (e₁ - e).toNat) + signedOf s₂ (m₂ * 2 ^ (e₂ - e).toNat)
  if n = 0 then zeroOf (if s₁ = s₂ then s₁ else decide (num = .towardNegative))
  else roundPack num (decide (n < 0)) n.natAbs e

/-- The sum of two values, for the operation `op` on the operands `a` and `b`. -/
def addVal (num : Rounding) (op : FOp) (a b : F64) : FVal → FVal → F64
  | .nan, _ => nanOf op a b
  | _, .nan => nanOf op a b
  | .inf s₁, .inf s₂ => if s₁ = s₂ then infOf s₁ else nanOf op a b
  | .inf s₁, .fin _ _ _ => infOf s₁
  | .fin _ _ _, .inf s₂ => infOf s₂
  | .fin s₁ m₁ e₁, .fin s₂ m₂ e₂ => addFin num s₁ m₁ e₁ s₂ m₂ e₂

/-- The value with its sign changed. -/
def FVal.neg : FVal → FVal
  | .nan => .nan
  | .inf s => .inf (!s)
  | .fin s m e => .fin (!s) m e

/-- `a +f b`. -/
def fadd (num : Rounding) (a b : F64) : F64 := addVal num .add a b (unpack a) (unpack b)

/-- `a -f b`. -/
def fsub (num : Rounding) (a b : F64) : F64 := addVal num .sub a b (unpack a) (unpack b).neg

/-- The product of two values; infinity times zero is NaN. -/
def mulVal (num : Rounding) (a b : F64) : FVal → FVal → F64
  | .nan, _ => nanOf .mul a b
  | _, .nan => nanOf .mul a b
  | .inf s₁, .inf s₂ => infOf (s₁ ^^ s₂)
  | .inf s₁, .fin s₂ m₂ _ => if m₂ = 0 then nanOf .mul a b else infOf (s₁ ^^ s₂)
  | .fin s₁ m₁ _, .inf s₂ => if m₁ = 0 then nanOf .mul a b else infOf (s₁ ^^ s₂)
  | .fin s₁ m₁ e₁, .fin s₂ m₂ e₂ => roundPack num (s₁ ^^ s₂) (m₁ * m₂) (e₁ + e₂)

/-- `a *f b`. -/
def fmul (num : Rounding) (a b : F64) : F64 := mulVal num a b (unpack a) (unpack b)

/-- The quotient of two finite numbers with a non-zero divisor. The integer quotient has at least 57
bits, and its last bit tells whether the division left a remainder, so rounding it rounds the exact
quotient. -/
def divFin (num : Rounding) (neg : Bool) (m₁ : Nat) (e₁ : Int) (m₂ : Nat) (e₂ : Int) : F64 :=
  let n := m₁ * 2 ^ 110
  let q := 2 * (n / m₂) + (if n % m₂ = 0 then 0 else 1)
  roundPack num neg q (e₁ - e₂ - 111)

/-- The quotient of two values; `0/0` and `inf/inf` are NaN, a finite non-zero number over zero is
an infinity, with no trap (43_controller.md rule R236). -/
def divVal (num : Rounding) (a b : F64) : FVal → FVal → F64
  | .nan, _ => nanOf .div a b
  | _, .nan => nanOf .div a b
  | .inf _, .inf _ => nanOf .div a b
  | .inf s₁, .fin s₂ _ _ => infOf (s₁ ^^ s₂)
  | .fin s₁ _ _, .inf s₂ => zeroOf (s₁ ^^ s₂)
  | .fin s₁ m₁ e₁, .fin s₂ m₂ e₂ =>
    if m₂ = 0 then (if m₁ = 0 then nanOf .div a b else infOf (s₁ ^^ s₂))
    else divFin num (s₁ ^^ s₂) m₁ e₁ m₂ e₂

/-- `a /f b`. -/
def fdiv (num : Rounding) (a b : F64) : F64 := divVal num a b (unpack a) (unpack b)

/-- `a ==f b`: IEEE equality, so `-0.0 ==f 0.0` and a NaN equals nothing
(00_scope.md rule R9). -/
def feq (a b : F64) : Bool :=
  match unpack a, unpack b with
  | .nan, _ => false
  | _, .nan => false
  | .fin s₁ m₁ e₁, .fin s₂ m₂ e₂ => (m₁ = 0 && m₂ = 0) || (s₁ == s₂ && m₁ == m₂ && e₁ == e₂)
  | x, y => x == y

/-- `fl(n)`: an integer to binary64, exact below `2^53` in magnitude (00_scope.md rule R9). -/
def fl (num : Rounding) (n : Int) : F64 := roundPack num (decide (n < 0)) n.natAbs 0

end Sys2Proof.Machine
end

