-- ==== Sys2Proof/Machine/Numeric.lean ====
section
/-!
DEFINITION. The compensation pipeline and the altitude formula on binary64, in the order the rules
fix (42_compensation.md rules R183, R185; 43_controller.md rule R236). `n` is the value of `NUM`.
-/

namespace Sys2Proof.Machine

/-- `fl` of an unsigned coefficient or count. -/
def flU {w : Nat} (n : Rounding) (c : BitVec w) : F64 := fl n (c.toNat : Int)

/-- `fl` of a signed coefficient (40_register_map_codec.md rule R125). -/
def flS (n : Rounding) (c : BitVec 16) : F64 := fl n (signed16 c)

/-- `temperature_fine`, steps 1 to 4 of `CompT` (42_compensation.md rule R183). -/
def compTFine (n : Rounding) (c : Coeffs) (raw : BitVec 20) : F64 :=
  let r := flU n raw
  let t1 := flU n c.t1
  let var1 := fmul n (fsub n (fdiv n r (fl n 16384)) (fdiv n t1 (fl n 1024))) (flS n c.t2)
  let d := fsub n (fdiv n r (fl n 131072)) (fdiv n t1 (fl n 8192))
  let var2 := fmul n (fmul n d d) (flS n c.t3)
  fadd n var1 var2

/-- Step 5 of `CompT`: the temperature in °C (42_compensation.md rule R183). -/
def tempOfFine (n : Rounding) (tf : F64) : F64 := fdiv n tf (fl n 5120)

/-- The factor `1.0 +f (var1 /f 32768.0)` of step 6 of `CompP` (42_compensation.md rule R185). -/
def compPScale (n : Rounding) (c : Coeffs) (tf : F64) : F64 :=
  let v := fsub n (fdiv n tf (fl n 2)) (fl n 64000)
  let a := fdiv n (fmul n (fmul n (flS n c.p3) v) v) (fl n 524288)
  let w := fdiv n (fadd n a (fmul n (flS n c.p2) v)) (fl n 524288)
  fadd n (fl n 1) (fdiv n w (fl n 32768))

/-- Steps 1 to 6 of `CompP`: the denominator `var1` (42_compensation.md rule R185). -/
def compPDenominator (n : Rounding) (c : Coeffs) (tf : F64) : F64 :=
  fmul n (compPScale n c tf) (flU n c.p1)

/-- Steps 1 to 4 of `CompP`: `var2` (42_compensation.md rule R185). -/
def compPVar2 (n : Rounding) (c : Coeffs) (tf : F64) : F64 :=
  let v := fsub n (fdiv n tf (fl n 2)) (fl n 64000)
  let a := fdiv n (fmul n (fmul n v v) (flS n c.p6)) (fl n 32768)
  let b := fadd n a (fmul n (fmul n v (flS n c.p5)) (fl n 2))
  fadd n (fdiv n b (fl n 4)) (fmul n (flS n c.p4) (fl n 65536))

/-- Steps 8 to 13 of `CompP`, from the denominator `var1` and `var2`
(42_compensation.md rule R185). -/
def compPFinish (n : Rounding) (c : Coeffs) (raw : BitVec 20) (var1 var2 : F64) : F64 :=
  let p8 := fsub n (fl n 1048576) (flU n raw)
  let p9 := fdiv n (fmul n (fsub n p8 (fdiv n var2 (fl n 4096))) (fl n 6250)) var1
  let u1 := fdiv n (fmul n (fmul n (flS n c.p9) p9) p9) (fl n 2147483648)
  let u2 := fdiv n (fmul n p9 (flS n c.p8)) (fl n 32768)
  fadd n p9 (fdiv n (fadd n (fadd n u1 u2) (flS n c.p7)) (fl n 16))

/-- `CompP(raw_p, tf)`, in Pa. A zero denominator returns `+0.0` and divides nothing
(42_compensation.md rules R185, R187). -/
def compP (n : Rounding) (c : Coeffs) (raw : BitVec 20) (tf : F64) : F64 :=
  let var1 := compPDenominator n c tf
  if feq var1 (fl n 0) then zeroOf false else compPFinish n c raw var1 (compPVar2 n c tf)

/-- Pa to hPa: `p /f 100.0` (42_compensation.md rule R191). -/
def toHPa (n : Rounding) (p : F64) : F64 := fdiv n p (fl n 100)

/-- The binary64 value nearest to `5.257` (43_controller.md rule R236). -/
def c5_257 : F64 := fdiv .nearestEven (fl .nearestEven 5257) (fl .nearestEven 1000)

/-- The binary64 value nearest to `273.15` (43_controller.md rule R236). -/
def c273_15 : F64 := fdiv .nearestEven (fl .nearestEven 27315) (fl .nearestEven 100)

/-- The binary64 value nearest to `0.0065` (43_controller.md rule R236). -/
def c0_0065 : F64 := fdiv .nearestEven (fl .nearestEven 65) (fl .nearestEven 10000)

/-- The binary64 value `1.0`. -/
def c1 : F64 := 0x3FF0000000000000

/-- `POW` at a positive non-integer exponent, which is the only kind the rule has: the special bases
as 43_controller.md rule R236 says, and on every other base, a positive finite number other than 1,
the open function `pow` (00_scope.md rule R6; DEDUCED, unsafe: log 23). At negative infinity the
open function says which it is, `+inf` as IEEE 754's `pow` has it or NaN as R236's words have it for
a negative base (DESIGN CHOICE, safe: log 24). -/
def powWith (pow : F64 → F64 → F64) (x y : F64) : F64 :=
  match unpack x with
  | .nan => nanOf .pow x y
  | .inf neg => if neg && isNaN (pow x y) then nanOf .pow x y else infOf false
  | .fin neg m _ =>
    if m = 0 then zeroOf false
    else if neg then nanOf .pow x y
    else if x = c1 then c1
    else pow x y

/-- `Alt(q, P, T)` for a given power function (43_controller.md rule R236). -/
def altitudeWith (pow : F64 → F64 → F64) (n : Rounding) (q p t : F64) : F64 :=
  let r := fdiv n q p
  let e := fdiv n (fl n 1) c5_257
  let x := fsub n (powWith pow r e) (fl n 1)
  let y := fadd n t c273_15
  fdiv n (fmul n x y) c0_0065

/-- `Alt(q, P, T)` with the parameter `POW` (00_scope.md rule R6). -/
def altitude (n : Rounding) (q p t : F64) : F64 := altitudeWith Config.pow n q p t

end Sys2Proof.Machine
end

