-- ==== Sys2Proof/Machine/Compensation.lean ====
section
/-!
DEFINITION. The compensation engine's commands (42_compensation.md rules R188, R189).
-/

namespace Sys2Proof.Machine

/-- Steps 1 to 4 of `COMP_T` (42_compensation.md rule R188). -/
def compTStep (s : State) : Progress :=
  if s.calValid = true then
    let tf := compTFine s.params.num s.cal s.rawOperand
    .returned { s with
      tfine := tf
      tfineValid := true
      res := tempOfFine s.params.num tf
      rawT := s.rawOperand }
  else .ends (s.raise .sequenceError)

/-- `COMP_T`: a command of one step. -/
def execCompT (s : State) : Host.Outcome State Fault Refusal :=
  match s.seq with
  | .idle => (compTStep s).complete id
  | .run .decode => (compTStep s).complete id
  | .run _ => Progress.stray.complete id

/-- Steps 1 to 4 of `COMP_P` (42_compensation.md rule R189). -/
def compPStep (s : State) : Progress :=
  if s.calValid = true ∧ s.tfineValid = true then
    .returned { s with
      res := compP s.params.num s.cal s.rawOperand s.tfine
      rawP := s.rawOperand }
  else .ends (s.raise .sequenceError)

/-- `COMP_P`: a command of one step. -/
def execCompP (s : State) : Host.Outcome State Fault Refusal :=
  match s.seq with
  | .idle => (compPStep s).complete id
  | .run .decode => (compPStep s).complete id
  | .run _ => Progress.stray.complete id

end Sys2Proof.Machine
end

