-- ==== Sys2Proof/Machine/Procedures.lean ====
section
/-!
DEFINITION. The procedures `Setup()` and `Update()` that the controller's commands share, one atomic
step at a time (43_controller.md rules R221, R226).
-/

namespace Sys2Proof.Machine

/-! ### Setup() -/

/-- Steps S1 to S5, everything before the first transaction (43_controller.md rules R221 to
R223). -/
def setupStart (s : State) : Progress :=
  if s.sstate = .uninitialized then
    if s.params.candidate s.lsaddr then
      match setupCodes s.params s.lscfg with
      | none => .ends (s.raise .unknownSymbol)
      | some c =>
        if s.addrSel = true ∧ s.selA7 ≠ s.lsaddr then .ends (s.raise .sequenceError)
        else .ends ({ s with addrSel := true, selA7 := s.lsaddr }.goto (.setupChipId c))
    else .ends (s.raise .illegalCommand)
  else .returned s

/-- Step S6, the identity check (43_controller.md rule R224). -/
def setupChipId (s : State) (c : SetupCodes) : Progress :=
  let reg := RegId.chipId.base s.params
  memRead s reg 1 fun s raw =>
    if s.params.supportedChip (byte0 raw) then .ends (s.goto (.setupCtrlRead c))
    else .ends (s.raiseBus .unsupportedChip reg false (byte0 raw))

/-- Step S7, the read of `CTRL_MEAS` (43_controller.md rule R225). -/
def setupCtrlRead (s : State) (c : SetupCodes) : Progress :=
  memRead s (RegId.ctrlMeas.base s.params) 1 fun s raw =>
    .ends (s.goto (.setupCtrlWrite c (ctrlMeasByte c (byte0 raw))))

/-- Step S7, the write of `CTRL_MEAS`. -/
def setupCtrlWrite (s : State) (c : SetupCodes) (v : Byte) : Progress :=
  memWrite s (RegId.ctrlMeas.base s.params) [v] fun s => .ends (s.goto (.setupConfigRead c))

/-- Step S8, the read of `CONFIG` (43_controller.md rule R225). -/
def setupConfigRead (s : State) (c : SetupCodes) : Progress :=
  memRead s (RegId.config.base s.params) 1 fun s raw =>
    .ends (s.goto (.setupConfigWrite c (configByte c (byte0 raw))))

/-- Step S8, the write of `CONFIG`. -/
def setupConfigWrite (s : State) (c : SetupCodes) (v : Byte) : Progress :=
  memWrite s (RegId.config.base s.params) [v] fun s => .ends (s.goto (.setupCal c))

/-- Step S10: the store, `CAL_VALID`, `SSTATE` and `SMODE` together (43_controller.md rule R225). -/
def State.configured (s : State) (cal : Coeffs) (m : Mode) : State :=
  { s with cal := cal, calValid := true, sstate := .idle, smode := m }

/-- Steps S9 and S10, in the step of the calibration read (42_compensation.md rule R180). -/
def setupCal (s : State) (c : SetupCodes) : Progress :=
  memRead s (RegId.calibration.base s.params) 24 fun s raw =>
    .returned (s.configured (loadCal s.params raw) c.m)

/-- One atomic step of `Setup()` (43_controller.md rule R221). An idle sequencer makes the first one
(DESIGN CHOICE, safe: log 14). -/
def setupStep (s : State) : Progress :=
  match s.seq with
  | .idle => setupStart s
  | .run .decode => setupStart s
  | .run (.setupChipId c) => setupChipId s c
  | .run (.setupCtrlRead c) => setupCtrlRead s c
  | .run (.setupCtrlWrite c v) => setupCtrlWrite s c v
  | .run (.setupConfigRead c) => setupConfigRead s c
  | .run (.setupConfigWrite c v) => setupConfigWrite s c v
  | .run (.setupCal c) => setupCal s c
  | .run .regRead => .stray
  | .run .regWrite => .stray
  | .run .fieldRead => .stray
  | .run (.fieldModify _) => .stray
  | .run (.fieldWriteBack _) => .stray
  | .run .triggerRead => .stray
  | .run (.triggerWrite _) => .stray
  | .run .poll => .stray
  | .run .dataRead => .stray

/-! ### Update() -/

/-- Step U2 and the choice of step U3: `POLLCNT <- 0`, then the trigger in forced mode and the data
read otherwise (43_controller.md rules R226, R234). -/
def updateStart (s : State) : State :=
  let s := { s with pollcnt := 0 }
  if s.smode = .forced then s.goto .triggerRead else s.goto .dataRead

/-- Step U3, the read of `CTRL_MEAS` (43_controller.md rule R227). -/
def triggerRead (s : State) : Progress :=
  memRead s (RegId.ctrlMeas.base s.params) 1 fun s raw =>
    .ends (s.goto (.triggerWrite (triggerByte s.params (byte0 raw))))

/-- The head of the poll loop: at the limit it leaves the loop with `CONVERSION_TIMEOUT`, else the
next step is a status read (43_controller.md rules R226 step U4, R228). -/
def pollHead (s : State) : State :=
  if s.params.pollLimit = some s.pollcnt then
    { s with sstate := .idle }.raiseBus .conversionTimeout (RegId.status.base s.params) false 0
  else s.goto .poll

/-- Step U3, the write of the trigger byte, and the first head of the poll loop. -/
def triggerWrite (s : State) (v : Byte) : Progress :=
  memWrite s (RegId.ctrlMeas.base s.params) [v] fun s =>
    .ends (pollHead { s with sstate := .converting })

/-- Step U4, one status read and what follows it up to the next transaction; every way out of the
loop sets `SSTATE = IDLE` (43_controller.md rule R228, DEDUCED, unsafe: log 1). -/
def pollStep (s : State) : Progress :=
  let reg := RegId.status.base s.params
  match busRead s reg 1 with
  | (s', .nack) => .ends ({ s' with sstate := .idle }.raiseBus .busError reg false 0)
  | (s', .ok b) =>
    let s' := { s' with pollcnt := s'.pollcnt + 1 }
    if measuringBit (assemble b) then .ends (pollHead s')
    else .ends ({ s' with sstate := .idle }.goto .dataRead)

/-- Steps U6 and U7: the temperature before the pressure, and all results in one step
(43_controller.md rule R230). -/
def State.measured (s : State) (raw : Raw) : State :=
  let tf := compTFine s.params.num s.cal (dataRawT raw)
  { s with
    tfine := tf
    tfineValid := true
    temp := tempOfFine s.params.num tf
    pres := toHPa s.params.num (compP s.params.num s.cal (dataRawP raw) tf)
    measValid := true
    rawT := dataRawT raw
    rawP := dataRawP raw }

/-- Steps U5 to U7 (43_controller.md rules R229, R230). -/
def dataRead (s : State) : Progress :=
  memRead s (RegId.data.base s.params) 6 fun s raw => .returned (s.measured raw)

/-- The steps of `Update()` that belong to its implicit setup (step U1): where the setup returns,
step U2 follows in the same step. -/
def updateSetup (s : State) : Progress :=
  match setupStep s with
  | .ends s' => .ends s'
  | .returned s' => .ends (updateStart s')
  | .stray => .stray

/-- One atomic step of `Update()` (43_controller.md rule R226). -/
def updateStep (s : State) : Progress :=
  match s.seq with
  | .run .triggerRead => triggerRead s
  | .run (.triggerWrite v) => triggerWrite s v
  | .run .poll => pollStep s
  | .run .dataRead => dataRead s
  | .idle => updateSetup s
  | .run .decode => updateSetup s
  | .run (.setupChipId _) => updateSetup s
  | .run (.setupCtrlRead _) => updateSetup s
  | .run (.setupCtrlWrite _ _) => updateSetup s
  | .run (.setupConfigRead _) => updateSetup s
  | .run (.setupConfigWrite _ _) => updateSetup s
  | .run (.setupCal _) => updateSetup s
  | .run .regRead => .stray
  | .run .regWrite => .stray
  | .run .fieldRead => .stray
  | .run (.fieldModify _) => .stray
  | .run (.fieldWriteBack _) => .stray

end Sys2Proof.Machine
end

