-- ==== Sys2Proof/Machine/Controller.lean ====
section
/-!
DEFINITION. The controller's commands: setup, the update cycle and the getters
(43_controller.md rules R221, R226, R231 to R233).
-/

namespace Sys2Proof.Machine

/-- `SETUP` is `Setup(); finish` (43_controller.md rule R221). -/
def execSetup (s : State) : Host.Outcome State Fault Refusal := (setupStep s).complete id

/-- `UPDATE` is `Update(); finish` (43_controller.md rule R226). -/
def execUpdate (s : State) : Host.Outcome State Fault Refusal := (updateStep s).complete id

/-- `RES <- TEMP` (43_controller.md rule R231 step 2). -/
def State.resTemp (s : State) : State := { s with res := s.temp }

/-- `GET_TEMPERATURE` (43_controller.md rule R231). -/
def execGetTemperature (s : State) : Host.Outcome State Fault Refusal :=
  (updateStep s).complete State.resTemp

/-- `RES <- PRES` (43_controller.md rule R232 step 2). -/
def State.resPres (s : State) : State := { s with res := s.pres }

/-- `GET_PRESSURE` (43_controller.md rule R232). -/
def execGetPressure (s : State) : Host.Outcome State Fault Refusal :=
  (updateStep s).complete State.resPres

/-- Steps 2 to 5 of `GET_ALTITUDE` (43_controller.md rule R233). -/
def State.resAlt (manual : Bool) (s : State) : State :=
  let t := if manual then s.manualOperand else s.temp
  let a := altitude s.params.num s.qnhOperand s.pres t
  { s with alt := a, altValid := true, res := a }

/-- `GET_ALTITUDE [manual]` (43_controller.md rule R233). -/
def execGetAltitude (manual : Bool) (s : State) : Host.Outcome State Fault Refusal :=
  (updateStep s).complete (State.resAlt manual)

end Sys2Proof.Machine
end

