-- ==== Sys2Proof/Machine/Transport.lean ====
section
/-!
DEFINITION. The device transport: address selection and raw register access
(41_transport.md rules R155, R160, R161).
-/

namespace Sys2Proof.Machine

/-- `SELECT_ADDRESS A7` (41_transport.md rule R155). -/
def selectStep (a7 : Addr7) (s : State) : Progress :=
  if s.params.candidate a7 then
    if s.addrSel = true then
      if s.selA7 = a7 then .returned s else .ends (s.raise .sequenceError)
    else .returned { s with addrSel := true, selA7 := a7 }
  else .ends (s.raise .illegalCommand)

/-- `SELECT_ADDRESS`: a command of one step. -/
def execSelectAddress (a7 : Addr7) (s : State) : Host.Outcome State Fault Refusal :=
  match s.seq with
  | .idle => (selectStep a7 s).complete id
  | .run .decode => (selectStep a7 s).complete id
  | .run _ => Progress.stray.complete id

/-- Steps 1 and 2 of `REG_READ` (41_transport.md rule R160). -/
def regReadStart (s : State) : Progress :=
  if s.addrSel = true then .ends (s.goto .regRead) else .ends (s.raise .sequenceError)

/-- One atomic step of `REG_READ` (41_transport.md rule R160). -/
def regReadStep (reg : BitVec 3) (s : State) : Progress :=
  match regAt reg with
  | none => .ends (s.raise .illegalCommand)
  | some r =>
    match s.seq with
    | .idle => regReadStart s
    | .run .decode => regReadStart s
    | .run .regRead =>
      memRead s (r.base s.params) r.bytes fun s raw => .returned { s with rdata := raw }
    | .run _ => .stray

/-- `REG_READ REG`. -/
def execRegRead (reg : BitVec 3) (s : State) : Host.Outcome State Fault Refusal :=
  (regReadStep reg s).complete id

/-- Steps 2 to 5 of `REG_WRITE` (41_transport.md rule R161). -/
def regWriteStart (r : RegId) (s : State) : Progress :=
  if s.addrSel = true then
    if r.writable then
      if s.larg0.toNat < 2 ^ r.width then .ends (s.goto .regWrite)
      else .ends (s.raise .fieldOverflow)
    else .ends (s.raise .readOnly)
  else .ends (s.raise .sequenceError)

/-- One atomic step of `REG_WRITE` (41_transport.md rule R161). -/
def regWriteStep (reg : BitVec 3) (s : State) : Progress :=
  match regAt reg with
  | none => .ends (s.raise .illegalCommand)
  | some r =>
    match s.seq with
    | .idle => regWriteStart r s
    | .run .decode => regWriteStart r s
    | .run .regWrite =>
      memWrite s (r.base s.params) (bytesOf r.bytes (s.larg0.setWidth 192)) fun s => .returned s
    | .run _ => .stray

/-- `REG_WRITE REG`. -/
def execRegWrite (reg : BitVec 3) (s : State) : Host.Outcome State Fault Refusal :=
  (regWriteStep reg s).complete id

end Sys2Proof.Machine
end

