-- ==== Sys2Proof/Machine/Dispatch.lean ====
section
/-!
DEFINITION. One atomic step of each command: one arm per constructor, one direct call of its meaning.
-/

namespace Sys2Proof.Machine

def exec (i : Instr) (s : State) : Host.Outcome State Fault Refusal :=
  match i with
  | .selectAddress a7 => Sys2Proof.Machine.execSelectAddress a7 s
  | .regRead reg => Sys2Proof.Machine.execRegRead reg s
  | .regWrite reg => Sys2Proof.Machine.execRegWrite reg s
  | .fieldRead fld => Sys2Proof.Machine.execFieldRead fld s
  | .fieldWrite fld => Sys2Proof.Machine.execFieldWrite fld s
  | .setup => Sys2Proof.Machine.execSetup s
  | .update => Sys2Proof.Machine.execUpdate s
  | .getTemperature => Sys2Proof.Machine.execGetTemperature s
  | .getPressure => Sys2Proof.Machine.execGetPressure s
  | .getAltitude manual => Sys2Proof.Machine.execGetAltitude manual s
  | .compT => Sys2Proof.Machine.execCompT s
  | .compP => Sys2Proof.Machine.execCompP s

end Sys2Proof.Machine
end

