-- ==== Sys2Proof/Machine/HostPort.lean ====
section
/-!
DEFINITION. The host's side: which move comes next, what each access does, and the pseudo-operations
(20_memory.md rules R61, R62, R65; 30_encoding.md rules R100, R101; 60_exceptions.md rules R260,
R277).
-/

namespace Sys2Proof.Machine

/-- What the next move of the machine is. -/
inductive Move where
  /-- The move is made and the sequencer does not act in it. -/
  | made (s : State)
  /-- The sequencer makes one atomic step of the command in `LCMD`. -/
  | command (s : State)
  /-- The host makes an access that the model gives no meaning. -/
  | refused (r : Refusal)
  deriving DecidableEq, Repr

/-- The sequencer's turn: it moves when a command runs, and an idle block does nothing
(60_exceptions.md rule R266). -/
def sequencerTurn (s : State) : Move := if s.busy then .command s else .made s

/-- Why an access is not admitted, none for an aligned 32-bit access (20_memory.md rules R61,
R62). -/
def accessRefusal (off : Byte) (width : AccessWidth) : Option Refusal :=
  match width with
  | .word => if off.toNat % 4 = 0 then none else some .hostAccessMisaligned
  | .byte => some .hostAccessWidth
  | .half => some .hostAccessWidth
  | .double => some .hostAccessWidth

/-- A host read: the register's value goes to the host, with no side effect on the block
(20_memory.md rule R65). -/
def hostRead (s : State) (off : Byte) : State :=
  { s with readLog := (off, s.readCsr off) :: s.readLog }

/-- A host write of a register other than `CMD` replaces its writable bits; a write of `CMD` starts
a command when the block is idle and is ignored when it is busy (10_state.md rule R22,
60_exceptions.md rule R260). -/
def hostWrite (s : State) (off : Byte) (v : Word) : Move :=
  if off = 0 then (if s.busy then .made s else .command (s.accept v))
  else .made (s.writeCsr off v)

/-- The next move, taken from the host's list: its head says who moves, and when the list is empty
the sequencer does (DESIGN CHOICE, safe: log 2). -/
def nextMove (s : State) : Move :=
  match s.host with
  | [] => sequencerTurn s
  | .pause :: rest => sequencerTurn { s with host := rest }
  | .waitIdle :: rest => if s.busy then .command s else .made { s with host := rest }
  | .reset :: rest => .made { s with host := rest }.blockReset
  | .csrr off width :: rest =>
    match accessRefusal off width with
    | some r => .refused r
    | none => .made (hostRead { s with host := rest } off)
  | .csrw off width v :: rest =>
    match accessRefusal off width with
    | some r => .refused r
    | none => hostWrite { s with host := rest } off v

/-- The byte offset of `CMD` (10_state.md rule R21). -/
def cmdOffset : Byte := 0x00

/-- The machine with the command word `w` as the host's next access to an idle block. -/
def State.withCommand (s : State) (w : Word) : State :=
  { s with host := .csrw cmdOffset .word w :: s.host, seq := .idle }

/-! ### Pseudo-operations (30_encoding.md rule R101) -/

/-- `csrw OFF, v` (30_encoding.md rule R100). -/
def csrwOp (off : Byte) (v : Word) : HostOp := .csrw off .word v

/-- `csrr OFF` (30_encoding.md rule R100). -/
def csrrOp (off : Byte) : HostOp := .csrr off .word

/-- `cmd TEXT`, for the word of the text. -/
def cmdOp (w : Word) : List HostOp := [csrwOp cmdOffset w, .waitIdle]

/-- `arg64 ARGLO, x`. -/
def arg64Op (lo : Byte) (x : F64) : List HostOp := [csrwOp lo (loWord x), csrwOp (lo + 4) (hiWord x)]

/-- `read64 NAME`, for the offset of `NAME_LO`. -/
def read64Op (lo : Byte) : List HostOp := [csrrOp lo, csrrOp (lo + 4)]

/-- `f64of({hi, lo})` (00_scope.md rule R9, 20_memory.md rule R64). -/
def f64OfWords (hi lo : Word) : F64 := hi ++ lo

/-- What `read64 NAME` returns, from the reads it made, newest first: the value of the two words,
none when the last two reads are not those of `NAME_LO` and `NAME_HI`. -/
def read64Value (lo : Byte) : List (Byte × Word) → Option F64
  | (offHi, wHi) :: (offLo, wLo) :: _ =>
    if offLo = lo ∧ offHi = lo + 4 then some (f64OfWords wHi wLo) else none
  | [_] => none
  | [] => none

/-- `set_session a7, mode, osrs_t, osrs_p, tsb_hms`. -/
def setSessionOp (a7 mode osrsT osrsP tsb : Word) : List HostOp :=
  [csrwOp 0x08 a7, csrwOp 0x0C (mode ||| (osrsT <<< 2) ||| (osrsP <<< 7) ||| (tsb <<< 12))]

end Sys2Proof.Machine
end

