-- ==== Sys2Proof/Machine/Step.lean ====
section
/-!
DEFINITION. One step of the machine: the next move, and where the sequencer moves, one atomic step
of the command in `LCMD` (10_state.md rules R40, R41; 60_exceptions.md rule R260).
-/

namespace Sys2Proof.Machine

/-- One atomic step of the command in `LCMD`: step A4 decodes it, an illegal word raises
`ILLEGAL_COMMAND`, and a legal one goes on with its command's rule (60_exceptions.md rules R260,
R262). -/
def runCommand (s : State) : Host.Outcome State Fault Refusal :=
  match decode s.lcmd with
  | .ok i => exec i s
  | .error _ => .next (s.raise .illegalCommand)

/-- One step of the machine. -/
def step (s : State) : Host.Outcome State Fault Refusal :=
  match nextMove s with
  | .made s' => .next s'
  | .command s' => runCommand s'
  | .refused r => .refused r

/-- `s` with the instruction whose bits are `w` as the next one to run. The block fetches no
instructions (20_memory.md rule R76): a command comes as the host's write of `CMD` to an idle block,
so the write is put first among the host's moves and the sequencer is idle (DESIGN CHOICE, safe: log
3). -/
def State.withFetchWord (s : State) (nbits w : Nat) : State := s.withCommand (tableWord nbits w)

end Sys2Proof.Machine
end

