-- ==== Sys2Proof/Machine/Exact.lean ====
section
/-!
DEFINITION. What the statements say of binary64 arithmetic (00_scope.md rule R9): the number a
pattern stands for, and when a pattern is a rounding of an exact rational, in each direction of
`NUM` (00_scope.md rule R6; DESIGN CHOICE, safe: log 8). Nothing here uses how Machine/Float.lean
computes.
-/

namespace Sys2Proof.Machine

/-- The number a finite pattern stands for, from its sign, exponent and fraction fields (the value
at an infinity or a NaN means nothing). -/
def ratOf (x : F64) : ℚ :=
  let ex := (x.extractLsb' 52 11).toNat
  let fr := (x.extractLsb' 0 52).toNat
  (if x.getLsbD 63 then -1 else 1) *
    (if ex = 0 then (fr : ℚ) * 2 ^ (-1074 : Int)
     else ((2 ^ 52 + fr : Nat) : ℚ) * 2 ^ ((ex : Int) - 1075))

/-- The infinity of a sign. -/
def infinity (neg : Bool) : F64 := if neg then 0xFFF0000000000000 else 0x7FF0000000000000

/-- The zero of a sign. -/
def signedZero (neg : Bool) : F64 := if neg then 0x8000000000000000 else 0

/-- `f` is the greatest number not above `v`, or `-inf` below them all. -/
def RoundsDown (v : ℚ) (f : F64) : Prop :=
  (isFinite f = true ∧ ratOf f ≤ v ∧
    ∀ g, isFinite g = true → ratOf g ≤ v → ratOf g ≤ ratOf f) ∨
  (f = infinity true ∧ ∀ g, isFinite g = true → v < ratOf g)

/-- `f` is the least number not below `v`, or `+inf` above them all. -/
def RoundsUp (v : ℚ) (f : F64) : Prop :=
  (isFinite f = true ∧ v ≤ ratOf f ∧
    ∀ g, isFinite g = true → v ≤ ratOf g → ratOf f ≤ ratOf g) ∨
  (f = infinity false ∧ ∀ g, isFinite g = true → ratOf g < v)

/-- `f` is the number nearest to `v`, and where another one, `g`, is as near, `tie f g` holds. From
half a unit in the last place above the greatest number on, it is the infinity. -/
def RoundsToNearest (tie : F64 → F64 → Prop) (v : ℚ) (f : F64) : Prop :=
  if |v| < 2 ^ 1024 - 2 ^ 970 then
    isFinite f = true ∧ ∀ g, isFinite g = true → ratOf g ≠ ratOf f →
      |ratOf f - v| < |ratOf g - v| ∨ (|ratOf f - v| = |ratOf g - v| ∧ tie f g)
  else f = infinity (decide (v < 0))

/-- `f` is the rounding of `v` in the direction `num`. A zero result has the sign of a `v` that is
not 0. -/
def RoundsTo (num : Rounding) (v : ℚ) (f : F64) : Prop :=
  (v ≠ 0 → f.getLsbD 63 = decide (v < 0)) ∧
  match num with
  | .nearestEven => RoundsToNearest (fun f _ => f.getLsbD 0 = false) v f
  | .nearestAway => RoundsToNearest (fun f g => |ratOf g| < |ratOf f|) v f
  | .towardZero => if 0 ≤ v then RoundsDown v f else RoundsUp v f
  | .towardPositive => RoundsUp v f
  | .towardNegative => RoundsDown v f

end Sys2Proof.Machine
end

