-- ==== Sys2Proof/Machine/Run.lean ====
section
/-!
DEFINITION. A run: block reset followed by a finite host program, its end and its end state
(60_exceptions.md rule R276).
-/

namespace Sys2Proof.Machine

/-- The move is no operation of the host: the sequencer may act in it (DESIGN CHOICE, safe: log
2). -/
def HostOp.isPause : HostOp → Bool
  | .pause => true
  | .csrr _ _ => false
  | .csrw _ _ _ => false
  | .waitIdle => false
  | .reset => false

/-- The start of a run: right after block reset, with the host's program to come, and with the
sensor's given answers. -/
def startRun (p : Params) (script : List Answer) (program : List HostOp) : State :=
  { State.resetWith p with script := script, host := program }

/-- The end of a run: "the host has issued its last operation and `seq = IDLE`". Whether the last
command ended in an error does not matter (60_exceptions.md rule R276). -/
def State.runOver (s : State) : Bool := s.host.all HostOp.isPause && !s.busy

/-- How far a run has come. -/
inductive RunStatus where
  /-- The run has ended, and `s` is its end state. -/
  | ended (s : State)
  /-- The run has not ended. -/
  | going (s : State)
  /-- A step met a fault. -/
  | fault (f : Fault)
  /-- The host made an access that has no meaning. -/
  | refused (r : Refusal)
  deriving DecidableEq, Repr

/-- The run from `s`, to its first end or for `k` steps (60_exceptions.md rule R276). -/
def runFor : Nat → State → RunStatus
  | 0, s => if s.runOver then .ended s else .going s
  | k + 1, s =>
    if s.runOver then .ended s
    else
      match step s with
      | .next t => runFor k t
      | .fault f => .fault f
      | .refused r => .refused r

end Sys2Proof.Machine
end

