-- ==== Sys2Proof/Safety.lean ====
section
/-!
DEFINITION. What holds of the block in every run, in the terms the statements use: the invariants of
10_state.md rule R44 and what they rest on, the flags of rule R39, and which steps a command has.
-/

namespace Sys2Proof.Machine

/-- The sequencer is inside `Setup()`. -/
def Phase.inSetup : Phase → Bool
  | .setupChipId _ => true
  | .setupCtrlRead _ => true
  | .setupCtrlWrite _ _ => true
  | .setupConfigRead _ => true
  | .setupConfigWrite _ _ => true
  | .setupCal _ => true
  | .decode => false
  | .regRead => false
  | .regWrite => false
  | .fieldRead => false
  | .fieldModify _ => false
  | .fieldWriteBack _ => false
  | .triggerRead => false
  | .triggerWrite _ => false
  | .poll => false
  | .dataRead => false

/-- The sequencer is inside `Update()`, past its implicit setup. -/
def Phase.inUpdate : Phase → Bool
  | .triggerRead => true
  | .triggerWrite _ => true
  | .poll => true
  | .dataRead => true
  | .decode => false
  | .regRead => false
  | .regWrite => false
  | .fieldRead => false
  | .fieldModify _ => false
  | .fieldWriteBack _ => false
  | .setupChipId _ => false
  | .setupCtrlRead _ => false
  | .setupCtrlWrite _ _ => false
  | .setupConfigRead _ => false
  | .setupConfigWrite _ _ => false
  | .setupCal _ => false

/-- The command runs `Update()`. -/
def measures : Instr → Bool
  | .update => true
  | .getTemperature => true
  | .getPressure => true
  | .getAltitude _ => true
  | .selectAddress _ => false
  | .regRead _ => false
  | .regWrite _ => false
  | .fieldRead _ => false
  | .fieldWrite _ => false
  | .setup => false
  | .compT => false
  | .compP => false

/-- The step `p` is one of the steps of the command `i` (10_state.md rule R40). -/
def fits (i : Instr) (p : Phase) : Bool :=
  match p with
  | .decode => true
  | .regRead => match i with | .regRead _ => true | _ => false
  | .regWrite => match i with | .regWrite _ => true | _ => false
  | .fieldRead => match i with | .fieldRead _ => true | _ => false
  | .fieldModify _ => match i with | .fieldWrite _ => true | _ => false
  | .fieldWriteBack _ => match i with | .fieldWrite _ => true | _ => false
  | .setupChipId _ => decide (i = .setup) || measures i
  | .setupCtrlRead _ => decide (i = .setup) || measures i
  | .setupCtrlWrite _ _ => decide (i = .setup) || measures i
  | .setupConfigRead _ => decide (i = .setup) || measures i
  | .setupConfigWrite _ _ => decide (i = .setup) || measures i
  | .setupCal _ => decide (i = .setup) || measures i
  | .triggerRead => measures i
  | .triggerWrite _ => measures i
  | .poll => measures i
  | .dataRead => measures i

/-- `seq` names a step of the command in `LCMD`. -/
def State.OnStep (s : State) : Prop :=
  ∀ p, s.seq = .run p → p ≠ .decode → ∃ i, decode s.lcmd = .ok i ∧ fits i p = true

/-- The invariants of 10_state.md rule R44, with what keeps them: where the sequencer can be in each
session state, and that a selected address is a candidate (41_transport.md rule R155). -/
structure State.SessionInv (s : State) : Prop where
  /-- "`CAL_VALID = 1` exactly when `SSTATE != UNINITIALIZED`". -/
  calValid_iff : s.calValid = true ↔ s.sstate ≠ .uninitialized
  /-- "`SSTATE != UNINITIALIZED` implies `ADDR_SEL = 1`". -/
  selected : s.sstate ≠ .uninitialized → s.addrSel = true
  /-- "`MEAS_VALID = 1` implies `TFINE_VALID = 1`". -/
  carry_of_meas : s.measValid = true → s.tfineValid = true
  /-- "`TFINE_VALID = 1` implies `CAL_VALID = 1`". -/
  cal_of_carry : s.tfineValid = true → s.calValid = true
  /-- An altitude needs a measurement. -/
  meas_of_alt : s.altValid = true → s.measValid = true
  /-- "`SSTATE = CONVERTING` implies `BUSY = 1`", and it is the poll. -/
  converting_iff : s.sstate = .converting ↔ s.seq = .run .poll
  /-- "`SMODE = 0` while `SSTATE = UNINITIALIZED`". -/
  sleep_of_uninitialized : s.sstate = .uninitialized → s.smode = .sleep
  /-- A setup's transactions happen before the session exists, with an address selected. -/
  in_setup : ∀ p, s.seq = .run p → p.inSetup = true →
    s.sstate = .uninitialized ∧ s.addrSel = true
  /-- An update's transactions happen in a session. -/
  in_update : ∀ p, s.seq = .run p → p.inUpdate = true → s.sstate ≠ .uninitialized
  /-- Every transaction comes after the selection (41_transport.md rule R156). -/
  bus_selected : ∀ p, s.seq = .run p → p ≠ .decode → s.addrSel = true
  /-- `SEL_A7` is 0 before the selection. -/
  unselected : s.addrSel = false → s.selA7 = 0
  /-- The selected address is one of `ADDR_CANDIDATES`. -/
  candidate : s.addrSel = true → s.params.candidate s.selA7 = true

/-- The flags of 10_state.md rule R39 and the error record agree. -/
structure State.StatusInv (s : State) : Prop where
  /-- `ERR` tells whether there is an error code. -/
  err_iff : s.err = s.errcode.isSome
  /-- A command that ended in an error has ended. -/
  done_of_err : s.err = true → s.done = true
  /-- Acceptance clears `DONE`, `ERR` and `ERRCODE`, and they stay clear until the end. -/
  busy_clear : s.busy = true → s.done = false ∧ s.errcode = none
  /-- `ERRINFO` is 0 unless the last command ended in an error (10_state.md rule R27). -/
  errinfo_clear : s.errcode = none → s.errinfo = 0
  /-- A programming error has set the sticky flag (60_exceptions.md rule R265). -/
  perr_of_code : ∀ e, s.errcode = some e → e.setsPerr = true → s.perr = true

/-- The invariant of the block. -/
structure State.Inv (s : State) : Prop where
  session : s.SessionInv
  status : s.StatusInv
  onStep : s.OnStep

/-- The host's next move is block reset. -/
def State.resetNext (s : State) : Bool :=
  match s.host with
  | .reset :: _ => true
  | _ => false

/-- The run from `s` ends, in the end state `e` (60_exceptions.md rule R276). -/
def State.EndsIn (s e : State) : Prop := ∃ k, runFor k s = .ended e

/-- The run from `s` is a hang: it never ends (60_exceptions.md rule R276). -/
def State.Hangs (s : State) : Prop := ∀ k, ∃ t, runFor k s = .going t

/-- The registers only the host and acceptance write, the model's own fields apart from the
sensor's, and the latched snapshot are the same in both states. -/
structure State.SameHostSide (s t : State) : Prop where
  saddr : t.saddr = s.saddr
  scfg : t.scfg = s.scfg
  arg0 : t.arg0 = s.arg0
  arg1 : t.arg1 = s.arg1
  arg2 : t.arg2 = s.arg2
  arg3 : t.arg3 = s.arg3
  lcmd : t.lcmd = s.lcmd
  larg0 : t.larg0 = s.larg0
  larg1 : t.larg1 = s.larg1
  larg2 : t.larg2 = s.larg2
  larg3 : t.larg3 = s.larg3
  lsaddr : t.lsaddr = s.lsaddr
  lscfg : t.lscfg = s.lscfg
  params : t.params = s.params
  host : t.host = s.host
  readLog : t.readLog = s.readLog

/-- The session and the calibration store are the same in both states. -/
structure State.SameSession (s t : State) : Prop where
  sstate : t.sstate = s.sstate
  smode : t.smode = s.smode
  cal : t.cal = s.cal
  calValid : t.calValid = s.calValid

/-- The selected address is the same in both states. -/
structure State.SameSelection (s t : State) : Prop where
  addrSel : t.addrSel = s.addrSel
  selA7 : t.selA7 = s.selA7

/-- The carry, the measurement store, the raw counts, the poll count and the result are the same in
both states. -/
structure State.SameResults (s t : State) : Prop where
  tfine : t.tfine = s.tfine
  tfineValid : t.tfineValid = s.tfineValid
  temp : t.temp = s.temp
  pres : t.pres = s.pres
  measValid : t.measValid = s.measValid
  alt : t.alt = s.alt
  altValid : t.altValid = s.altValid
  res : t.res = s.res
  rawT : t.rawT = s.rawT
  rawP : t.rawP = s.rawP
  pollcnt : t.pollcnt = s.pollcnt

/-- No transaction was made between the two states. -/
structure State.SameBus (s t : State) : Prop where
  history : t.history = s.history
  script : t.script = s.script
  answered : t.answered = s.answered

end Sys2Proof.Machine
end

