-- ==== Sys2Proof/Certificates/Slice0/Obligations.lean ====
section
/-!
DEFINITION. The statements about the model, each from numbered rules of the spec. A hypothesis
`s.seq = .run .decode` says that a command is in its first atomic step (60_exceptions.md rule R260);
`readAnswer` and `writeAnswer` give the sensor's answer to a transaction, whichever it is
(41_transport.md rule R152), and `State.record` puts it into the bus history (rule R151).
-/

open Sys2Proof Sys2Proof.Machine

/-! ### Encoding -/

/-- 30_encoding.md rules R94 and R99: decoding the word of a well-formed command gives the command
back, at every operand. -/
def Obligations.EncodeThenDecode : Prop :=
  ∀ i : Instr, i.wf = true → decode (encode i) = .ok i

/-- 30_encoding.md rules R94, R95, R97: a legal word is the encoding of the command it decodes to,
so no bit of a word is dropped, and that command is well formed. -/
def Obligations.DecodeThenEncode : Prop :=
  ∀ (w : Word) (i : Instr), decode w = .ok i → encode i = w ∧ i.wf = true

/-- 30_encoding.md rule R94: "The rows are pairwise disjoint, so at most one matches." -/
def Obligations.OpcodeRowsAreDisjoint : Prop :=
  ∀ (w : Word) (a b : Opcode), a.selects w = true → b.selects w = true → a = b

/-- 30_encoding.md rule R99 and 95_test_vectors.md V-E1 to V-E19: one word of every command. -/
def Obligations.SpecWordsDecode : Prop :=
  decode 0x01000076 = .ok (.selectAddress 0x76) ∧
  decode 0x02000004 = .ok (.regRead 4) ∧
  decode 0x03000002 = .ok (.regWrite 2) ∧
  decode 0x04000016 = .ok (.fieldRead 22) ∧
  decode 0x05000007 = .ok (.fieldWrite 7) ∧
  decode 0x10000000 = .ok .setup ∧
  decode 0x11000000 = .ok .update ∧
  decode 0x12000000 = .ok .getTemperature ∧
  decode 0x13000000 = .ok .getPressure ∧
  decode 0x14000000 = .ok (.getAltitude false) ∧
  decode 0x14000001 = .ok (.getAltitude true) ∧
  decode 0x21000000 = .ok .compT ∧
  decode 0x22000000 = .ok .compP

/-- 30_encoding.md rule R95 and 60_exceptions.md rule R262: a word is illegal exactly when no row
matches it, or its row's operand names no table entry; written to `CMD` of an idle block it raises
`ILLEGAL_COMMAND` in that step with no other effect than the acceptance and end-of-command writes.
The operand checks of the command rules never fire after a successful decode. -/
def Obligations.IllegalWordRaisesIllegalCommand : Prop :=
  (∀ w : Word, (∃ e, decode w = .error e) ↔
    ((∀ op : Opcode, op.selects w = false) ∨
     ((Opcode.regRead.selects w = true ∨ Opcode.regWrite.selects w = true) ∧
       5 < (w.extractLsb' 0 3).toNat) ∨
     ((Opcode.fieldRead.selects w = true ∨ Opcode.fieldWrite.selects w = true) ∧
       22 < (w.extractLsb' 0 5).toNat))) ∧
  (∀ (w : Word) (i : Instr), decode w = .ok i → i.wf = true) ∧
  (∀ (s : State) (w : Word) (e : DecodeError) (rest : List HostOp),
    s.host = .csrw 0x00 .word w :: rest → s.seq = .idle → decode w = .error e →
    step s = .next
      { s with
        host := rest
        lcmd := w, larg0 := s.arg0, larg1 := s.arg1, larg2 := s.arg2, larg3 := s.arg3
        lsaddr := s.saddr, lscfg := s.scfg
        done := true, err := true, errcode := some .illegalCommand, perr := true
        errinfo := w.extractLsb' 24 8 ++ (0 : BitVec 24)
        seq := .idle })

/-! ### Steps and the host's side -/

/-- 60_exceptions.md rule R260: a legal word written to `CMD` of an idle block is accepted, and the
command's first atomic step runs in the same step of the machine, on the state that acceptance
leaves (that the write is the head of the host's list is the model's, log 2). -/
def Obligations.StepRunsTheWrittenCommand : Prop :=
  ∀ (s : State) (w : Word) (i : Instr) (rest : List HostOp),
    s.host = .csrw 0x00 .word w :: rest → s.seq = .idle → decode w = .ok i →
    step s = exec i
      { s with
        host := rest
        lcmd := w, larg0 := s.arg0, larg1 := s.arg1, larg2 := s.arg2, larg3 := s.arg3
        lsaddr := s.saddr, lscfg := s.scfg
        done := false, err := false, errcode := none, errinfo := 0
        seq := .run .decode }

/-- 10_state.md rules R40, R41: while a command runs and no host access comes first, a step of the
machine is the next atomic step of the command in `LCMD`; 60_exceptions.md rule R266: an idle block
without a host access stays as it is (the host's list is the model's, log 2). -/
def Obligations.StepRunsTheNextAtomicStep : Prop :=
  (∀ (s : State) (p : Phase) (i : Instr), s.seq = .run p → decode s.lcmd = .ok i →
    (s.host = [] → step s = exec i s) ∧
    (∀ rest, s.host = .pause :: rest → step s = exec i { s with host := rest }) ∧
    (∀ rest, s.host = .waitIdle :: rest → step s = exec i s)) ∧
  (∀ s : State, s.seq = .idle →
    (s.host = [] → step s = .next s) ∧
    (∀ rest, s.host = .pause :: rest ∨ s.host = .waitIdle :: rest →
      step s = .next { s with host := rest }))

/-- 10_state.md rule R22: `CMD` starts a command when idle, is ignored when busy, and reads 0; the
accepted word is latched into `LCMD`. -/
def Obligations.CommandRegister : Prop :=
  ∀ (s : State) (w : Word) (rest : List HostOp), s.host = .csrw 0x00 .word w :: rest →
    (s.status.getLsbD 0 = false → step s = runCommand ({ s with host := rest }.accept w) ∧
      ({ s with host := rest }.accept w).lcmd = w) ∧
    (s.status.getLsbD 0 = true → step s = .next { s with host := rest }) ∧
    s.readCsr 0x00 = 0

/-- 20_memory.md rule R62 and 60_exceptions.md rule R270: an access of another width or at an offset
that is no multiple of 4 is refused, and nothing else is. -/
def Obligations.OnlyUnadmittedAccessesAreRefused : Prop :=
  (∀ (s : State) (off : Byte) (width : AccessWidth) (rest : List HostOp),
    (s.host = .csrr off width :: rest ∨ ∃ v, s.host = .csrw off width v :: rest) →
    (width ≠ .word → step s = .refused .hostAccessWidth) ∧
    (width = .word → off.toNat % 4 ≠ 0 → step s = .refused .hostAccessMisaligned)) ∧
  (∀ (s : State) (r : Refusal), step s = .refused r →
    ∃ (off : Byte) (width : AccessWidth) (rest : List HostOp),
      (s.host = .csrr off width :: rest ∨ ∃ v, s.host = .csrw off width v :: rest) ∧
      (width ≠ .word ∨ off.toNat % 4 ≠ 0))

/-- 20_memory.md rules R61 and R65: an admitted read returns the register's value and has no effect on
the block, whatever runs (that the value is recorded in `readLog` is the model's, log 16).
30_encoding.md rule R101: the two reads of `read64` return the binary64 value of the pair, here of
each result register, in a state that does not change between them. -/
def Obligations.HostReadHasNoSideEffect : Prop :=
  (∀ (s : State) (off : Byte) (rest : List HostOp), off.toNat % 4 = 0 →
    s.host = .csrr off .word :: rest →
    step s = .next { s with host := rest, readLog := (off, s.readCsr off) :: s.readLog }) ∧
  (∀ (s : State) (lo : Byte) (x : F64) (rest : List HostOp),
    (lo, x) ∈ [((0x48 : Byte), s.temp), (0x50, s.pres), (0x58, s.alt), (0x60, s.res),
      (0x68, s.tfine)] →
    s.host = read64Op lo ++ rest →
    ∃ t, Host.Core.run Sys2Proof.core 2 s = .next t ∧ read64Value lo t.readLog = some x ∧
      t = { s with host := rest, readLog := t.readLog })

/-- 10_state.md rules R21, R24, R25, R26 and R40: a host write replaces the writable bits of `SADDR`,
`SCFG` and `ARG0..ARG3` and nothing else, also while a command runs, and reads back with the
reserved bits 0. -/
def Obligations.HostWriteStoresTheWritableBits : Prop :=
  ∀ (s : State) (v : Word) (rest : List HostOp),
    (s.host = .csrw 0x08 .word v :: rest → ∃ t, step s = .next t ∧
      t = { s with host := rest, saddr := v.extractLsb' 0 7 } ∧
      t.readCsr 0x08 = v &&& 0x0000007F) ∧
    (s.host = .csrw 0x0C .word v :: rest → ∃ t, step s = .next t ∧
      t = { s with host := rest, scfg := v.extractLsb' 0 25 } ∧
      t.readCsr 0x0C = v &&& 0x01FFFFFF) ∧
    (s.host = .csrw 0x10 .word v :: rest → ∃ t, step s = .next t ∧
      t = { s with host := rest, arg0 := v } ∧ t.readCsr 0x10 = v) ∧
    (s.host = .csrw 0x14 .word v :: rest → ∃ t, step s = .next t ∧
      t = { s with host := rest, arg1 := v } ∧ t.readCsr 0x14 = v) ∧
    (s.host = .csrw 0x18 .word v :: rest → ∃ t, step s = .next t ∧
      t = { s with host := rest, arg2 := v } ∧ t.readCsr 0x18 = v) ∧
    (s.host = .csrw 0x1C .word v :: rest → ∃ t, step s = .next t ∧
      t = { s with host := rest, arg3 := v } ∧ t.readCsr 0x1C = v)

/-- 10_state.md rules R21 and R34: `STATUS`, every register from `ERRINFO` on and every reserved
offset ignore writes, and offsets from 0xA0 on read 0. Offset 0 is `CMD` and offsets 0x08 to 0x1C
are the writable registers. -/
def Obligations.OtherOffsetsIgnoreWrites : Prop :=
  (∀ (s : State) (off : Byte) (v : Word) (rest : List HostOp), off.toNat % 4 = 0 →
    (off.toNat = 0x04 ∨ 0x20 ≤ off.toNat) → s.host = .csrw off .word v :: rest →
    step s = .next { s with host := rest }) ∧
  (∀ (s : State) (off : Byte), 0xA0 ≤ off.toNat → s.readCsr off = 0)

/-- 10_state.md rule R23: the fields of `STATUS`, with the numbers of rules R23 and R35 and of
60_exceptions.md rule R261 for `SSTATE`, `SMODE` and `ERRCODE`, with `SEL_A7` shown as 0 before the
selection and `SMODE` as 0 before the session exists (log 12). -/
def Obligations.StatusFields : Prop :=
  ∀ s : State,
    (s.status.getLsbD 0 = true ↔ s.seq ≠ .idle) ∧
    s.status.getLsbD 1 = s.done ∧
    s.status.getLsbD 2 = s.err ∧
    s.status.getLsbD 3 = s.perr ∧
    (s.errcode = none → s.status.extractLsb' 4 4 = 0) ∧
    (∀ e n, s.errcode = some e → (e, n) ∈
      [(Err.busError, (1 : BitVec 4)), (.unsupportedChip, 2), (.unknownSymbol, 3),
       (.fieldOverflow, 4), (.conversionTimeout, 5), (.illegalCommand, 6), (.sequenceError, 7),
       (.readOnly, 8)] → s.status.extractLsb' 4 4 = n) ∧
    (s.sstate = .uninitialized → s.status.extractLsb' 8 2 = 0) ∧
    (s.sstate = .idle → s.status.extractLsb' 8 2 = 1) ∧
    (s.sstate = .converting → s.status.extractLsb' 8 2 = 2) ∧
    s.status.getLsbD 10 = s.addrSel ∧
    s.status.getLsbD 11 = s.calValid ∧
    s.status.getLsbD 12 = s.tfineValid ∧
    s.status.getLsbD 13 = s.measValid ∧
    s.status.getLsbD 14 = s.altValid ∧
    s.status.getLsbD 15 = false ∧
    s.status.extractLsb' 16 7 = (if s.addrSel then s.selA7 else 0) ∧
    s.status.getLsbD 23 = false ∧
    (s.sstate = .uninitialized → s.status.extractLsb' 24 2 = 0) ∧
    (s.sstate ≠ .uninitialized →
      (s.smode = .sleep → s.status.extractLsb' 24 2 = 0) ∧
      (s.smode = .forced → s.status.extractLsb' 24 2 = 1) ∧
      (s.smode = .normal → s.status.extractLsb' 24 2 = 2)) ∧
    s.status.extractLsb' 26 6 = 0 ∧
    s.readCsr 0x04 = s.status

/-- 10_state.md rules R27 to R33 and 20_memory.md rule R64: the read-only registers are views of the
state: a binary64 pair has its low word at the lower offset, `RDATAi` is bits 32i+31 to 32i, and
`CALk` is zero-extended for k = 0 and 3 and sign-extended otherwise. -/
def Obligations.ResultRegistersShowTheState : Prop :=
  ∀ s : State,
    s.readCsr 0x4C ++ s.readCsr 0x48 = s.temp ∧
    s.readCsr 0x54 ++ s.readCsr 0x50 = s.pres ∧
    s.readCsr 0x5C ++ s.readCsr 0x58 = s.alt ∧
    s.readCsr 0x64 ++ s.readCsr 0x60 = s.res ∧
    s.readCsr 0x6C ++ s.readCsr 0x68 = s.tfine ∧
    s.readCsr 0x44 ++ s.readCsr 0x40 ++ s.readCsr 0x3C ++ s.readCsr 0x38 ++ s.readCsr 0x34 ++
      s.readCsr 0x30 = s.rdata ∧
    s.readCsr 0x20 = s.errinfo ∧
    (s.pollcnt < 2 ^ 32 → (s.readCsr 0x24).toNat = s.pollcnt) ∧
    (s.readCsr 0x28).toNat = s.rawT.toNat ∧
    (s.readCsr 0x2C).toNat = s.rawP.toNat ∧
    (s.readCsr 0x70).toNat = s.cal.t1.toNat ∧
    (s.readCsr 0x74).toInt = s.cal.t2.toInt ∧
    (s.readCsr 0x78).toInt = s.cal.t3.toInt ∧
    (s.readCsr 0x7C).toNat = s.cal.p1.toNat ∧
    (s.readCsr 0x80).toInt = s.cal.p2.toInt ∧
    (s.readCsr 0x84).toInt = s.cal.p3.toInt ∧
    (s.readCsr 0x88).toInt = s.cal.p4.toInt ∧
    (s.readCsr 0x8C).toInt = s.cal.p5.toInt ∧
    (s.readCsr 0x90).toInt = s.cal.p6.toInt ∧
    (s.readCsr 0x94).toInt = s.cal.p7.toInt ∧
    (s.readCsr 0x98).toInt = s.cal.p8.toInt ∧
    (s.readCsr 0x9C).toInt = s.cal.p9.toInt

/-! ### Reset and the ends of a command -/

/-- 70_reset_and_hazards.md rule R291: the value of every state element after reset, with the default
parameters of `SADDR` and `SCFG` (which the spec takes from general knowledge, log 7); and the other
default parameters of 00_scope.md rule R6 and 40_register_map_codec.md rules R121 and R127, which
`State.reset` carries (logs 6, 7, 8). -/
def Obligations.ResetValues : Prop :=
  State.reset.seq = .idle ∧
  State.reset.lcmd = 0 ∧ State.reset.larg0 = 0 ∧ State.reset.larg1 = 0 ∧
  State.reset.larg2 = 0 ∧ State.reset.larg3 = 0 ∧ State.reset.lsaddr = 0 ∧
  State.reset.lscfg = 0 ∧
  State.reset.done = false ∧ State.reset.err = false ∧ State.reset.errcode = none ∧
  State.reset.perr = false ∧
  State.reset.sstate = .uninitialized ∧
  State.reset.addrSel = false ∧ State.reset.selA7 = 0 ∧
  State.reset.smode = .sleep ∧
  State.reset.cal = ⟨0, 0, 0, 0, 0, 0, 0, 0, 0, 0, 0, 0⟩ ∧
  (∀ k < 12, State.reset.readCsr (BitVec.ofNat 8 (0x70 + 4 * k)) = 0) ∧
  State.reset.calValid = false ∧
  State.reset.tfine = 0 ∧ State.reset.tfineValid = false ∧
  State.reset.temp = 0 ∧ State.reset.pres = 0 ∧ State.reset.alt = 0 ∧ State.reset.res = 0 ∧
  State.reset.measValid = false ∧ State.reset.altValid = false ∧
  State.reset.arg0 = 0 ∧ State.reset.arg1 = 0 ∧ State.reset.arg2 = 0 ∧ State.reset.arg3 = 0 ∧
  State.reset.readCsr 0x08 = 0x00000076 ∧ State.reset.readCsr 0x0C = 0x003E8842 ∧
  State.reset.errinfo = 0 ∧ State.reset.pollcnt = 0 ∧ State.reset.rawT = 0 ∧
  State.reset.rawP = 0 ∧ State.reset.rdata = 0 ∧
  State.reset.history = [] ∧
  State.reset.status = 0x00000000 ∧
  State.reset.params.a0 = 0x76 ∧ State.reset.params.a1 = 0x77 ∧
  chipIdPrimary = 0x58 ∧ State.reset.params.chipIdAlt = 0x60 ∧
  State.reset.params.coeffOrder = .lsbFirst ∧ State.reset.params.num = .nearestEven ∧
  State.reset.params.sreg.chipId = 0xD0 ∧ State.reset.params.sreg.status = 0xF3 ∧
  State.reset.params.sreg.ctrlMeas = 0xF4 ∧ State.reset.params.sreg.config = 0xF5 ∧
  State.reset.params.sreg.data = 0xF7 ∧ State.reset.params.sreg.calibration = 0x88 ∧
  Table.mode.rows State.reset.params.lookup = [(0, 0b00), (1, 0b10), (2, 0b11)] ∧
  Table.osrs.rows State.reset.params.lookup =
    [(1, 0b001), (2, 0b010), (4, 0b011), (8, 0b100), (16, 0b101)] ∧
  Table.tsb.rows State.reset.params.lookup =
    [(1, 0b000), (125, 0b001), (250, 0b010), (500, 0b011), (1000, 0b100), (2000, 0b101),
     (4000, 0b110), (8000, 0b111)]

/-- 70_reset_and_hazards.md rules R290 and R291: block reset, at any time, gives every element of the
block its reset value and makes no transaction; the parameters, the sensor's answers, the host's
moves and what it has read stay (log 18). -/
def Obligations.BlockResetClearsTheBlock : Prop :=
  ∀ (s : State) (rest : List HostOp), s.host = .reset :: rest →
    step s = .next
      { saddr := s.params.saddrReset, scfg := s.params.scfgReset
        arg0 := 0, arg1 := 0, arg2 := 0, arg3 := 0
        errinfo := 0, pollcnt := 0, rawT := 0, rawP := 0, rdata := 0
        temp := 0, pres := 0, alt := 0, res := 0, tfine := 0
        cal := Coeffs.zero, calValid := false, tfineValid := false, measValid := false
        altValid := false, done := false, err := false, perr := false, errcode := none
        sstate := .uninitialized, addrSel := false, selA7 := 0, smode := .sleep
        seq := .idle, lcmd := 0, larg0 := 0, larg1 := 0, larg2 := 0, larg3 := 0
        lsaddr := 0, lscfg := 0, history := []
        params := s.params, script := s.script, answered := s.answered
        host := rest, readLog := s.readLog }

/-- 60_exceptions.md rules R261, R264 and R265 and 10_state.md rule R27: what `finish` and `raise`
write, and nothing else; the codes, which of them set `PERR`, and the fields of `ERRINFO`. -/
def Obligations.EndsOfACommand : Prop :=
  (∀ s : State, s.finish = { s with done := true, err := false, errcode := none, seq := .idle }) ∧
  (∀ (s : State) (e : Err) (x : Option ErrXfer) (data : Byte), ∃ info : Word,
    s.raiseWith e x data =
      { s with
        errinfo := info, errcode := some e, err := true, done := true
        perr := s.perr || e.setsPerr, seq := .idle } ∧
    info.extractLsb' 24 8 = s.lcmd.extractLsb' 24 8 ∧
    info.extractLsb' 16 8 = data ∧
    info.extractLsb' 10 6 = 0 ∧
    (x = none → info.extractLsb' 0 10 = 0) ∧
    (∀ r, x = some r →
      info.getLsbD 9 = true ∧ info.getLsbD 8 = r.dir ∧ info.extractLsb' 0 8 = r.sreg)) ∧
  (Err.busError.code = 1 ∧ Err.unsupportedChip.code = 2 ∧ Err.unknownSymbol.code = 3 ∧
   Err.fieldOverflow.code = 4 ∧ Err.conversionTimeout.code = 5 ∧ Err.illegalCommand.code = 6 ∧
   Err.sequenceError.code = 7 ∧ Err.readOnly.code = 8) ∧
  (∀ e : Err, e.setsPerr = true ↔ e = .illegalCommand ∨ e = .sequenceError ∨ e = .readOnly)

/-! ### Transport commands -/

/-- 41_transport.md rule R155: `SELECT_ADDRESS` completes in its first step: an address that is no
candidate is `ILLEGAL_COMMAND`, the selected one again is a success with no effect, another one is
`SEQUENCE_ERROR`, and otherwise it is selected. -/
def Obligations.SelectAddressResult : Prop :=
  ∀ (s : State) (a7 : Addr7), s.seq = .run .decode →
    (a7 ≠ s.params.a0 → a7 ≠ s.params.a1 →
      exec (.selectAddress a7) s = .next (s.raise .illegalCommand)) ∧
    (a7 = s.params.a0 ∨ a7 = s.params.a1 →
      (s.addrSel = true → s.selA7 = a7 → exec (.selectAddress a7) s = .next s.finish) ∧
      (s.addrSel = true → s.selA7 ≠ a7 →
        exec (.selectAddress a7) s = .next (s.raise .sequenceError)) ∧
      (s.addrSel = false →
        exec (.selectAddress a7) s = .next { s with addrSel := true, selA7 := a7 }.finish))

/-- 41_transport.md rule R160: the two atomic steps of `REG_READ` and its errors; the whole register,
most significant byte first, becomes `RDATA`. The registers are those of 40_register_map_codec.md
rule R121, in its order, with its byte counts. -/
def Obligations.RegReadResult : Prop :=
  ∀ (s : State) (reg : BitVec 3),
    (5 < reg.toNat → exec (.regRead reg) s = .next (s.raise .illegalCommand)) ∧
    (∀ (base : Byte) (n : Nat),
      (reg.toNat, base, n) ∈
        [(0, s.params.sreg.chipId, 1), (1, s.params.sreg.status, 1),
         (2, s.params.sreg.ctrlMeas, 1), (3, s.params.sreg.config, 1),
         (4, s.params.sreg.data, 6), (5, s.params.sreg.calibration, 24)] →
      (s.seq = .run .decode → s.addrSel = false →
        exec (.regRead reg) s = .next (s.raise .sequenceError)) ∧
      (s.seq = .run .decode → s.addrSel = true →
        exec (.regRead reg) s = .next { s with seq := .run .regRead }) ∧
      (s.seq = .run .regRead →
        let t : Txn := .read s.selA7 base n
        (readAnswer s t n = .nack →
          exec (.regRead reg) s = .next ((s.record t .nack).raiseBus .busError base false 0)) ∧
        (∀ b, readAnswer s t n = .ok b →
          exec (.regRead reg) s = .next { s.record t (.ok b) with rdata := assemble b }.finish)))

/-- 41_transport.md rule R161: the two atomic steps of `REG_WRITE` and its errors, in the order of the
checks; of the registers of 40_register_map_codec.md rule R121 only `CTRL_MEAS` (2) and `CONFIG` (3)
have a writable field, and the value must fit their 8 bits. -/
def Obligations.RegWriteResult : Prop :=
  ∀ (s : State) (reg : BitVec 3),
    (5 < reg.toNat → exec (.regWrite reg) s = .next (s.raise .illegalCommand)) ∧
    (reg.toNat ≤ 5 → s.seq = .run .decode → s.addrSel = false →
      exec (.regWrite reg) s = .next (s.raise .sequenceError)) ∧
    (reg.toNat ∈ [0, 1, 4, 5] → s.seq = .run .decode → s.addrSel = true →
      exec (.regWrite reg) s = .next (s.raise .readOnly)) ∧
    (∀ base : Byte,
      (reg.toNat, base) ∈ [(2, s.params.sreg.ctrlMeas), (3, s.params.sreg.config)] →
      (s.seq = .run .decode → s.addrSel = true →
        (256 ≤ s.larg0.toNat → exec (.regWrite reg) s = .next (s.raise .fieldOverflow)) ∧
        (s.larg0.toNat < 256 →
          exec (.regWrite reg) s = .next { s with seq := .run .regWrite })) ∧
      (s.seq = .run .regWrite →
        let t : Txn := .write s.selA7 base [s.larg0.extractLsb' 0 8]
        (writeAnswer s t = .nack →
          exec (.regWrite reg) s = .next ((s.record t .nack).raiseBus .busError base true 0)) ∧
        (∀ b, writeAnswer s t = .ok b →
          exec (.regWrite reg) s = .next (s.record t (.ok b)).finish)))

/-! ### Field commands -/

/-- 40_register_map_codec.md rule R135: the two atomic steps of `FIELD_READ` and its errors; the
decoded value goes to `RDATA0` and 0 to `RDATA1..RDATA5`. -/
def Obligations.FieldReadResult : Prop :=
  ∀ (s : State) (fld : BitVec 5),
    (22 < fld.toNat → exec (.fieldRead fld) s = .next (s.raise .illegalCommand)) ∧
    (∀ d, fieldAt fld = some d →
      (s.seq = .run .decode → s.addrSel = false →
        exec (.fieldRead fld) s = .next (s.raise .sequenceError)) ∧
      (s.seq = .run .decode → s.addrSel = true →
        exec (.fieldRead fld) s = .next { s with seq := .run .fieldRead }) ∧
      (s.seq = .run .fieldRead →
        let reg := d.reg.base s.params
        let t : Txn := .read s.selA7 reg d.reg.bytes
        (readAnswer s t d.reg.bytes = .nack →
          exec (.fieldRead fld) s = .next ((s.record t .nack).raiseBus .busError reg false 0)) ∧
        (∀ b, readAnswer s t d.reg.bytes = .ok b →
          let c := (assemble b &&& d.mask) >>> maskLsb d.mask
          (∀ e, decodeField s.params d.codec c = .error e →
            exec (.fieldRead fld) s = .next ((s.record t (.ok b)).raise e)) ∧
          (∀ v, decodeField s.params d.codec c = .ok v →
            exec (.fieldRead fld) s =
              .next { s.record t (.ok b) with rdata := v.setWidth 192 }.finish))))

/-- 40_register_map_codec.md rule R136: the three atomic steps of `FIELD_WRITE` and its errors, in
the order of the checks; the merged register is written back. -/
def Obligations.FieldWriteResult : Prop :=
  ∀ (s : State) (fld : BitVec 5),
    (22 < fld.toNat → exec (.fieldWrite fld) s = .next (s.raise .illegalCommand)) ∧
    (∀ d, fieldAt fld = some d →
      (s.seq = .run .decode → s.addrSel = false →
        exec (.fieldWrite fld) s = .next (s.raise .sequenceError)) ∧
      (s.seq = .run .decode → s.addrSel = true → d.ro = true →
        exec (.fieldWrite fld) s = .next (s.raise .readOnly)) ∧
      (s.seq = .run .decode → s.addrSel = true → d.ro = false →
        (∀ e, encodeField s.params d s.larg0 = .error e →
          exec (.fieldWrite fld) s = .next (s.raise e)) ∧
        (∀ code, encodeField s.params d s.larg0 = .ok code →
          exec (.fieldWrite fld) s = .next { s with seq := .run (.fieldModify code) })) ∧
      (∀ code, s.seq = .run (.fieldModify code) →
        let reg := d.reg.base s.params
        let t : Txn := .read s.selA7 reg d.reg.bytes
        (readAnswer s t d.reg.bytes = .nack →
          exec (.fieldWrite fld) s = .next ((s.record t .nack).raiseBus .busError reg false 0)) ∧
        (∀ b, readAnswer s t d.reg.bytes = .ok b →
          exec (.fieldWrite fld) s =
            .next { s.record t (.ok b) with
              seq := .run (.fieldWriteBack
                ((assemble b &&& ~~~d.mask) ||| (BitVec.ofNat 192 code <<< maskLsb d.mask))) })) ∧
      (∀ new, s.seq = .run (.fieldWriteBack new) →
        let reg := d.reg.base s.params
        let t : Txn := .write s.selA7 reg (bytesOf d.reg.bytes new)
        (writeAnswer s t = .nack →
          exec (.fieldWrite fld) s = .next ((s.record t .nack).raiseBus .busError reg true 0)) ∧
        (∀ b, writeAnswer s t = .ok b →
          exec (.fieldWrite fld) s = .next (s.record t (.ok b)).finish)))

/-! ### Codecs and byte order -/

/-- 40_register_map_codec.md rules R128 and R129: with bijective code tables, every symbol encodes to
its code and every listed code decodes to its symbol; a non-symbol and an unlisted code are
`UNKNOWN_SYMBOL`; and every listed code passes the fit check of the fields of its table. -/
def Obligations.LookupRoundTrip : Prop :=
  ∀ (p : Params) (t : Table), p.lookup.wf = true →
    (∀ r ∈ t.rows p.lookup, lookupEncode (t.rows p.lookup) r.1 = some r.2 ∧
      lookupDecode (t.rows p.lookup) r.2 = some r.1) ∧
    (∀ c : Raw, ∀ r ∈ t.rows p.lookup, r.2 = c.toNat →
      decodeField p (.lookup t) c = .ok (BitVec.ofNat 32 r.1)) ∧
    (∀ c : Raw, (∀ r ∈ t.rows p.lookup, r.2 ≠ c.toNat) →
      decodeField p (.lookup t) c = .error .unknownSymbol) ∧
    (∀ (d : Field) (v : Word), d.codec = .lookup t → (∀ r ∈ t.rows p.lookup, r.1 ≠ v.toNat) →
      encodeField p d v = .error .unknownSymbol) ∧
    (∀ (d : Field) (v : Word) (code : Nat), d ∈ fieldTable → d.codec = .lookup t →
      (v.toNat, code) ∈ t.rows p.lookup → encodeField p d v = .ok code)

/-- 40_register_map_codec.md rules R124 and R131: a code fits a field exactly when it is below
`2^width`, with `FIELD_OVERFLOW` otherwise; a `RawUnsigned` value decodes from its own code, and
encodes to itself where that fits. -/
def Obligations.RawFieldFitCheck : Prop :=
  (∀ (mask : Raw) (code : Nat),
    (code < 2 ^ maskWidth mask → fitCheck mask code = .ok code) ∧
    (2 ^ maskWidth mask ≤ code → fitCheck mask code = .error .fieldOverflow)) ∧
  (∀ (p : Params) (c : Raw), c.toNat < 2 ^ 32 →
    ∃ v, decodeField p .rawUnsigned c = .ok v ∧ v.toNat = c.toNat) ∧
  (∀ (p : Params) (d : Field) (v : Word), d.codec = .rawUnsigned →
    (v.toNat < 2 ^ maskWidth d.mask → encodeField p d v = .ok v.toNat) ∧
    (2 ^ maskWidth d.mask ≤ v.toNat → encodeField p d v = .error .fieldOverflow))

/-- 40_register_map_codec.md rule R122: the row of every `FLD`: register, mask, codec and read-only
flag, and the registers' base and bytes of rule R121. Rules R132 and R134: within each register the
masks are disjoint, each lies inside its register's width and is one contiguous run of ones; a merge
puts the code into the field and keeps every bit outside the field's mask, for every field and every
code that fits. The masks are the spec's, from general knowledge (log 7). -/
def Obligations.MergeKeepsOtherFields : Prop :=
  ([0, 1, 2, 3, 4, 5, 6, 7, 8, 9, 10, 11, 12, 13, 14, 15, 16, 17, 18, 19, 20, 21, 22].map
    (fun k => fieldAt (BitVec.ofNat 5 k)) =
    [some ⟨.chipId, 0xFF, .rawUnsigned, true⟩,
     some ⟨.status, 0x08, .rawUnsigned, true⟩,
     some ⟨.status, 0x01, .rawUnsigned, true⟩,
     some ⟨.ctrlMeas, 0xE0, .lookup .osrs, false⟩,
     some ⟨.ctrlMeas, 0x1C, .lookup .osrs, false⟩,
     some ⟨.ctrlMeas, 0x03, .lookup .mode, false⟩,
     some ⟨.config, 0xE0, .lookup .tsb, false⟩,
     some ⟨.config, 0x1C, .rawUnsigned, false⟩,
     some ⟨.config, 0x01, .rawUnsigned, true⟩,
     some ⟨.data, 0xFFFFF0000000, .rawUnsigned, true⟩,
     some ⟨.data, 0x000000FFFFF0, .rawUnsigned, true⟩,
     some ⟨.calibration, 0xFFFF <<< 176, .u16c, true⟩,
     some ⟨.calibration, 0xFFFF <<< 160, .s16c, true⟩,
     some ⟨.calibration, 0xFFFF <<< 144, .s16c, true⟩,
     some ⟨.calibration, 0xFFFF <<< 128, .u16c, true⟩,
     some ⟨.calibration, 0xFFFF <<< 112, .s16c, true⟩,
     some ⟨.calibration, 0xFFFF <<< 96, .s16c, true⟩,
     some ⟨.calibration, 0xFFFF <<< 80, .s16c, true⟩,
     some ⟨.calibration, 0xFFFF <<< 64, .s16c, true⟩,
     some ⟨.calibration, 0xFFFF <<< 48, .s16c, true⟩,
     some ⟨.calibration, 0xFFFF <<< 32, .s16c, true⟩,
     some ⟨.calibration, 0xFFFF <<< 16, .s16c, true⟩,
     some ⟨.calibration, 0xFFFF, .s16c, true⟩]) ∧
  (∀ (p : Params) (r : RegId), (r, r.base p, r.bytes) ∈
    [(.chipId, p.sreg.chipId, 1), (.status, p.sreg.status, 1), (.ctrlMeas, p.sreg.ctrlMeas, 1),
     (.config, p.sreg.config, 1), (.data, p.sreg.data, 6),
     (.calibration, p.sreg.calibration, 24)]) ∧
  (∀ d ∈ fieldTable, ∃ fld : BitVec 5, fieldAt fld = some d) ∧
  fieldTable.length = 23 ∧
  fieldTable.Pairwise (fun a b => a.reg = b.reg → a.mask &&& b.mask = 0) ∧
  (∀ d ∈ fieldTable, d.mask.toNat < 2 ^ d.reg.width ∧
    d.mask.toNat = (2 ^ maskWidth d.mask - 1) * 2 ^ maskLsb d.mask) ∧
  (∀ (d : Field) (old : Raw) (code : Nat), d ∈ fieldTable → code < 2 ^ maskWidth d.mask →
    extractField d.mask (mergeField d.mask old code) = BitVec.ofNat 192 code ∧
    (∀ i, d.mask.getLsbD i = false →
      (mergeField d.mask old code).getLsbD i = old.getLsbD i))

/-- 20_memory.md rule R68: a register is assembled most significant byte first, `b[i]` at bits
`8(n-1-i)+7` to `8(n-1-i)`, and a write sends the same bytes in the same order. -/
def Obligations.RegisterByteOrder : Prop :=
  (∀ b : List Byte, b.length ≤ 24 →
    (∀ i (h : i < b.length), (assemble b).extractLsb' (8 * (b.length - 1 - i)) 8 = b[i]) ∧
    (assemble b).toNat < 2 ^ (8 * b.length) ∧
    bytesOf b.length (assemble b) = b) ∧
  (∀ (n : Nat) (raw : Raw) (i : Nat), i < n →
    (bytesOf n raw)[i]? = some (raw.extractLsb' (8 * (n - 1 - i)) 8)) ∧
  (∀ (n : Nat) (raw : Raw), n ≤ 24 → raw.toNat < 2 ^ (8 * n) → assemble (bytesOf n raw) = raw)

/-- 42_compensation.md rule R180 and 40_register_map_codec.md rule R130: coefficient `k` of the
calibration block comes from bytes `2k` and `2k+1`, the first one the low byte under `LSB_FIRST` and
the high byte under `MSB_FIRST`; the store's twelve coefficients are those of k = 0 to 11 in the
order of 10_state.md rule R36; and a read of a coefficient field (rule R135 step 8) gives the
ordered word, zero-extended for `U16C` and sign-extended for `S16C`. -/
def Obligations.CoefficientByteOrder : Prop :=
  (∀ (p : Params) (b : List Byte) (k : Nat) (h : b.length = 24) (hk : k < 12),
    (p.coeffOrder = .lsbFirst → calWord p (assemble b) k = b[2 * k + 1] ++ b[2 * k]) ∧
    (p.coeffOrder = .msbFirst → calWord p (assemble b) k = b[2 * k] ++ b[2 * k + 1])) ∧
  (∀ (p : Params) (raw : Raw),
    let c := loadCal p raw
    [c.t1, c.t2, c.t3, c.p1, c.p2, c.p3, c.p4, c.p5, c.p6, c.p7, c.p8, c.p9] =
      [0, 1, 2, 3, 4, 5, 6, 7, 8, 9, 10, 11].map (calWord p raw)) ∧
  (∀ (p : Params) (c : Raw) (hi lo : Byte), c = (hi ++ lo).setWidth 192 →
    (p.coeffOrder = .lsbFirst →
      (∃ v, decodeField p .u16c c = .ok v ∧ v.toNat = (lo ++ hi).toNat) ∧
      (∃ v, decodeField p .s16c c = .ok v ∧ v.toInt = (lo ++ hi).toInt)) ∧
    (p.coeffOrder = .msbFirst →
      (∃ v, decodeField p .u16c c = .ok v ∧ v.toNat = (hi ++ lo).toNat) ∧
      (∃ v, decodeField p .s16c c = .ok v ∧ v.toInt = (hi ++ lo).toInt)))

/-- 40_register_map_codec.md rule R125: two's complement at 16 bits: the four values the rule gives,
`c - 65536` for a code with bit 15 set and `c` otherwise, the encode of every value in range, the
failure of every other, and the round trip. -/
def Obligations.SignedFromUnsignedCodec : Prop :=
  signed16 0x0000 = 0 ∧ signed16 0x7FFF = 32767 ∧ signed16 0x8000 = -32768 ∧
  signed16 0xFFFF = -1 ∧
  (∀ c : BitVec 16, signed16 c = c.toInt) ∧
  (∀ c : BitVec 16, encodeSigned16 (signed16 c) = .ok c) ∧
  (∀ v : Int, -32768 ≤ v → v ≤ 32767 →
    ∃ c, encodeSigned16 v = .ok c ∧ (c.toNat : Int) = v % 65536) ∧
  (∀ v : Int, v < -32768 ∨ 32767 < v → encodeSigned16 v = .error .fieldOverflow)

/-! ### Setup -/

/-- 43_controller.md rules R235 and R234, and R226 steps U1 to U3: in a session, whatever `SADDR` and
`SCFG` hold, `SETUP` succeeds at once with no effect; a measuring command makes no transaction and
writes nothing but `POLLCNT` before its own first one, which is the trigger's read in forced mode
and the data read otherwise. -/
def Obligations.SetupIsIdempotent : Prop :=
  ∀ s : State, s.seq = .run .decode → s.sstate ≠ .uninitialized →
    exec .setup s = .next s.finish ∧
    (∀ i, measures i = true → s.smode = .forced →
      exec i s = .next { s with pollcnt := 0, seq := .run .triggerRead }) ∧
    (∀ i, measures i = true → s.smode ≠ .forced →
      exec i s = .next { s with pollcnt := 0, seq := .run .dataRead })

/-- 43_controller.md rules R221 (steps S1 to S5), R222 and R223: the first setup, explicit or
implicit, checks the address, then the symbols, then the selection, and makes no transaction in that
step; it selects only when all are good. -/
def Obligations.SetupChecksItsArgumentsFirst : Prop :=
  ∀ (s : State) (i : Instr), s.seq = .run .decode → s.sstate = .uninitialized →
    (i = .setup ∨ measures i = true) →
    (s.lsaddr ≠ s.params.a0 → s.lsaddr ≠ s.params.a1 →
      exec i s = .next (s.raise .illegalCommand)) ∧
    (s.lsaddr = s.params.a0 ∨ s.lsaddr = s.params.a1 →
      (setupCodes s.params s.lscfg = none → exec i s = .next (s.raise .unknownSymbol)) ∧
      (∀ c, setupCodes s.params s.lscfg = some c →
        (s.addrSel = true → s.selA7 ≠ s.lsaddr →
          exec i s = .next (s.raise .sequenceError)) ∧
        ((s.addrSel = false ∨ s.selA7 = s.lsaddr) →
          exec i s = .next
            { s with addrSel := true, selA7 := s.lsaddr, seq := .run (.setupChipId c) })))

/-- 43_controller.md rules R222 and R221 step S4, 10_state.md rule R25: which `SCFG` values a setup
accepts, with the default code tables (log 7): exactly those whose four fields are symbols; and the codes it
then uses, `forced` programmed as `sleep`. -/
def Obligations.SetupAcceptsExactlyTheSymbols : Prop :=
  ∀ (p : Params) (cfg : BitVec 25), p.lookup = defaultLookup →
    ((setupCodes p cfg).isSome = true ↔
      (cfg.extractLsb' 0 2).toNat ≤ 2 ∧
      (cfg.extractLsb' 2 5).toNat ∈ [1, 2, 4, 8, 16] ∧
      (cfg.extractLsb' 7 5).toNat ∈ [1, 2, 4, 8, 16] ∧
      (cfg.extractLsb' 12 13).toNat ∈ [1, 125, 250, 500, 1000, 2000, 4000, 8000]) ∧
    (∀ c, setupCodes p cfg = some c →
      c.m.symbol = (cfg.extractLsb' 0 2).toNat ∧
      (c.m = .normal → c.cm = 0b11) ∧ (c.m ≠ .normal → c.cm = 0b00) ∧
      (c.ct, (cfg.extractLsb' 2 5).toNat) ∈ [(1, 1), (2, 2), (3, 4), (4, 8), (5, 16)] ∧
      (c.cp, (cfg.extractLsb' 7 5).toNat) ∈ [(1, 1), (2, 2), (3, 4), (4, 8), (5, 16)] ∧
      (c.cs, (cfg.extractLsb' 12 13).toNat) ∈ [(0, 1), (1, 125), (2, 250), (3, 500), (4, 1000),
        (5, 2000), (6, 4000), (7, 8000)])

/-- 43_controller.md rule R224: step S6 of a setup, explicit or implicit, accepts `0x58` and
`CHIP_ID_ALT` and raises `UNSUPPORTED_CHIP` with the identifier for every other value. -/
def Obligations.SetupChecksTheChipIdentity : Prop :=
  ∀ (s : State) (i : Instr) (c : SetupCodes), s.seq = .run (.setupChipId c) →
    (i = .setup ∨ measures i = true) →
    let reg := s.params.sreg.chipId
    let t : Txn := .read s.selA7 reg 1
    (readAnswer s t 1 = .nack →
      exec i s = .next ((s.record t .nack).raiseBus .busError reg false 0)) ∧
    (∀ id, readAnswer s t 1 = .ok [id] →
      (id = 0x58 ∨ id = s.params.chipIdAlt →
        exec i s = .next { s.record t (.ok [id]) with seq := .run (.setupCtrlRead c) }) ∧
      (id ≠ 0x58 → id ≠ s.params.chipIdAlt →
        exec i s = .next ((s.record t (.ok [id])).raiseBus .unsupportedChip reg false id)))

/-- 43_controller.md rules R221 (steps S7, S8) and R225: the four programming transactions of a setup,
explicit or implicit: `CTRL_MEAS` is read and rewritten whole, `CONFIG` is read and keeps its bits
4:0; a `NACK` of any of them is a `BUS_ERROR`. -/
def Obligations.SetupProgramsTheSensor : Prop :=
  ∀ (s : State) (i : Instr) (c : SetupCodes), (i = .setup ∨ measures i = true) →
    (s.seq = .run (.setupCtrlRead c) →
      let t : Txn := .read s.selA7 s.params.sreg.ctrlMeas 1
      (readAnswer s t 1 = .nack → exec i s =
        .next ((s.record t .nack).raiseBus .busError s.params.sreg.ctrlMeas false 0)) ∧
      (∀ b, readAnswer s t 1 = .ok [b] → exec i s =
        .next { s.record t (.ok [b]) with
          seq := .run (.setupCtrlWrite c (BitVec.ofNat 8 c.ct <<< 5 ||| BitVec.ofNat 8 c.cp <<< 2 |||
            BitVec.ofNat 8 c.cm)) })) ∧
    (∀ v, s.seq = .run (.setupCtrlWrite c v) →
      let t : Txn := .write s.selA7 s.params.sreg.ctrlMeas [v]
      (writeAnswer s t = .nack → exec i s =
        .next ((s.record t .nack).raiseBus .busError s.params.sreg.ctrlMeas true 0)) ∧
      (∀ a, writeAnswer s t = .ok a → exec i s =
        .next { s.record t (.ok a) with seq := .run (.setupConfigRead c) })) ∧
    (s.seq = .run (.setupConfigRead c) →
      let t : Txn := .read s.selA7 s.params.sreg.config 1
      (readAnswer s t 1 = .nack → exec i s =
        .next ((s.record t .nack).raiseBus .busError s.params.sreg.config false 0)) ∧
      (∀ b, readAnswer s t 1 = .ok [b] → exec i s =
        .next { s.record t (.ok [b]) with
          seq := .run (.setupConfigWrite c ((b &&& 0x1F) ||| BitVec.ofNat 8 c.cs <<< 5)) })) ∧
    (∀ v, s.seq = .run (.setupConfigWrite c v) →
      let t : Txn := .write s.selA7 s.params.sreg.config [v]
      (writeAnswer s t = .nack → exec i s =
        .next ((s.record t .nack).raiseBus .busError s.params.sreg.config true 0)) ∧
      (∀ a, writeAnswer s t = .ok a → exec i s =
        .next { s.record t (.ok a) with seq := .run (.setupCal c) }))

/-- 43_controller.md rule R225 and 42_compensation.md rule R180: the step of the calibration read
writes the store, `CAL_VALID`, `SSTATE = IDLE` and `SMODE` together; `SETUP` finishes in it, and a
measuring command goes on with steps U1 to U3 of rule R226: `POLLCNT = 0`, and the trigger's read in
forced mode or the data read otherwise. -/
def Obligations.SetupLoadsTheCalibration : Prop :=
  ∀ (s : State) (c : SetupCodes), s.seq = .run (.setupCal c) →
    let reg := s.params.sreg.calibration
    let t : Txn := .read s.selA7 reg 24
    (readAnswer s t 24 = .nack → ∀ i, (i = .setup ∨ measures i = true) →
      exec i s = .next ((s.record t .nack).raiseBus .busError reg false 0)) ∧
    (∀ b, readAnswer s t 24 = .ok b →
      let u : State := { s.record t (.ok b) with
        cal := loadCal s.params (assemble b), calValid := true, sstate := .idle, smode := c.m }
      exec .setup s = .next u.finish ∧
      (∀ i, measures i = true →
        exec i s = .next { u with
          pollcnt := 0, seq := if c.m = .forced then .run .triggerRead else .run .dataRead }))

/-- 43_controller.md rule R221: a whole `SETUP` from an idle, unconfigured block: seven atomic steps,
the six transactions in the rule's order with the bytes of its steps S7 and S8, and the configured
session at the end (the sensor's answers are given by `script`, log 4). -/
def Obligations.SetupMakesItsSixTransactions : Prop :=
  ∀ (s : State) (c : SetupCodes) (id b₁ b₂ : Byte) (cal : List Byte),
    s.seq = .idle → s.host = [.csrw 0x00 .word 0x10000000] → s.sstate = .uninitialized →
    (s.saddr = s.params.a0 ∨ s.saddr = s.params.a1) → setupCodes s.params s.scfg = some c →
    (s.addrSel = false ∨ s.selA7 = s.saddr) → (id = 0x58 ∨ id = s.params.chipIdAlt) →
    cal.length = 24 →
    s.script = [.ok [id], .ok [b₁], .ok [], .ok [b₂], .ok [], .ok cal] →
    ∃ t, Host.Core.run Sys2Proof.core 7 s = .next t ∧
      t.history =
        [⟨.read s.saddr s.params.sreg.calibration 24, .ok cal⟩,
         ⟨.write s.saddr s.params.sreg.config [(b₂ &&& 0x1F) ||| BitVec.ofNat 8 c.cs <<< 5], .ok []⟩,
         ⟨.read s.saddr s.params.sreg.config 1, .ok [b₂]⟩,
         ⟨.write s.saddr s.params.sreg.ctrlMeas
           [BitVec.ofNat 8 c.ct <<< 5 ||| BitVec.ofNat 8 c.cp <<< 2 ||| BitVec.ofNat 8 c.cm], .ok []⟩,
         ⟨.read s.saddr s.params.sreg.ctrlMeas 1, .ok [b₁]⟩,
         ⟨.read s.saddr s.params.sreg.chipId 1, .ok [id]⟩] ++ s.history ∧
      t.seq = .idle ∧ t.done = true ∧ t.err = false ∧ t.sstate = .idle ∧ t.smode = c.m ∧
      t.addrSel = true ∧ t.selA7 = s.saddr ∧ t.calValid = true ∧
      t.cal = loadCal s.params (assemble cal)

/-! ### Update cycle -/

/-- 43_controller.md rule R227: the forced trigger is a read of `CTRL_MEAS` and a write of the byte
with bits 7:2 as read and the forced code in bits 1:0; `SSTATE` becomes `CONVERTING` in the step of
the write. The poll limit is positive (00_scope.md rule R6). -/
def Obligations.ForcedTrigger : Prop :=
  ∀ (s : State) (i : Instr), measures i = true →
    let reg := s.params.sreg.ctrlMeas
    (s.seq = .run .triggerRead →
      let t : Txn := .read s.selA7 reg 1
      (readAnswer s t 1 = .nack →
        exec i s = .next ((s.record t .nack).raiseBus .busError reg false 0)) ∧
      (∀ b, readAnswer s t 1 = .ok [b] → exec i s =
        .next { s.record t (.ok [b]) with
          seq := .run (.triggerWrite ((b &&& 0xFC) ||| s.params.lookup.forced.setWidth 8)) })) ∧
    (∀ v, s.seq = .run (.triggerWrite v) →
      let t : Txn := .write s.selA7 reg [v]
      (writeAnswer s t = .nack →
        exec i s = .next ((s.record t .nack).raiseBus .busError reg true 0)) ∧
      (∀ a, writeAnswer s t = .ok a → s.pollcnt = 0 → s.params.pollLimit ≠ some 0 → exec i s =
        .next { s.record t (.ok a) with sstate := .converting, seq := .run .poll }))

/-- 43_controller.md rules R226 (step U4) and R228: one status read of the poll. A failed read and a
clear measuring bit leave the loop with `SSTATE = IDLE`; a set bit at the limit raises
`CONVERSION_TIMEOUT`, and below it, or with `INF`, the poll goes on. That the timeout comes in the
step of the last read is the model's reading of 10_state.md rule R41 (log 1). -/
def Obligations.ConversionPoll : Prop :=
  ∀ (s : State) (i : Instr), measures i = true → s.seq = .run .poll →
    let reg := s.params.sreg.status
    let t : Txn := .read s.selA7 reg 1
    (readAnswer s t 1 = .nack → exec i s =
      .next ({ s.record t .nack with sstate := .idle }.raiseBus .busError reg false 0)) ∧
    (∀ b, readAnswer s t 1 = .ok [b] →
      (b.getLsbD 3 = false → exec i s =
        .next { s.record t (.ok [b]) with
          pollcnt := s.pollcnt + 1, sstate := .idle, seq := .run .dataRead }) ∧
      (b.getLsbD 3 = true → s.params.pollLimit = some (s.pollcnt + 1) → exec i s =
        .next ({ s.record t (.ok [b]) with
          pollcnt := s.pollcnt + 1, sstate := .idle }.raiseBus .conversionTimeout reg false 0)) ∧
      (b.getLsbD 3 = true → s.params.pollLimit ≠ some (s.pollcnt + 1) → exec i s =
        .next { s.record t (.ok [b]) with pollcnt := s.pollcnt + 1, seq := .run .poll }))

/-- 43_controller.md rules R226 (steps U5 to U7), R229 to R233: the step of the data read completes the
four measuring commands: the temperature before the pressure with the same carry, all results
written together, and the command's own result in `RES`; a failed read writes none of them. The
altitude is in the order of operations of rule R236, with its three constants as their nearest binary64 values.
The numbers are those of `NUM`, whichever it is (log 8), and `POW` is open but for the special
operands (logs 10, 23, 24). -/
def Obligations.MeasurementCompletes : Prop :=
  ∀ s : State, s.seq = .run .dataRead →
    let reg := s.params.sreg.data
    let t : Txn := .read s.selA7 reg 6
    (readAnswer s t 6 = .nack → ∀ i, measures i = true →
      exec i s = .next ((s.record t .nack).raiseBus .busError reg false 0)) ∧
    (∀ b, readAnswer s t 6 = .ok b →
      let rp : BitVec 20 := (assemble b).extractLsb' 28 20
      let rt : BitVec 20 := (assemble b).extractLsb' 4 20
      let n := s.params.num
      let tf := compTFine n s.cal rt
      let temp := fdiv n tf (fl n 5120)
      let pres := fdiv n (compP n s.cal rp tf) (fl n 100)
      let u : State := { s.record t (.ok b) with
        tfine := tf, tfineValid := true, temp := temp, pres := pres, measValid := true
        rawT := rt, rawP := rp }
      let tm : F64 := s.larg3 ++ s.larg2
      let q : F64 := s.larg1 ++ s.larg0
      let alt := fun tc : F64 =>
        let r := fdiv n q pres
        let e := fdiv n (fl n 1) 0x4015072B020C49BA
        let x := fsub n (powWith Config.pow r e) (fl n 1)
        let y := fadd n tc 0x4071126666666666
        fdiv n (fmul n x y) 0x3F7A9FBE76C8B439
      exec .update s = .next u.finish ∧
      exec .getTemperature s = .next { u with res := temp }.finish ∧
      exec .getPressure s = .next { u with res := pres }.finish ∧
      exec (.getAltitude false) s = .next { u with
        alt := alt temp, altValid := true, res := alt temp }.finish ∧
      exec (.getAltitude true) s = .next { u with
        alt := alt tm, altValid := true, res := alt tm }.finish)

/-- 43_controller.md rule R228: with a finite `POLL_LIMIT` of `n` the poll of a running command ends
after at most `n` status reads, whatever the sensor answers (that the timeout comes in the step of
the last read is log 1; that no host move comes between is log 2). -/
def Obligations.FiniteLimitBoundsThePoll : Prop :=
  ∀ (s : State) (i : Instr) (n : Nat), s.seq = .run .poll → s.host = [] →
    decode s.lcmd = .ok i → measures i = true → s.params.pollLimit = some n → s.pollcnt < n →
    ∃ k t, k ≤ n - s.pollcnt ∧ Host.Core.run Sys2Proof.core k s = .next t ∧
      t.seq ≠ .run .poll ∧ t.sstate = .idle ∧ t.pollcnt ≤ n

/-- 70_reset_and_hazards.md rule R306: with `POLL_LIMIT = INF`, a sensor that keeps answering with the
measuring bit set keeps the command running for any number of steps (the answers are given by
`script`, log 4), and the run has not ended (60_exceptions.md rule R276). -/
def Obligations.UnboundedPollCanHang : Prop :=
  ∀ (k : Nat) (s : State) (i : Instr) (b : Byte), s.seq = .run .poll → s.host = [] →
    decode s.lcmd = .ok i → measures i = true → s.params.pollLimit = none →
    s.sstate = .converting → b.getLsbD 3 = true → s.script = List.replicate k (.ok [b]) →
    ∃ t, Host.Core.run Sys2Proof.core k s = .next t ∧ t.seq = .run .poll ∧
      t.sstate = .converting ∧ t.status.getLsbD 0 = true ∧ t.pollcnt = s.pollcnt + k ∧
      runFor k s = .going t

/-! ### Compensation -/

/-- 42_compensation.md rules R188 and R183: `COMP_T` completes in its first step: `SEQUENCE_ERROR`
without calibration, else the carry, its valid bit, `RES` and `RAW_T` from `LARG0[19:0]`, in the
rule's order of operations with the arithmetic of `NUM`, whichever it is (log 8). -/
def Obligations.CompTResult : Prop :=
  ∀ s : State, s.seq = .run .decode →
    (s.calValid = false → exec .compT s = .next (s.raise .sequenceError)) ∧
    (s.calValid = true →
      let raw : BitVec 20 := s.larg0.extractLsb' 0 20
      let n := s.params.num
      let r := fl n (raw.toNat : Int)
      let t1 := fl n (s.cal.t1.toNat : Int)
      let d1 := fsub n (fdiv n r (fl n 16384)) (fdiv n t1 (fl n 1024))
      let var1 := fmul n d1 (fl n s.cal.t2.toInt)
      let d := fsub n (fdiv n r (fl n 131072)) (fdiv n t1 (fl n 8192))
      let var2 := fmul n (fmul n d d) (fl n s.cal.t3.toInt)
      let tf := fadd n var1 var2
      exec .compT s = .next { s with
        tfine := tf, tfineValid := true, res := fdiv n tf (fl n 5120), rawT := raw }.finish)

/-- 42_compensation.md rules R189, R185 and R187: `COMP_P` completes in its first step:
`SEQUENCE_ERROR` without calibration or carry, else the pressure in Pa of `LARG0[19:0]` with the
carry, in the rule's order of operations and with its guard, to `RES`, and `RAW_P`, with the
arithmetic of `NUM`, whichever it is (log 8). -/
def Obligations.CompPResult : Prop :=
  ∀ s : State, s.seq = .run .decode →
    (s.calValid = false ∨ s.tfineValid = false →
      exec .compP s = .next (s.raise .sequenceError)) ∧
    (s.calValid = true → s.tfineValid = true →
      let raw : BitVec 20 := s.larg0.extractLsb' 0 20
      let c := s.cal
      let n := s.params.num
      let v := fsub n (fdiv n s.tfine (fl n 2)) (fl n 64000)
      let a1 := fdiv n (fmul n (fmul n v v) (fl n c.p6.toInt)) (fl n 32768)
      let a2 := fadd n a1 (fmul n (fmul n v (fl n c.p5.toInt)) (fl n 2))
      let a3 := fadd n (fdiv n a2 (fl n 4)) (fmul n (fl n c.p4.toInt) (fl n 65536))
      let v1 := fdiv n (fadd n (fdiv n (fmul n (fmul n (fl n c.p3.toInt) v) v) (fl n 524288))
        (fmul n (fl n c.p2.toInt) v)) (fl n 524288)
      let v2 := fmul n (fadd n (fl n 1) (fdiv n v1 (fl n 32768))) (fl n (c.p1.toNat : Int))
      let q := fsub n (fl n 1048576) (fl n (raw.toNat : Int))
      let q1 := fdiv n (fmul n (fsub n q (fdiv n a3 (fl n 4096))) (fl n 6250)) v2
      let w1 := fdiv n (fmul n (fmul n (fl n c.p9.toInt) q1) q1) (fl n 2147483648)
      let w2 := fdiv n (fmul n q1 (fl n c.p8.toInt)) (fl n 32768)
      let p := fadd n q1 (fdiv n (fadd n (fadd n w1 w2) (fl n c.p7.toInt)) (fl n 16))
      exec .compP s = .next { s with
        res := if feq v2 (fl n 0) = true then 0 else p, rawP := raw }.finish)

/-- 42_compensation.md rule R187: a zero denominator of either sign gives `+0.0`, and `dig_p1 = 0`
makes the denominator zero whenever its other factor is finite, for every `NUM` (log 8). -/
def Obligations.ZeroDenominatorGivesZero : Prop :=
  (∀ (n : Rounding) (c : Coeffs) (raw : BitVec 20) (tf : F64),
    compPDenominator n c tf = 0 ∨ compPDenominator n c tf = 0x8000000000000000 →
    compP n c raw tf = 0) ∧
  (∀ (n : Rounding) (c : Coeffs) (raw : BitVec 20) (tf : F64),
    c.p1 = 0 → isFinite (compPScale n c tf) = true → compP n c raw tf = 0)

/-- 00_scope.md rule R9, for every `NUM` (its five directions are the model's reading of rule R6, log
8): `fl` of an integer below `2^53` in magnitude is exact; each of the four operations on finite
numbers gives the rounding of the exact result, once, with the sign that IEEE 754 gives a zero; the
special operands are those of IEEE 754 with no trap (any NaN is a NaN result's pattern, log 9); and
`==f` compares the numbers, so `-0.0 ==f 0.0` and a NaN equals nothing. -/
def Obligations.ArithmeticRoundsTheExactResult : Prop :=
  (∀ (num : Rounding) (n : Int), n.natAbs < 2 ^ 53 →
    isFinite (fl num n) = true ∧ ratOf (fl num n) = (n : ℚ)) ∧
  (∀ (num : Rounding) (a b : F64), isFinite a = true → isFinite b = true →
    RoundsTo num (ratOf a + ratOf b) (fadd num a b) ∧
    RoundsTo num (ratOf a - ratOf b) (fsub num a b) ∧
    RoundsTo num (ratOf a * ratOf b) (fmul num a b) ∧
    (ratOf b ≠ 0 → RoundsTo num (ratOf a / ratOf b) (fdiv num a b)) ∧
    (ratOf a + ratOf b = 0 → signOf (fadd num a b) =
      if signOf a = signOf b then signOf a else decide (num = .towardNegative)) ∧
    (ratOf a - ratOf b = 0 → signOf (fsub num a b) =
      if signOf a = signOf b then decide (num = .towardNegative) else signOf a) ∧
    signOf (fmul num a b) = (signOf a ^^ signOf b) ∧
    (ratOf b ≠ 0 → signOf (fdiv num a b) = (signOf a ^^ signOf b)) ∧
    (ratOf b = 0 → ratOf a ≠ 0 → fdiv num a b = infinity (signOf a ^^ signOf b)) ∧
    (ratOf b = 0 → ratOf a = 0 → isNaN (fdiv num a b) = true) ∧
    (feq a b = true ↔ ratOf a = ratOf b)) ∧
  (∀ (num : Rounding) (a : F64) (s : Bool), isFinite a = true →
    fadd num a (infinity s) = infinity s ∧ fadd num (infinity s) a = infinity s ∧
    fsub num a (infinity s) = infinity (!s) ∧ fsub num (infinity s) a = infinity s ∧
    (ratOf a ≠ 0 → fmul num a (infinity s) = infinity (signOf a ^^ s) ∧
      fmul num (infinity s) a = infinity (signOf a ^^ s)) ∧
    (ratOf a = 0 → isNaN (fmul num a (infinity s)) = true ∧
      isNaN (fmul num (infinity s) a) = true) ∧
    fdiv num a (infinity s) = signedZero (signOf a ^^ s) ∧
    fdiv num (infinity s) a = infinity (signOf a ^^ s) ∧
    feq a (infinity s) = false ∧ feq (infinity s) a = false) ∧
  (∀ (num : Rounding) (s s' : Bool),
    (s = s' → fadd num (infinity s) (infinity s') = infinity s ∧
      isNaN (fsub num (infinity s) (infinity s')) = true) ∧
    (s ≠ s' → isNaN (fadd num (infinity s) (infinity s')) = true ∧
      fsub num (infinity s) (infinity s') = infinity s) ∧
    fmul num (infinity s) (infinity s') = infinity (s ^^ s') ∧
    isNaN (fdiv num (infinity s) (infinity s')) = true ∧
    (feq (infinity s) (infinity s') = true ↔ s = s')) ∧
  (∀ (num : Rounding) (a b : F64), isNaN a = true ∨ isNaN b = true →
    isNaN (fadd num a b) = true ∧ isNaN (fsub num a b) = true ∧ isNaN (fmul num a b) = true ∧
    isNaN (fdiv num a b) = true ∧ feq a b = false)

/-- 43_controller.md rule R236 and 70_reset_and_hazards.md rule R313, for every open power function
and every `NUM` (logs 8, 10): `P = +0.0` with a finite `q > 0` gives `+inf` where `T +f 273.15` is
positive; `q` and `P` both zero give NaN; a finite `P < 0` with a finite `q > 0` gives NaN where `r`
is a number other than `-0.0` (log 23); where `r` is `-inf`, the open power function says whether it
is NaN or `+inf` (log 24); and `T = -273.15` gives a zero for finite `x` and NaN for infinite
`x`. -/
def Obligations.AltitudeOfSpecialOperands : Prop :=
  ∀ (pow : F64 → F64 → F64) (n : Rounding) (q p t : F64),
    let warm := isFinite t = true ∧ signOf (fadd n t c273_15) = false ∧ fadd n t c273_15 ≠ 0
    let e := fdiv n (fl n 1) c5_257
    (isFinite q = true → signOf q = false → q ≠ 0 →
      (warm → altitudeWith pow n q 0 t = 0x7FF0000000000000) ∧
      (isFinite p = true → signOf p = true → p ≠ 0x8000000000000000 →
        fdiv n q p ≠ 0x8000000000000000 → fdiv n q p ≠ 0xFFF0000000000000 →
        isNaN (altitudeWith pow n q p t) = true)) ∧
    (fdiv n q p = 0xFFF0000000000000 →
      (isNaN (pow 0xFFF0000000000000 e) = true → isNaN (altitudeWith pow n q p t) = true) ∧
      (isNaN (pow 0xFFF0000000000000 e) = false → warm →
        altitudeWith pow n q p t = 0x7FF0000000000000)) ∧
    (q = 0 ∨ q = 0x8000000000000000 → p = 0 ∨ p = 0x8000000000000000 →
      isNaN (altitudeWith pow n q p t) = true) ∧
    (let x := fsub n (powWith pow (fdiv n q p) e) (fl n 1)
     (isFinite x = true → altitudeWith pow n q p 0xC071126666666666 = 0 ∨
       altitudeWith pow n q p 0xC071126666666666 = 0x8000000000000000) ∧
     (x = 0x7FF0000000000000 ∨ x = 0xFFF0000000000000 →
       isNaN (altitudeWith pow n q p 0xC071126666666666) = true))

/-! ### The end of a run -/

/-- 60_exceptions.md rule R276: a run ends at its first point where the host has issued its last
operation and the sequencer is idle, whether or not the last command ended in an error; its end
state is the state there, the same however long one looks; the block does nothing after it; and a
run that ends is no hang (the host's list is the model's, log 2). -/
def Obligations.RunEndsAtItsFirstIdlePoint : Prop :=
  (∀ s : State, s.runOver = true ↔ (∀ m ∈ s.host, m = .pause) ∧ s.status.getLsbD 0 = false) ∧
  (∀ (k : Nat) (s e : State), runFor k s = .ended e →
    e.runOver = true ∧ ∃ j, j ≤ k ∧ Host.Core.run Sys2Proof.core j s = .next e ∧
      ∀ i t, i < j → Host.Core.run Sys2Proof.core i s = .next t → t.runOver = false) ∧
  (∀ s a b : State, s.EndsIn a → s.EndsIn b → a = b) ∧
  (∀ s : State, s.runOver = true → ∃ rest, step s = .next { s with host := rest }) ∧
  (∀ s e : State, s.EndsIn e → ¬ s.Hangs)

/-! ### The whole machine -/

/-- 10_state.md rule R44: reset satisfies the invariant. -/
def Obligations.ResetSatisfiesTheInvariant : Prop := State.reset.Inv

/-- 10_state.md rule R44: every step keeps the invariants of the session, from every state that meets
the invariant. -/
def Obligations.EveryStepKeepsTheSessionInvariant : Prop :=
  ∀ s t : State, s.Inv → step s = .next t → t.SessionInv

/-- 10_state.md rules R23, R27 and R39: every step keeps the flags and the error record consistent. -/
def Obligations.EveryStepKeepsTheStatusInvariant : Prop :=
  ∀ s t : State, s.Inv → step s = .next t → t.StatusInv

/-- 10_state.md rule R40: from every state whose sequencer is on a step of its command, a step never
meets the model's one fault (log 13), and leaves the sequencer idle or on a step of the command in
`LCMD`. -/
def Obligations.SequencerStaysOnItsCommand : Prop :=
  ∀ s : State, s.OnStep →
    (∀ f, step s ≠ .fault f) ∧ (∀ t, step s = .next t → t.OnStep)

/-- 10_state.md rule R39: `PERR` is cleared by block reset only. -/
def Obligations.PerrIsSticky : Prop :=
  ∀ s t : State, s.resetNext = false → step s = .next t → s.perr = true → t.perr = true

/-- 42_compensation.md rule R181: once the calibration is valid, no step but block reset changes it. -/
def Obligations.CalibrationIsLoadedOnce : Prop :=
  ∀ s t : State, s.SessionInv → s.resetNext = false → step s = .next t → s.calValid = true →
    t.calValid = true ∧ t.cal = s.cal

/-- 41_transport.md rule R155: a selection is undone by block reset only. -/
def Obligations.SelectionIsFinal : Prop :=
  ∀ s t : State, s.resetNext = false → step s = .next t → s.addrSel = true →
    t.addrSel = true ∧ t.selA7 = s.selA7

/-- 10_state.md rule R41 and 41_transport.md rules R151 and R156: a step makes at most one
transaction; it goes to `SEL_A7`, in a state of a session's invariant only after the selection; its
register and its number of bytes are a row of 40_register_map_codec.md rule R121 (20_memory.md rules
R67, R70); and an `OK` to a read of `n` bytes carries `n` bytes, here and in `readAnswer`. -/
def Obligations.AtMostOneTransactionPerStep : Prop :=
  (∀ s t : State, s.resetNext = false → step s = .next t →
    let rows : List (Byte × Nat) :=
      [(s.params.sreg.chipId, 1), (s.params.sreg.status, 1), (s.params.sreg.ctrlMeas, 1),
       (s.params.sreg.config, 1), (s.params.sreg.data, 6), (s.params.sreg.calibration, 24)]
    t.history = s.history ∨
    ∃ e : BusEvent, t.history = e :: s.history ∧ (s.SessionInv → s.addrSel = true) ∧
      ((∃ reg n, e.txn = .read s.selA7 reg n ∧ (reg, n) ∈ rows ∧
          ∀ b, e.answer = .ok b → b.length = n) ∨
        ∃ reg b, e.txn = .write s.selA7 reg b ∧ (reg, b.length) ∈ rows)) ∧
  (∀ (s : State) (t : Txn) (n : Nat) (b : List Byte), readAnswer s t n = .ok b → b.length = n)

/-- 10_state.md rule R40 and 60_exceptions.md rule R273: a command reads only the latched copies: what
`ARG0..ARG3`, `SADDR` and `SCFG` hold while it runs changes nothing else of its next state. -/
def Obligations.CommandsReadTheLatchedCopies : Prop :=
  ∀ (i : Instr) (s t : State) (a0 a1 a2 a3 : Word) (sa : Addr7) (sc : BitVec 25),
    exec i s = .next t →
    exec i { s with arg0 := a0, arg1 := a1, arg2 := a2, arg3 := a3, saddr := sa, scfg := sc } =
      .next { t with arg0 := a0, arg1 := a1, arg2 := a2, arg3 := a3, saddr := sa, scfg := sc }

/-! ### Frames -/

/-- Frame of every command: the host's registers and the latched snapshot are unchanged (10_state.md
rules R26, R40); so are `params`, `host` and `readLog`, which are the model's own fields (logs 6, 2,
16) and not the rules'; `PERR` is changed and `ERRINFO` written only by an error (60_exceptions.md
rules R264, R265). -/
def Obligations.EveryCommandKeepsTheHostSide : Prop :=
  ∀ (i : Instr) (s t : State), exec i s = .next t →
    State.SameHostSide s t ∧
    (t.errcode = none ∨ t.seq ≠ .idle → t.errinfo = s.errinfo ∧ t.perr = s.perr)

/-- Frame of `SELECT_ADDRESS`, `REG_READ`, `REG_WRITE`, `FIELD_READ` and `FIELD_WRITE`: the session,
the calibration store and every measurement result are unchanged (70_reset_and_hazards.md rule
R303); the selection is changed by `SELECT_ADDRESS` only, `RDATA` by the two reads only, and
`SELECT_ADDRESS` makes no transaction. -/
def Obligations.RegisterCommandsFrame : Prop :=
  ∀ (s t : State) (a7 : Addr7) (reg : BitVec 3) (fld : BitVec 5),
    (exec (.selectAddress a7) s = .next t →
      State.SameSession s t ∧ State.SameResults s t ∧ State.SameBus s t ∧ t.rdata = s.rdata) ∧
    (exec (.regRead reg) s = .next t →
      State.SameSession s t ∧ State.SameResults s t ∧ State.SameSelection s t) ∧
    (exec (.regWrite reg) s = .next t →
      State.SameSession s t ∧ State.SameResults s t ∧ State.SameSelection s t ∧
      t.rdata = s.rdata) ∧
    (exec (.fieldRead fld) s = .next t →
      State.SameSession s t ∧ State.SameResults s t ∧ State.SameSelection s t) ∧
    (exec (.fieldWrite fld) s = .next t →
      State.SameSession s t ∧ State.SameResults s t ∧ State.SameSelection s t ∧
      t.rdata = s.rdata)

/-- Frame of `SETUP` (43_controller.md rules R221, R235): no result register, no carry and no data
window is changed, and in a session nothing of the session either. -/
def Obligations.SetupFrame : Prop :=
  ∀ s t : State, exec .setup s = .next t →
    State.SameResults s t ∧ t.rdata = s.rdata ∧
    (s.seq = .run .decode → s.sstate ≠ .uninitialized →
      State.SameSession s t ∧ State.SameSelection s t ∧ State.SameBus s t)

/-- Frame of the measuring commands (43_controller.md rules R226, R231 to R233): `RDATA` is unchanged,
`UPDATE` changes neither `RES` nor `ALT`, the two plain getters do not change `ALT`, and past the
implicit setup the selection, the calibration store and the mode are unchanged. -/
def Obligations.MeasuringCommandsFrame : Prop :=
  ∀ (i : Instr) (s t : State), measures i = true → exec i s = .next t →
    t.rdata = s.rdata ∧
    (i = .update → t.res = s.res ∧ t.alt = s.alt ∧ t.altValid = s.altValid) ∧
    (i = .getTemperature ∨ i = .getPressure → t.alt = s.alt ∧ t.altValid = s.altValid) ∧
    (∀ p, s.seq = .run p → p.inUpdate = true →
      State.SameSelection s t ∧ t.cal = s.cal ∧ t.calValid = s.calValid ∧ t.smode = s.smode)

/-- Frame of `COMP_T` and `COMP_P` (42_compensation.md rules R188, R189): no transaction, and session,
selection, `RDATA`, the measurement store, the altitude and the poll count are unchanged; `COMP_P`
does not change the carry. -/
def Obligations.CompensationCommandsFrame : Prop :=
  ∀ s t : State,
    (exec .compT s = .next t →
      State.SameSession s t ∧ State.SameSelection s t ∧ State.SameBus s t ∧ t.rdata = s.rdata ∧
      t.temp = s.temp ∧ t.pres = s.pres ∧ t.measValid = s.measValid ∧ t.alt = s.alt ∧
      t.altValid = s.altValid ∧ t.rawP = s.rawP ∧ t.pollcnt = s.pollcnt) ∧
    (exec .compP s = .next t →
      State.SameSession s t ∧ State.SameSelection s t ∧ State.SameBus s t ∧ t.rdata = s.rdata ∧
      t.temp = s.temp ∧ t.pres = s.pres ∧ t.measValid = s.measValid ∧ t.alt = s.alt ∧
      t.altValid = s.altValid ∧ t.rawT = s.rawT ∧ t.pollcnt = s.pollcnt ∧
      t.tfine = s.tfine ∧ t.tfineValid = s.tfineValid)
end

