-- ==== Sys2Proof/Laws/State.lean ====
section
/-!
SUPPORT. One lemma per field per update of the state, each true by rfl, so that no proof unfolds a
record update.
-/

namespace Sys2Proof.Machine

/-- An error that concerns no transaction is `raiseWith` with none. -/
@[simp] theorem State.raise_eq (s : State) (e : Err) : s.raise e = s.raiseWith e none 0 := rfl

/-- An error that concerns a transaction is `raiseWith` with it. -/
@[simp] theorem State.raiseBus_eq (s : State) (e : Err) (r : Byte) (d : Bool) (b : Byte) :
    s.raiseBus e r d b = s.raiseWith e (some { sreg := r, dir := d }) b := rfl

/-! ### `goto` -/

@[simp] theorem State.goto_saddr (s : State) (p : Phase) :
    (s.goto p).saddr = s.saddr := rfl
@[simp] theorem State.goto_scfg (s : State) (p : Phase) :
    (s.goto p).scfg = s.scfg := rfl
@[simp] theorem State.goto_arg0 (s : State) (p : Phase) :
    (s.goto p).arg0 = s.arg0 := rfl
@[simp] theorem State.goto_arg1 (s : State) (p : Phase) :
    (s.goto p).arg1 = s.arg1 := rfl
@[simp] theorem State.goto_arg2 (s : State) (p : Phase) :
    (s.goto p).arg2 = s.arg2 := rfl
@[simp] theorem State.goto_arg3 (s : State) (p : Phase) :
    (s.goto p).arg3 = s.arg3 := rfl
@[simp] theorem State.goto_errinfo (s : State) (p : Phase) :
    (s.goto p).errinfo = s.errinfo := rfl
@[simp] theorem State.goto_pollcnt (s : State) (p : Phase) :
    (s.goto p).pollcnt = s.pollcnt := rfl
@[simp] theorem State.goto_rawT (s : State) (p : Phase) :
    (s.goto p).rawT = s.rawT := rfl
@[simp] theorem State.goto_rawP (s : State) (p : Phase) :
    (s.goto p).rawP = s.rawP := rfl
@[simp] theorem State.goto_rdata (s : State) (p : Phase) :
    (s.goto p).rdata = s.rdata := rfl
@[simp] theorem State.goto_temp (s : State) (p : Phase) :
    (s.goto p).temp = s.temp := rfl
@[simp] theorem State.goto_pres (s : State) (p : Phase) :
    (s.goto p).pres = s.pres := rfl
@[simp] theorem State.goto_alt (s : State) (p : Phase) :
    (s.goto p).alt = s.alt := rfl
@[simp] theorem State.goto_res (s : State) (p : Phase) :
    (s.goto p).res = s.res := rfl
@[simp] theorem State.goto_tfine (s : State) (p : Phase) :
    (s.goto p).tfine = s.tfine := rfl
@[simp] theorem State.goto_cal (s : State) (p : Phase) :
    (s.goto p).cal = s.cal := rfl
@[simp] theorem State.goto_calValid (s : State) (p : Phase) :
    (s.goto p).calValid = s.calValid := rfl
@[simp] theorem State.goto_tfineValid (s : State) (p : Phase) :
    (s.goto p).tfineValid = s.tfineValid := rfl
@[simp] theorem State.goto_measValid (s : State) (p : Phase) :
    (s.goto p).measValid = s.measValid := rfl
@[simp] theorem State.goto_altValid (s : State) (p : Phase) :
    (s.goto p).altValid = s.altValid := rfl
@[simp] theorem State.goto_done (s : State) (p : Phase) :
    (s.goto p).done = s.done := rfl
@[simp] theorem State.goto_err (s : State) (p : Phase) :
    (s.goto p).err = s.err := rfl
@[simp] theorem State.goto_perr (s : State) (p : Phase) :
    (s.goto p).perr = s.perr := rfl
@[simp] theorem State.goto_errcode (s : State) (p : Phase) :
    (s.goto p).errcode = s.errcode := rfl
@[simp] theorem State.goto_sstate (s : State) (p : Phase) :
    (s.goto p).sstate = s.sstate := rfl
@[simp] theorem State.goto_addrSel (s : State) (p : Phase) :
    (s.goto p).addrSel = s.addrSel := rfl
@[simp] theorem State.goto_selA7 (s : State) (p : Phase) :
    (s.goto p).selA7 = s.selA7 := rfl
@[simp] theorem State.goto_smode (s : State) (p : Phase) :
    (s.goto p).smode = s.smode := rfl
@[simp] theorem State.goto_seq (s : State) (p : Phase) :
    (s.goto p).seq = .run p := rfl
@[simp] theorem State.goto_lcmd (s : State) (p : Phase) :
    (s.goto p).lcmd = s.lcmd := rfl
@[simp] theorem State.goto_larg0 (s : State) (p : Phase) :
    (s.goto p).larg0 = s.larg0 := rfl
@[simp] theorem State.goto_larg1 (s : State) (p : Phase) :
    (s.goto p).larg1 = s.larg1 := rfl
@[simp] theorem State.goto_larg2 (s : State) (p : Phase) :
    (s.goto p).larg2 = s.larg2 := rfl
@[simp] theorem State.goto_larg3 (s : State) (p : Phase) :
    (s.goto p).larg3 = s.larg3 := rfl
@[simp] theorem State.goto_lsaddr (s : State) (p : Phase) :
    (s.goto p).lsaddr = s.lsaddr := rfl
@[simp] theorem State.goto_lscfg (s : State) (p : Phase) :
    (s.goto p).lscfg = s.lscfg := rfl
@[simp] theorem State.goto_history (s : State) (p : Phase) :
    (s.goto p).history = s.history := rfl
@[simp] theorem State.goto_params (s : State) (p : Phase) :
    (s.goto p).params = s.params := rfl
@[simp] theorem State.goto_script (s : State) (p : Phase) :
    (s.goto p).script = s.script := rfl
@[simp] theorem State.goto_answered (s : State) (p : Phase) :
    (s.goto p).answered = s.answered := rfl
@[simp] theorem State.goto_host (s : State) (p : Phase) :
    (s.goto p).host = s.host := rfl
@[simp] theorem State.goto_readLog (s : State) (p : Phase) :
    (s.goto p).readLog = s.readLog := rfl

/-! ### `finish` -/

@[simp] theorem State.finish_saddr (s : State) :
    (s.finish).saddr = s.saddr := rfl
@[simp] theorem State.finish_scfg (s : State) :
    (s.finish).scfg = s.scfg := rfl
@[simp] theorem State.finish_arg0 (s : State) :
    (s.finish).arg0 = s.arg0 := rfl
@[simp] theorem State.finish_arg1 (s : State) :
    (s.finish).arg1 = s.arg1 := rfl
@[simp] theorem State.finish_arg2 (s : State) :
    (s.finish).arg2 = s.arg2 := rfl
@[simp] theorem State.finish_arg3 (s : State) :
    (s.finish).arg3 = s.arg3 := rfl
@[simp] theorem State.finish_errinfo (s : State) :
    (s.finish).errinfo = s.errinfo := rfl
@[simp] theorem State.finish_pollcnt (s : State) :
    (s.finish).pollcnt = s.pollcnt := rfl
@[simp] theorem State.finish_rawT (s : State) :
    (s.finish).rawT = s.rawT := rfl
@[simp] theorem State.finish_rawP (s : State) :
    (s.finish).rawP = s.rawP := rfl
@[simp] theorem State.finish_rdata (s : State) :
    (s.finish).rdata = s.rdata := rfl
@[simp] theorem State.finish_temp (s : State) :
    (s.finish).temp = s.temp := rfl
@[simp] theorem State.finish_pres (s : State) :
    (s.finish).pres = s.pres := rfl
@[simp] theorem State.finish_alt (s : State) :
    (s.finish).alt = s.alt := rfl
@[simp] theorem State.finish_res (s : State) :
    (s.finish).res = s.res := rfl
@[simp] theorem State.finish_tfine (s : State) :
    (s.finish).tfine = s.tfine := rfl
@[simp] theorem State.finish_cal (s : State) :
    (s.finish).cal = s.cal := rfl
@[simp] theorem State.finish_calValid (s : State) :
    (s.finish).calValid = s.calValid := rfl
@[simp] theorem State.finish_tfineValid (s : State) :
    (s.finish).tfineValid = s.tfineValid := rfl
@[simp] theorem State.finish_measValid (s : State) :
    (s.finish).measValid = s.measValid := rfl
@[simp] theorem State.finish_altValid (s : State) :
    (s.finish).altValid = s.altValid := rfl
@[simp] theorem State.finish_done (s : State) :
    (s.finish).done = true := rfl
@[simp] theorem State.finish_err (s : State) :
    (s.finish).err = false := rfl
@[simp] theorem State.finish_perr (s : State) :
    (s.finish).perr = s.perr := rfl
@[simp] theorem State.finish_errcode (s : State) :
    (s.finish).errcode = none := rfl
@[simp] theorem State.finish_sstate (s : State) :
    (s.finish).sstate = s.sstate := rfl
@[simp] theorem State.finish_addrSel (s : State) :
    (s.finish).addrSel = s.addrSel := rfl
@[simp] theorem State.finish_selA7 (s : State) :
    (s.finish).selA7 = s.selA7 := rfl
@[simp] theorem State.finish_smode (s : State) :
    (s.finish).smode = s.smode := rfl
@[simp] theorem State.finish_seq (s : State) :
    (s.finish).seq = .idle := rfl
@[simp] theorem State.finish_lcmd (s : State) :
    (s.finish).lcmd = s.lcmd := rfl
@[simp] theorem State.finish_larg0 (s : State) :
    (s.finish).larg0 = s.larg0 := rfl
@[simp] theorem State.finish_larg1 (s : State) :
    (s.finish).larg1 = s.larg1 := rfl
@[simp] theorem State.finish_larg2 (s : State) :
    (s.finish).larg2 = s.larg2 := rfl
@[simp] theorem State.finish_larg3 (s : State) :
    (s.finish).larg3 = s.larg3 := rfl
@[simp] theorem State.finish_lsaddr (s : State) :
    (s.finish).lsaddr = s.lsaddr := rfl
@[simp] theorem State.finish_lscfg (s : State) :
    (s.finish).lscfg = s.lscfg := rfl
@[simp] theorem State.finish_history (s : State) :
    (s.finish).history = s.history := rfl
@[simp] theorem State.finish_params (s : State) :
    (s.finish).params = s.params := rfl
@[simp] theorem State.finish_script (s : State) :
    (s.finish).script = s.script := rfl
@[simp] theorem State.finish_answered (s : State) :
    (s.finish).answered = s.answered := rfl
@[simp] theorem State.finish_host (s : State) :
    (s.finish).host = s.host := rfl
@[simp] theorem State.finish_readLog (s : State) :
    (s.finish).readLog = s.readLog := rfl

/-! ### `raiseWith` -/

@[simp] theorem State.raiseWith_saddr (s : State) (e : Err) (x : Option ErrXfer) (b : Byte) :
    (s.raiseWith e x b).saddr = s.saddr := rfl
@[simp] theorem State.raiseWith_scfg (s : State) (e : Err) (x : Option ErrXfer) (b : Byte) :
    (s.raiseWith e x b).scfg = s.scfg := rfl
@[simp] theorem State.raiseWith_arg0 (s : State) (e : Err) (x : Option ErrXfer) (b : Byte) :
    (s.raiseWith e x b).arg0 = s.arg0 := rfl
@[simp] theorem State.raiseWith_arg1 (s : State) (e : Err) (x : Option ErrXfer) (b : Byte) :
    (s.raiseWith e x b).arg1 = s.arg1 := rfl
@[simp] theorem State.raiseWith_arg2 (s : State) (e : Err) (x : Option ErrXfer) (b : Byte) :
    (s.raiseWith e x b).arg2 = s.arg2 := rfl
@[simp] theorem State.raiseWith_arg3 (s : State) (e : Err) (x : Option ErrXfer) (b : Byte) :
    (s.raiseWith e x b).arg3 = s.arg3 := rfl
@[simp] theorem State.raiseWith_errinfo (s : State) (e : Err) (x : Option ErrXfer) (b : Byte) :
    (s.raiseWith e x b).errinfo = errinfoOf (s.lcmd.extractLsb' 24 8) b x := rfl
@[simp] theorem State.raiseWith_pollcnt (s : State) (e : Err) (x : Option ErrXfer) (b : Byte) :
    (s.raiseWith e x b).pollcnt = s.pollcnt := rfl
@[simp] theorem State.raiseWith_rawT (s : State) (e : Err) (x : Option ErrXfer) (b : Byte) :
    (s.raiseWith e x b).rawT = s.rawT := rfl
@[simp] theorem State.raiseWith_rawP (s : State) (e : Err) (x : Option ErrXfer) (b : Byte) :
    (s.raiseWith e x b).rawP = s.rawP := rfl
@[simp] theorem State.raiseWith_rdata (s : State) (e : Err) (x : Option ErrXfer) (b : Byte) :
    (s.raiseWith e x b).rdata = s.rdata := rfl
@[simp] theorem State.raiseWith_temp (s : State) (e : Err) (x : Option ErrXfer) (b : Byte) :
    (s.raiseWith e x b).temp = s.temp := rfl
@[simp] theorem State.raiseWith_pres (s : State) (e : Err) (x : Option ErrXfer) (b : Byte) :
    (s.raiseWith e x b).pres = s.pres := rfl
@[simp] theorem State.raiseWith_alt (s : State) (e : Err) (x : Option ErrXfer) (b : Byte) :
    (s.raiseWith e x b).alt = s.alt := rfl
@[simp] theorem State.raiseWith_res (s : State) (e : Err) (x : Option ErrXfer) (b : Byte) :
    (s.raiseWith e x b).res = s.res := rfl
@[simp] theorem State.raiseWith_tfine (s : State) (e : Err) (x : Option ErrXfer) (b : Byte) :
    (s.raiseWith e x b).tfine = s.tfine := rfl
@[simp] theorem State.raiseWith_cal (s : State) (e : Err) (x : Option ErrXfer) (b : Byte) :
    (s.raiseWith e x b).cal = s.cal := rfl
@[simp] theorem State.raiseWith_calValid (s : State) (e : Err) (x : Option ErrXfer) (b : Byte) :
    (s.raiseWith e x b).calValid = s.calValid := rfl
@[simp] theorem State.raiseWith_tfineValid (s : State) (e : Err) (x : Option ErrXfer) (b : Byte) :
    (s.raiseWith e x b).tfineValid = s.tfineValid := rfl
@[simp] theorem State.raiseWith_measValid (s : State) (e : Err) (x : Option ErrXfer) (b : Byte) :
    (s.raiseWith e x b).measValid = s.measValid := rfl
@[simp] theorem State.raiseWith_altValid (s : State) (e : Err) (x : Option ErrXfer) (b : Byte) :
    (s.raiseWith e x b).altValid = s.altValid := rfl
@[simp] theorem State.raiseWith_done (s : State) (e : Err) (x : Option ErrXfer) (b : Byte) :
    (s.raiseWith e x b).done = true := rfl
@[simp] theorem State.raiseWith_err (s : State) (e : Err) (x : Option ErrXfer) (b : Byte) :
    (s.raiseWith e x b).err = true := rfl
@[simp] theorem State.raiseWith_perr (s : State) (e : Err) (x : Option ErrXfer) (b : Byte) :
    (s.raiseWith e x b).perr = (s.perr || e.setsPerr) := rfl
@[simp] theorem State.raiseWith_errcode (s : State) (e : Err) (x : Option ErrXfer) (b : Byte) :
    (s.raiseWith e x b).errcode = some e := rfl
@[simp] theorem State.raiseWith_sstate (s : State) (e : Err) (x : Option ErrXfer) (b : Byte) :
    (s.raiseWith e x b).sstate = s.sstate := rfl
@[simp] theorem State.raiseWith_addrSel (s : State) (e : Err) (x : Option ErrXfer) (b : Byte) :
    (s.raiseWith e x b).addrSel = s.addrSel := rfl
@[simp] theorem State.raiseWith_selA7 (s : State) (e : Err) (x : Option ErrXfer) (b : Byte) :
    (s.raiseWith e x b).selA7 = s.selA7 := rfl
@[simp] theorem State.raiseWith_smode (s : State) (e : Err) (x : Option ErrXfer) (b : Byte) :
    (s.raiseWith e x b).smode = s.smode := rfl
@[simp] theorem State.raiseWith_seq (s : State) (e : Err) (x : Option ErrXfer) (b : Byte) :
    (s.raiseWith e x b).seq = .idle := rfl
@[simp] theorem State.raiseWith_lcmd (s : State) (e : Err) (x : Option ErrXfer) (b : Byte) :
    (s.raiseWith e x b).lcmd = s.lcmd := rfl
@[simp] theorem State.raiseWith_larg0 (s : State) (e : Err) (x : Option ErrXfer) (b : Byte) :
    (s.raiseWith e x b).larg0 = s.larg0 := rfl
@[simp] theorem State.raiseWith_larg1 (s : State) (e : Err) (x : Option ErrXfer) (b : Byte) :
    (s.raiseWith e x b).larg1 = s.larg1 := rfl
@[simp] theorem State.raiseWith_larg2 (s : State) (e : Err) (x : Option ErrXfer) (b : Byte) :
    (s.raiseWith e x b).larg2 = s.larg2 := rfl
@[simp] theorem State.raiseWith_larg3 (s : State) (e : Err) (x : Option ErrXfer) (b : Byte) :
    (s.raiseWith e x b).larg3 = s.larg3 := rfl
@[simp] theorem State.raiseWith_lsaddr (s : State) (e : Err) (x : Option ErrXfer) (b : Byte) :
    (s.raiseWith e x b).lsaddr = s.lsaddr := rfl
@[simp] theorem State.raiseWith_lscfg (s : State) (e : Err) (x : Option ErrXfer) (b : Byte) :
    (s.raiseWith e x b).lscfg = s.lscfg := rfl
@[simp] theorem State.raiseWith_history (s : State) (e : Err) (x : Option ErrXfer) (b : Byte) :
    (s.raiseWith e x b).history = s.history := rfl
@[simp] theorem State.raiseWith_params (s : State) (e : Err) (x : Option ErrXfer) (b : Byte) :
    (s.raiseWith e x b).params = s.params := rfl
@[simp] theorem State.raiseWith_script (s : State) (e : Err) (x : Option ErrXfer) (b : Byte) :
    (s.raiseWith e x b).script = s.script := rfl
@[simp] theorem State.raiseWith_answered (s : State) (e : Err) (x : Option ErrXfer) (b : Byte) :
    (s.raiseWith e x b).answered = s.answered := rfl
@[simp] theorem State.raiseWith_host (s : State) (e : Err) (x : Option ErrXfer) (b : Byte) :
    (s.raiseWith e x b).host = s.host := rfl
@[simp] theorem State.raiseWith_readLog (s : State) (e : Err) (x : Option ErrXfer) (b : Byte) :
    (s.raiseWith e x b).readLog = s.readLog := rfl

/-! ### `accept` -/

@[simp] theorem State.accept_saddr (s : State) (w : Word) :
    (s.accept w).saddr = s.saddr := rfl
@[simp] theorem State.accept_scfg (s : State) (w : Word) :
    (s.accept w).scfg = s.scfg := rfl
@[simp] theorem State.accept_arg0 (s : State) (w : Word) :
    (s.accept w).arg0 = s.arg0 := rfl
@[simp] theorem State.accept_arg1 (s : State) (w : Word) :
    (s.accept w).arg1 = s.arg1 := rfl
@[simp] theorem State.accept_arg2 (s : State) (w : Word) :
    (s.accept w).arg2 = s.arg2 := rfl
@[simp] theorem State.accept_arg3 (s : State) (w : Word) :
    (s.accept w).arg3 = s.arg3 := rfl
@[simp] theorem State.accept_errinfo (s : State) (w : Word) :
    (s.accept w).errinfo = 0 := rfl
@[simp] theorem State.accept_pollcnt (s : State) (w : Word) :
    (s.accept w).pollcnt = s.pollcnt := rfl
@[simp] theorem State.accept_rawT (s : State) (w : Word) :
    (s.accept w).rawT = s.rawT := rfl
@[simp] theorem State.accept_rawP (s : State) (w : Word) :
    (s.accept w).rawP = s.rawP := rfl
@[simp] theorem State.accept_rdata (s : State) (w : Word) :
    (s.accept w).rdata = s.rdata := rfl
@[simp] theorem State.accept_temp (s : State) (w : Word) :
    (s.accept w).temp = s.temp := rfl
@[simp] theorem State.accept_pres (s : State) (w : Word) :
    (s.accept w).pres = s.pres := rfl
@[simp] theorem State.accept_alt (s : State) (w : Word) :
    (s.accept w).alt = s.alt := rfl
@[simp] theorem State.accept_res (s : State) (w : Word) :
    (s.accept w).res = s.res := rfl
@[simp] theorem State.accept_tfine (s : State) (w : Word) :
    (s.accept w).tfine = s.tfine := rfl
@[simp] theorem State.accept_cal (s : State) (w : Word) :
    (s.accept w).cal = s.cal := rfl
@[simp] theorem State.accept_calValid (s : State) (w : Word) :
    (s.accept w).calValid = s.calValid := rfl
@[simp] theorem State.accept_tfineValid (s : State) (w : Word) :
    (s.accept w).tfineValid = s.tfineValid := rfl
@[simp] theorem State.accept_measValid (s : State) (w : Word) :
    (s.accept w).measValid = s.measValid := rfl
@[simp] theorem State.accept_altValid (s : State) (w : Word) :
    (s.accept w).altValid = s.altValid := rfl
@[simp] theorem State.accept_done (s : State) (w : Word) :
    (s.accept w).done = false := rfl
@[simp] theorem State.accept_err (s : State) (w : Word) :
    (s.accept w).err = false := rfl
@[simp] theorem State.accept_perr (s : State) (w : Word) :
    (s.accept w).perr = s.perr := rfl
@[simp] theorem State.accept_errcode (s : State) (w : Word) :
    (s.accept w).errcode = none := rfl
@[simp] theorem State.accept_sstate (s : State) (w : Word) :
    (s.accept w).sstate = s.sstate := rfl
@[simp] theorem State.accept_addrSel (s : State) (w : Word) :
    (s.accept w).addrSel = s.addrSel := rfl
@[simp] theorem State.accept_selA7 (s : State) (w : Word) :
    (s.accept w).selA7 = s.selA7 := rfl
@[simp] theorem State.accept_smode (s : State) (w : Word) :
    (s.accept w).smode = s.smode := rfl
@[simp] theorem State.accept_seq (s : State) (w : Word) :
    (s.accept w).seq = .run .decode := rfl
@[simp] theorem State.accept_lcmd (s : State) (w : Word) :
    (s.accept w).lcmd = w := rfl
@[simp] theorem State.accept_larg0 (s : State) (w : Word) :
    (s.accept w).larg0 = s.arg0 := rfl
@[simp] theorem State.accept_larg1 (s : State) (w : Word) :
    (s.accept w).larg1 = s.arg1 := rfl
@[simp] theorem State.accept_larg2 (s : State) (w : Word) :
    (s.accept w).larg2 = s.arg2 := rfl
@[simp] theorem State.accept_larg3 (s : State) (w : Word) :
    (s.accept w).larg3 = s.arg3 := rfl
@[simp] theorem State.accept_lsaddr (s : State) (w : Word) :
    (s.accept w).lsaddr = s.saddr := rfl
@[simp] theorem State.accept_lscfg (s : State) (w : Word) :
    (s.accept w).lscfg = s.scfg := rfl
@[simp] theorem State.accept_history (s : State) (w : Word) :
    (s.accept w).history = s.history := rfl
@[simp] theorem State.accept_params (s : State) (w : Word) :
    (s.accept w).params = s.params := rfl
@[simp] theorem State.accept_script (s : State) (w : Word) :
    (s.accept w).script = s.script := rfl
@[simp] theorem State.accept_answered (s : State) (w : Word) :
    (s.accept w).answered = s.answered := rfl
@[simp] theorem State.accept_host (s : State) (w : Word) :
    (s.accept w).host = s.host := rfl
@[simp] theorem State.accept_readLog (s : State) (w : Word) :
    (s.accept w).readLog = s.readLog := rfl

/-! ### `record` -/

@[simp] theorem State.record_saddr (s : State) (t : Txn) (a : Answer) :
    (s.record t a).saddr = s.saddr := rfl
@[simp] theorem State.record_scfg (s : State) (t : Txn) (a : Answer) :
    (s.record t a).scfg = s.scfg := rfl
@[simp] theorem State.record_arg0 (s : State) (t : Txn) (a : Answer) :
    (s.record t a).arg0 = s.arg0 := rfl
@[simp] theorem State.record_arg1 (s : State) (t : Txn) (a : Answer) :
    (s.record t a).arg1 = s.arg1 := rfl
@[simp] theorem State.record_arg2 (s : State) (t : Txn) (a : Answer) :
    (s.record t a).arg2 = s.arg2 := rfl
@[simp] theorem State.record_arg3 (s : State) (t : Txn) (a : Answer) :
    (s.record t a).arg3 = s.arg3 := rfl
@[simp] theorem State.record_errinfo (s : State) (t : Txn) (a : Answer) :
    (s.record t a).errinfo = s.errinfo := rfl
@[simp] theorem State.record_pollcnt (s : State) (t : Txn) (a : Answer) :
    (s.record t a).pollcnt = s.pollcnt := rfl
@[simp] theorem State.record_rawT (s : State) (t : Txn) (a : Answer) :
    (s.record t a).rawT = s.rawT := rfl
@[simp] theorem State.record_rawP (s : State) (t : Txn) (a : Answer) :
    (s.record t a).rawP = s.rawP := rfl
@[simp] theorem State.record_rdata (s : State) (t : Txn) (a : Answer) :
    (s.record t a).rdata = s.rdata := rfl
@[simp] theorem State.record_temp (s : State) (t : Txn) (a : Answer) :
    (s.record t a).temp = s.temp := rfl
@[simp] theorem State.record_pres (s : State) (t : Txn) (a : Answer) :
    (s.record t a).pres = s.pres := rfl
@[simp] theorem State.record_alt (s : State) (t : Txn) (a : Answer) :
    (s.record t a).alt = s.alt := rfl
@[simp] theorem State.record_res (s : State) (t : Txn) (a : Answer) :
    (s.record t a).res = s.res := rfl
@[simp] theorem State.record_tfine (s : State) (t : Txn) (a : Answer) :
    (s.record t a).tfine = s.tfine := rfl
@[simp] theorem State.record_cal (s : State) (t : Txn) (a : Answer) :
    (s.record t a).cal = s.cal := rfl
@[simp] theorem State.record_calValid (s : State) (t : Txn) (a : Answer) :
    (s.record t a).calValid = s.calValid := rfl
@[simp] theorem State.record_tfineValid (s : State) (t : Txn) (a : Answer) :
    (s.record t a).tfineValid = s.tfineValid := rfl
@[simp] theorem State.record_measValid (s : State) (t : Txn) (a : Answer) :
    (s.record t a).measValid = s.measValid := rfl
@[simp] theorem State.record_altValid (s : State) (t : Txn) (a : Answer) :
    (s.record t a).altValid = s.altValid := rfl
@[simp] theorem State.record_done (s : State) (t : Txn) (a : Answer) :
    (s.record t a).done = s.done := rfl
@[simp] theorem State.record_err (s : State) (t : Txn) (a : Answer) :
    (s.record t a).err = s.err := rfl
@[simp] theorem State.record_perr (s : State) (t : Txn) (a : Answer) :
    (s.record t a).perr = s.perr := rfl
@[simp] theorem State.record_errcode (s : State) (t : Txn) (a : Answer) :
    (s.record t a).errcode = s.errcode := rfl
@[simp] theorem State.record_sstate (s : State) (t : Txn) (a : Answer) :
    (s.record t a).sstate = s.sstate := rfl
@[simp] theorem State.record_addrSel (s : State) (t : Txn) (a : Answer) :
    (s.record t a).addrSel = s.addrSel := rfl
@[simp] theorem State.record_selA7 (s : State) (t : Txn) (a : Answer) :
    (s.record t a).selA7 = s.selA7 := rfl
@[simp] theorem State.record_smode (s : State) (t : Txn) (a : Answer) :
    (s.record t a).smode = s.smode := rfl
@[simp] theorem State.record_seq (s : State) (t : Txn) (a : Answer) :
    (s.record t a).seq = s.seq := rfl
@[simp] theorem State.record_lcmd (s : State) (t : Txn) (a : Answer) :
    (s.record t a).lcmd = s.lcmd := rfl
@[simp] theorem State.record_larg0 (s : State) (t : Txn) (a : Answer) :
    (s.record t a).larg0 = s.larg0 := rfl
@[simp] theorem State.record_larg1 (s : State) (t : Txn) (a : Answer) :
    (s.record t a).larg1 = s.larg1 := rfl
@[simp] theorem State.record_larg2 (s : State) (t : Txn) (a : Answer) :
    (s.record t a).larg2 = s.larg2 := rfl
@[simp] theorem State.record_larg3 (s : State) (t : Txn) (a : Answer) :
    (s.record t a).larg3 = s.larg3 := rfl
@[simp] theorem State.record_lsaddr (s : State) (t : Txn) (a : Answer) :
    (s.record t a).lsaddr = s.lsaddr := rfl
@[simp] theorem State.record_lscfg (s : State) (t : Txn) (a : Answer) :
    (s.record t a).lscfg = s.lscfg := rfl
@[simp] theorem State.record_history (s : State) (t : Txn) (a : Answer) :
    (s.record t a).history = { txn := t, answer := a } :: s.history := rfl
@[simp] theorem State.record_params (s : State) (t : Txn) (a : Answer) :
    (s.record t a).params = s.params := rfl
@[simp] theorem State.record_script (s : State) (t : Txn) (a : Answer) :
    (s.record t a).script = s.script.tail := rfl
@[simp] theorem State.record_answered (s : State) (t : Txn) (a : Answer) :
    (s.record t a).answered = s.answered + 1 := rfl
@[simp] theorem State.record_host (s : State) (t : Txn) (a : Answer) :
    (s.record t a).host = s.host := rfl
@[simp] theorem State.record_readLog (s : State) (t : Txn) (a : Answer) :
    (s.record t a).readLog = s.readLog := rfl

/-! ### `configured` -/

@[simp] theorem State.configured_saddr (s : State) (c : Coeffs) (m : Mode) :
    (s.configured c m).saddr = s.saddr := rfl
@[simp] theorem State.configured_scfg (s : State) (c : Coeffs) (m : Mode) :
    (s.configured c m).scfg = s.scfg := rfl
@[simp] theorem State.configured_arg0 (s : State) (c : Coeffs) (m : Mode) :
    (s.configured c m).arg0 = s.arg0 := rfl
@[simp] theorem State.configured_arg1 (s : State) (c : Coeffs) (m : Mode) :
    (s.configured c m).arg1 = s.arg1 := rfl
@[simp] theorem State.configured_arg2 (s : State) (c : Coeffs) (m : Mode) :
    (s.configured c m).arg2 = s.arg2 := rfl
@[simp] theorem State.configured_arg3 (s : State) (c : Coeffs) (m : Mode) :
    (s.configured c m).arg3 = s.arg3 := rfl
@[simp] theorem State.configured_errinfo (s : State) (c : Coeffs) (m : Mode) :
    (s.configured c m).errinfo = s.errinfo := rfl
@[simp] theorem State.configured_pollcnt (s : State) (c : Coeffs) (m : Mode) :
    (s.configured c m).pollcnt = s.pollcnt := rfl
@[simp] theorem State.configured_rawT (s : State) (c : Coeffs) (m : Mode) :
    (s.configured c m).rawT = s.rawT := rfl
@[simp] theorem State.configured_rawP (s : State) (c : Coeffs) (m : Mode) :
    (s.configured c m).rawP = s.rawP := rfl
@[simp] theorem State.configured_rdata (s : State) (c : Coeffs) (m : Mode) :
    (s.configured c m).rdata = s.rdata := rfl
@[simp] theorem State.configured_temp (s : State) (c : Coeffs) (m : Mode) :
    (s.configured c m).temp = s.temp := rfl
@[simp] theorem State.configured_pres (s : State) (c : Coeffs) (m : Mode) :
    (s.configured c m).pres = s.pres := rfl
@[simp] theorem State.configured_alt (s : State) (c : Coeffs) (m : Mode) :
    (s.configured c m).alt = s.alt := rfl
@[simp] theorem State.configured_res (s : State) (c : Coeffs) (m : Mode) :
    (s.configured c m).res = s.res := rfl
@[simp] theorem State.configured_tfine (s : State) (c : Coeffs) (m : Mode) :
    (s.configured c m).tfine = s.tfine := rfl
@[simp] theorem State.configured_cal (s : State) (c : Coeffs) (m : Mode) :
    (s.configured c m).cal = c := rfl
@[simp] theorem State.configured_calValid (s : State) (c : Coeffs) (m : Mode) :
    (s.configured c m).calValid = true := rfl
@[simp] theorem State.configured_tfineValid (s : State) (c : Coeffs) (m : Mode) :
    (s.configured c m).tfineValid = s.tfineValid := rfl
@[simp] theorem State.configured_measValid (s : State) (c : Coeffs) (m : Mode) :
    (s.configured c m).measValid = s.measValid := rfl
@[simp] theorem State.configured_altValid (s : State) (c : Coeffs) (m : Mode) :
    (s.configured c m).altValid = s.altValid := rfl
@[simp] theorem State.configured_done (s : State) (c : Coeffs) (m : Mode) :
    (s.configured c m).done = s.done := rfl
@[simp] theorem State.configured_err (s : State) (c : Coeffs) (m : Mode) :
    (s.configured c m).err = s.err := rfl
@[simp] theorem State.configured_perr (s : State) (c : Coeffs) (m : Mode) :
    (s.configured c m).perr = s.perr := rfl
@[simp] theorem State.configured_errcode (s : State) (c : Coeffs) (m : Mode) :
    (s.configured c m).errcode = s.errcode := rfl
@[simp] theorem State.configured_sstate (s : State) (c : Coeffs) (m : Mode) :
    (s.configured c m).sstate = .idle := rfl
@[simp] theorem State.configured_addrSel (s : State) (c : Coeffs) (m : Mode) :
    (s.configured c m).addrSel = s.addrSel := rfl
@[simp] theorem State.configured_selA7 (s : State) (c : Coeffs) (m : Mode) :
    (s.configured c m).selA7 = s.selA7 := rfl
@[simp] theorem State.configured_smode (s : State) (c : Coeffs) (m : Mode) :
    (s.configured c m).smode = m := rfl
@[simp] theorem State.configured_seq (s : State) (c : Coeffs) (m : Mode) :
    (s.configured c m).seq = s.seq := rfl
@[simp] theorem State.configured_lcmd (s : State) (c : Coeffs) (m : Mode) :
    (s.configured c m).lcmd = s.lcmd := rfl
@[simp] theorem State.configured_larg0 (s : State) (c : Coeffs) (m : Mode) :
    (s.configured c m).larg0 = s.larg0 := rfl
@[simp] theorem State.configured_larg1 (s : State) (c : Coeffs) (m : Mode) :
    (s.configured c m).larg1 = s.larg1 := rfl
@[simp] theorem State.configured_larg2 (s : State) (c : Coeffs) (m : Mode) :
    (s.configured c m).larg2 = s.larg2 := rfl
@[simp] theorem State.configured_larg3 (s : State) (c : Coeffs) (m : Mode) :
    (s.configured c m).larg3 = s.larg3 := rfl
@[simp] theorem State.configured_lsaddr (s : State) (c : Coeffs) (m : Mode) :
    (s.configured c m).lsaddr = s.lsaddr := rfl
@[simp] theorem State.configured_lscfg (s : State) (c : Coeffs) (m : Mode) :
    (s.configured c m).lscfg = s.lscfg := rfl
@[simp] theorem State.configured_history (s : State) (c : Coeffs) (m : Mode) :
    (s.configured c m).history = s.history := rfl
@[simp] theorem State.configured_params (s : State) (c : Coeffs) (m : Mode) :
    (s.configured c m).params = s.params := rfl
@[simp] theorem State.configured_script (s : State) (c : Coeffs) (m : Mode) :
    (s.configured c m).script = s.script := rfl
@[simp] theorem State.configured_answered (s : State) (c : Coeffs) (m : Mode) :
    (s.configured c m).answered = s.answered := rfl
@[simp] theorem State.configured_host (s : State) (c : Coeffs) (m : Mode) :
    (s.configured c m).host = s.host := rfl
@[simp] theorem State.configured_readLog (s : State) (c : Coeffs) (m : Mode) :
    (s.configured c m).readLog = s.readLog := rfl

/-! ### `measured` -/

@[simp] theorem State.measured_saddr (s : State) (raw : Raw) :
    (s.measured raw).saddr = s.saddr := rfl
@[simp] theorem State.measured_scfg (s : State) (raw : Raw) :
    (s.measured raw).scfg = s.scfg := rfl
@[simp] theorem State.measured_arg0 (s : State) (raw : Raw) :
    (s.measured raw).arg0 = s.arg0 := rfl
@[simp] theorem State.measured_arg1 (s : State) (raw : Raw) :
    (s.measured raw).arg1 = s.arg1 := rfl
@[simp] theorem State.measured_arg2 (s : State) (raw : Raw) :
    (s.measured raw).arg2 = s.arg2 := rfl
@[simp] theorem State.measured_arg3 (s : State) (raw : Raw) :
    (s.measured raw).arg3 = s.arg3 := rfl
@[simp] theorem State.measured_errinfo (s : State) (raw : Raw) :
    (s.measured raw).errinfo = s.errinfo := rfl
@[simp] theorem State.measured_pollcnt (s : State) (raw : Raw) :
    (s.measured raw).pollcnt = s.pollcnt := rfl
@[simp] theorem State.measured_rawT (s : State) (raw : Raw) :
    (s.measured raw).rawT = dataRawT raw := rfl
@[simp] theorem State.measured_rawP (s : State) (raw : Raw) :
    (s.measured raw).rawP = dataRawP raw := rfl
@[simp] theorem State.measured_rdata (s : State) (raw : Raw) :
    (s.measured raw).rdata = s.rdata := rfl
@[simp] theorem State.measured_temp (s : State) (raw : Raw) :
    (s.measured raw).temp =
      tempOfFine s.params.num (compTFine s.params.num s.cal (dataRawT raw)) := rfl
@[simp] theorem State.measured_pres (s : State) (raw : Raw) :
    (s.measured raw).pres = toHPa s.params.num
      (compP s.params.num s.cal (dataRawP raw) (compTFine s.params.num s.cal (dataRawT raw))) := rfl
@[simp] theorem State.measured_alt (s : State) (raw : Raw) :
    (s.measured raw).alt = s.alt := rfl
@[simp] theorem State.measured_res (s : State) (raw : Raw) :
    (s.measured raw).res = s.res := rfl
@[simp] theorem State.measured_tfine (s : State) (raw : Raw) :
    (s.measured raw).tfine = compTFine s.params.num s.cal (dataRawT raw) := rfl
@[simp] theorem State.measured_cal (s : State) (raw : Raw) :
    (s.measured raw).cal = s.cal := rfl
@[simp] theorem State.measured_calValid (s : State) (raw : Raw) :
    (s.measured raw).calValid = s.calValid := rfl
@[simp] theorem State.measured_tfineValid (s : State) (raw : Raw) :
    (s.measured raw).tfineValid = true := rfl
@[simp] theorem State.measured_measValid (s : State) (raw : Raw) :
    (s.measured raw).measValid = true := rfl
@[simp] theorem State.measured_altValid (s : State) (raw : Raw) :
    (s.measured raw).altValid = s.altValid := rfl
@[simp] theorem State.measured_done (s : State) (raw : Raw) :
    (s.measured raw).done = s.done := rfl
@[simp] theorem State.measured_err (s : State) (raw : Raw) :
    (s.measured raw).err = s.err := rfl
@[simp] theorem State.measured_perr (s : State) (raw : Raw) :
    (s.measured raw).perr = s.perr := rfl
@[simp] theorem State.measured_errcode (s : State) (raw : Raw) :
    (s.measured raw).errcode = s.errcode := rfl
@[simp] theorem State.measured_sstate (s : State) (raw : Raw) :
    (s.measured raw).sstate = s.sstate := rfl
@[simp] theorem State.measured_addrSel (s : State) (raw : Raw) :
    (s.measured raw).addrSel = s.addrSel := rfl
@[simp] theorem State.measured_selA7 (s : State) (raw : Raw) :
    (s.measured raw).selA7 = s.selA7 := rfl
@[simp] theorem State.measured_smode (s : State) (raw : Raw) :
    (s.measured raw).smode = s.smode := rfl
@[simp] theorem State.measured_seq (s : State) (raw : Raw) :
    (s.measured raw).seq = s.seq := rfl
@[simp] theorem State.measured_lcmd (s : State) (raw : Raw) :
    (s.measured raw).lcmd = s.lcmd := rfl
@[simp] theorem State.measured_larg0 (s : State) (raw : Raw) :
    (s.measured raw).larg0 = s.larg0 := rfl
@[simp] theorem State.measured_larg1 (s : State) (raw : Raw) :
    (s.measured raw).larg1 = s.larg1 := rfl
@[simp] theorem State.measured_larg2 (s : State) (raw : Raw) :
    (s.measured raw).larg2 = s.larg2 := rfl
@[simp] theorem State.measured_larg3 (s : State) (raw : Raw) :
    (s.measured raw).larg3 = s.larg3 := rfl
@[simp] theorem State.measured_lsaddr (s : State) (raw : Raw) :
    (s.measured raw).lsaddr = s.lsaddr := rfl
@[simp] theorem State.measured_lscfg (s : State) (raw : Raw) :
    (s.measured raw).lscfg = s.lscfg := rfl
@[simp] theorem State.measured_history (s : State) (raw : Raw) :
    (s.measured raw).history = s.history := rfl
@[simp] theorem State.measured_params (s : State) (raw : Raw) :
    (s.measured raw).params = s.params := rfl
@[simp] theorem State.measured_script (s : State) (raw : Raw) :
    (s.measured raw).script = s.script := rfl
@[simp] theorem State.measured_answered (s : State) (raw : Raw) :
    (s.measured raw).answered = s.answered := rfl
@[simp] theorem State.measured_host (s : State) (raw : Raw) :
    (s.measured raw).host = s.host := rfl
@[simp] theorem State.measured_readLog (s : State) (raw : Raw) :
    (s.measured raw).readLog = s.readLog := rfl

/-- A block is busy exactly when its sequencer is not idle (10_state.md rule R40). -/
theorem State.busy_iff (s : State) : s.busy = true ↔ s.seq ≠ .idle := by
  unfold State.busy
  split <;> simp [*]

/-- A running sequencer is busy. -/
theorem State.busy_of_run (s : State) (p : Phase) (h : s.seq = .run p) : s.busy = true := by
  simp [State.busy, h]

/-- An idle sequencer is not busy. -/
theorem State.busy_of_idle (s : State) (h : s.seq = .idle) : s.busy = false := by
  simp [State.busy, h]

end Sys2Proof.Machine
end

