-- ==== Sys2Proof/Laws/Ops.lean ====
section
/-!
SUPPORT. What each shared operation can do, said once.
-/

namespace Sys2Proof.Machine

/-! ### Bus transactions -/

/-- An answer to a read of `n` bytes carries `n` bytes. -/
theorem readAnswer_ok_length (s : State) (t : Txn) (n : Nat) (b : List Byte)
    (h : readAnswer s t n = .ok b) : b.length = n := by
  have free : ∀ b, freeReadAnswer s t n = .ok b → b.length = n := by
    intro b hb
    unfold freeReadAnswer at hb
    split at hb
    · cases hb
    · injection hb with hb
      simp [← hb]
  unfold readAnswer at h
  split at h
  · cases h
  · split at h
    · injection h with h
      subst h
      assumption
    · exact free b h
  · exact free b h

/-- A given answer of the right length is the sensor's answer to a read. -/
theorem readAnswer_given (s : State) (t : Txn) (n : Nat) (b : List Byte) (rest : List Answer)
    (hs : s.script = .ok b :: rest) (hn : b.length = n) : readAnswer s t n = .ok b := by
  simp [readAnswer, hs, hn]

/-- A given failure is the sensor's answer to a read. -/
theorem readAnswer_nack (s : State) (t : Txn) (n : Nat) (rest : List Answer)
    (hs : s.script = .nack :: rest) : readAnswer s t n = .nack := by
  simp [readAnswer, hs]

/-- A given success is the sensor's answer to a write. -/
theorem writeAnswer_given (s : State) (t : Txn) (b : List Byte) (rest : List Answer)
    (hs : s.script = .ok b :: rest) : writeAnswer s t = .ok [] := by
  simp [writeAnswer, hs]

/-- A given failure is the sensor's answer to a write. -/
theorem writeAnswer_nack (s : State) (t : Txn) (rest : List Answer)
    (hs : s.script = .nack :: rest) : writeAnswer s t = .nack := by
  simp [writeAnswer, hs]

/-- Everything a read step can do: it raises `BUS_ERROR`, or it goes on with the assembled value. -/
theorem memRead_cases (s : State) (reg : Byte) (n : Nat) (k : State → Raw → Progress) :
    (readAnswer s (s.readTxn reg n) n = .nack ∧
      memRead s reg n k =
        .ends ((s.record (s.readTxn reg n) .nack).raiseBus .busError reg false 0)) ∨
    ∃ b, readAnswer s (s.readTxn reg n) n = .ok b ∧
      memRead s reg n k = k (s.record (s.readTxn reg n) (.ok b)) (assemble b) := by
  unfold memRead busRead
  cases h : readAnswer s (s.readTxn reg n) n with
  | nack => exact .inl ⟨rfl, rfl⟩
  | ok b => exact .inr ⟨b, rfl, rfl⟩

/-- Everything a write step can do: it raises `BUS_ERROR`, or it goes on. -/
theorem memWrite_cases (s : State) (reg : Byte) (b : List Byte) (k : State → Progress) :
    (writeAnswer s (s.writeTxn reg b) = .nack ∧
      memWrite s reg b k =
        .ends ((s.record (s.writeTxn reg b) .nack).raiseBus .busError reg true 0)) ∨
    ∃ c, writeAnswer s (s.writeTxn reg b) = .ok c ∧
      memWrite s reg b k = k (s.record (s.writeTxn reg b) (.ok c)) := by
  unfold memWrite busWrite
  cases h : writeAnswer s (s.writeTxn reg b) with
  | nack => exact .inl ⟨rfl, rfl⟩
  | ok c => exact .inr ⟨c, rfl, rfl⟩

/-- A read step that is answered. -/
theorem memRead_ok (s : State) (reg : Byte) (n : Nat) (k : State → Raw → Progress) (b : List Byte)
    (h : readAnswer s (s.readTxn reg n) n = .ok b) :
    memRead s reg n k = k (s.record (s.readTxn reg n) (.ok b)) (assemble b) := by
  simp [memRead, busRead, h]

/-- A read step that fails. -/
theorem memRead_nack (s : State) (reg : Byte) (n : Nat) (k : State → Raw → Progress)
    (h : readAnswer s (s.readTxn reg n) n = .nack) :
    memRead s reg n k =
      .ends ((s.record (s.readTxn reg n) .nack).raiseBus .busError reg false 0) := by
  simp [memRead, busRead, h]

/-- A write step that is answered. -/
theorem memWrite_ok (s : State) (reg : Byte) (b c : List Byte) (k : State → Progress)
    (h : writeAnswer s (s.writeTxn reg b) = .ok c) :
    memWrite s reg b k = k (s.record (s.writeTxn reg b) (.ok c)) := by
  simp [memWrite, busWrite, h]

/-- A write step that fails. -/
theorem memWrite_nack (s : State) (reg : Byte) (b : List Byte) (k : State → Progress)
    (h : writeAnswer s (s.writeTxn reg b) = .nack) :
    memWrite s reg b k =
      .ends ((s.record (s.writeTxn reg b) .nack).raiseBus .busError reg true 0) := by
  simp [memWrite, busWrite, h]

/-- A step that answers a next state is over there, or its procedure returned and the command
finished. -/
theorem complete_next (p : Progress) (f : State → State) (t : State)
    (h : p.complete f = .next t) :
    p = .ends t ∨ ∃ s, p = .returned s ∧ t = (f s).finish := by
  cases p with
  | ends s => injection h with h; exact .inl (by rw [h])
  | returned s => injection h with h; exact .inr ⟨s, rfl, h.symm⟩
  | stray => cases h

/-- A step that does not stray answers a next state. -/
theorem complete_next_of_ne_stray (p : Progress) (f : State → State) (h : p ≠ .stray) :
    ∃ t, p.complete f = .next t := by
  cases p with
  | ends s => exact ⟨s, rfl⟩
  | returned s => exact ⟨(f s).finish, rfl⟩
  | stray => exact absurd rfl h

/-! ### Operands -/

/-- A `REG` operand past the table names no register. -/
theorem regAt_none (reg : BitVec 3) (h : 5 < reg.toNat) : regAt reg = none := by
  revert reg
  decide

/-- An `FLD` operand past the table names no field. -/
theorem fieldAt_none (fld : BitVec 5) (h : 22 < fld.toNat) : fieldAt fld = none := by
  have key : ∀ fld : BitVec 5, 22 < fld.toNat → (fieldAt fld).isNone = true := by decide
  simpa using key fld h

/-- The registers with a writable field. -/
theorem writable_iff (r : RegId) : r.writable = true ↔ r = .ctrlMeas ∨ r = .config := by
  cases r <;> decide

/-- A register value has as many bytes as are asked for. -/
@[simp] theorem bytesOf_length (n : Nat) (raw : Raw) : (bytesOf n raw).length = n := by
  simp [bytesOf]

/-- The byte of a one-byte register. -/
theorem byte0_assemble_one (b : Byte) : byte0 (assemble [b]) = b := by
  simp only [byte0, assemble, List.foldl]
  ext j hj
  have : j < 192 := by omega
  simp [this, BitVec.getLsbD_eq_getElem hj]

/-- The measuring bit of a status byte. -/
theorem measuringBit_assemble_one (b : Byte) : measuringBit (assemble [b]) = b.getLsbD 3 := by
  simp [measuringBit, assemble]

/-- Under `LSB_FIRST` a coefficient's two bytes are exchanged. -/
theorem coeffWord_lsbFirst (hi lo : Byte) : coeffWord .lsbFirst (hi ++ lo) = lo ++ hi := by
  simp only [coeffWord]
  congr 1 <;> ext i h
  · have := BitVec.getLsbD_append (x := hi) (y := lo) (i := i)
    simp_all
  · have := BitVec.getLsbD_append (x := hi) (y := lo) (i := 8 + i)
    simp_all

/-- The two words of a binary64 value, joined, are the value. -/
@[simp] theorem f64OfWords_words (x : F64) : f64OfWords (hiWord x) (loWord x) = x := by
  apply BitVec.eq_of_toNat_eq
  simp only [f64OfWords, hiWord, loWord, BitVec.toNat_append, BitVec.extractLsb'_toNat]
  rw [← Nat.shiftLeft_add_eq_or_of_lt (Nat.mod_lt _ (by decide)), Nat.shiftLeft_eq,
    Nat.shiftRight_eq_div_pow]
  have := x.isLt
  omega

/-! ### Moves -/

/-- A command is run only while the sequencer is busy, and the move before it changes no more than
the host's list, or accepts a command. -/
theorem nextMove_command (s t : State) (h : nextMove s = .command t) :
    t.busy = true ∧ (t = s ∨ (∃ rest, t = { s with host := rest }) ∨
      ∃ rest w, s.busy = false ∧ t = { s with host := rest }.accept w) := by
  unfold nextMove at h
  split at h
  · unfold sequencerTurn at h
    split at h
    · injection h with h; subst h; exact ⟨by assumption, .inl rfl⟩
    · cases h
  · rename_i rest _
    unfold sequencerTurn at h
    split at h
    · injection h with h; subst h; exact ⟨by assumption, .inr (.inl ⟨rest, rfl⟩)⟩
    · cases h
  · split at h
    · injection h with h; subst h; exact ⟨by assumption, .inl rfl⟩
    · cases h
  · cases h
  · split at h <;> cases h
  · rename_i rest _
    split at h
    · cases h
    · unfold hostWrite at h
      split at h
      · split at h
        · cases h
        · rename_i hb
          injection h with h
          subst h
          exact ⟨rfl, .inr (.inr ⟨rest, _, Bool.eq_false_iff.mpr hb, rfl⟩)⟩
      · cases h

/-! ### Floating point -/

/-- A NaN result is a NaN. -/
theorem isNaN_nanOf (op : FOp) (a b : F64) : isNaN (nanOf op a b) = true := by
  unfold nanOf
  simp only
  split
  · assumption
  · decide

/-- Everything `POW` can answer: a NaN on a NaN or negative finite base, a NaN or `+inf` on negative
infinity, the fixed values on zeros, 1 and positive infinity, and the open function elsewhere. -/
theorem powWith_cases (pow : F64 → F64 → F64) (x y : F64) :
    ((unpack x = .nan ∨ ∃ m e, m ≠ 0 ∧ unpack x = .fin true m e) ∧
      isNaN (powWith pow x y) = true) ∨
    ((∃ neg, unpack x = .inf neg) ∧ powWith pow x y = infOf false) ∨
    (unpack x = .inf true ∧ isNaN (powWith pow x y) = true) ∨
    ((∃ neg e, unpack x = .fin neg 0 e) ∧ powWith pow x y = zeroOf false) ∨
    (x = c1 ∧ powWith pow x y = c1) ∨
    ((∃ m e, m ≠ 0 ∧ unpack x = .fin false m e) ∧ powWith pow x y = pow x y) := by
  unfold powWith
  split
  · exact .inl ⟨.inl (by assumption), isNaN_nanOf _ _ _⟩
  · rename_i neg h
    split
    · rename_i hn
      obtain rfl : neg = true := by cases neg <;> simp_all
      exact .inr (.inr (.inl ⟨h, isNaN_nanOf _ _ _⟩))
    · exact .inr (.inl ⟨⟨neg, h⟩, rfl⟩)
  · rename_i neg m e h
    split
    · rename_i hm
      exact .inr (.inr (.inr (.inl ⟨⟨neg, e, hm ▸ h⟩, rfl⟩)))
    · rename_i hm
      split
      · rename_i hn
        exact .inl ⟨.inr ⟨m, e, hm, hn ▸ h⟩, isNaN_nanOf _ _ _⟩
      · rename_i hn
        split
        · exact .inr (.inr (.inr (.inr (.inl ⟨by assumption, rfl⟩))))
        · exact .inr (.inr (.inr (.inr (.inr ⟨⟨m, e, hm, by simpa [hn] using h⟩, rfl⟩))))

end Sys2Proof.Machine
end

