-- ==== Sys2Proof/Laws/Float.lean ====
section
/-!
SUPPORT. Binary64 arithmetic against the exact numbers of Machine/Exact.lean: the patterns of one
sign are in the order of their magnitudes, a number between two of them is rounded as `NUM` says, and
so `roundPack`, `addFin` and `divFin` round the exact result (00_scope.md rule R9).
-/

namespace Sys2Proof.Machine

/-- The magnitude of number `k` in the order of the patterns, in units of `2^-1074`. -/
@[irreducible] def magVal (k : Nat) : Nat :=
  if k / 2 ^ 52 = 0 then k else (2 ^ 52 + k % 2 ^ 52) * 2 ^ (k / 2 ^ 52 - 1)

/-- The magnitude of significand `s` at the exponent of `T`. -/
theorem magVal_binade (T s : Nat) (hs : s ≤ 2 ^ 53) (hT : T = 0 ∨ 2 ^ 52 ≤ s) :
    magVal (T * 2 ^ 52 + s) = s * 2 ^ T := by
  unfold magVal
  rcases Nat.lt_or_ge s (2 ^ 52) with h | h
  · obtain rfl : T = 0 := by omega
    have : (0 * 2 ^ 52 + s) / 2 ^ 52 = 0 := by omega
    rw [if_pos this]; omega
  · rcases Nat.lt_or_ge s (2 ^ 53) with h' | h'
    · have e : (T * 2 ^ 52 + s) / 2 ^ 52 = T + 1 := by omega
      have e' : 2 ^ 52 + (T * 2 ^ 52 + s) % 2 ^ 52 = s := by omega
      rw [e, e', if_neg (by omega)]; rfl
    · obtain rfl : s = 2 ^ 53 := by omega
      have e : (T * 2 ^ 52 + 2 ^ 53) / 2 ^ 52 = T + 2 := by omega
      have e' : 2 ^ 52 + (T * 2 ^ 52 + 2 ^ 53) % 2 ^ 52 = 2 ^ 52 := by omega
      rw [e, e', if_neg (by omega), show T + 2 - 1 = T + 1 from rfl, pow_succ]; ring

/-- Every pattern's magnitude is a significand at an exponent. -/
theorem magVal_form (k : Nat) : ∃ T s, k = T * 2 ^ 52 + s ∧ s < 2 ^ 53 ∧ (T = 0 ∨ 2 ^ 52 ≤ s) := by
  rcases Nat.eq_zero_or_pos (k / 2 ^ 52) with h | h
  · exact ⟨0, k, by omega, by omega, .inl rfl⟩
  · exact ⟨k / 2 ^ 52 - 1, 2 ^ 52 + k % 2 ^ 52, by omega, by omega, by omega⟩

/-- The patterns of one sign are in the order of their magnitudes. -/
theorem magVal_strictMono : StrictMono magVal := by
  refine strictMono_nat_of_lt_succ fun k => ?_
  obtain ⟨T, s, rfl, hs, hT⟩ := magVal_form k
  rw [magVal_binade T s (by omega) hT, Nat.add_assoc, magVal_binade T (s + 1) (by omega) (by omega)]
  exact Nat.mul_lt_mul_of_pos_right (Nat.lt_succ_self s) (by positivity)

/-- The magnitude bits of a pattern. -/
def magOf (x : F64) : Nat := x.toNat % 2 ^ 63

/-- Finite patterns are those below the magnitude of the infinities. -/
theorem isFinite_iff (x : F64) : isFinite x = true ↔ magOf x < 2047 * 2 ^ 52 := by
  have : (x.extractLsb' 52 11).toNat = magOf x / 2 ^ 52 := by
    simp only [BitVec.extractLsb'_toNat, Nat.shiftRight_eq_div_pow, magOf]; omega
  unfold isFinite
  rw [this]
  simp only [bne_iff_ne, ne_eq, magOf]; omega

/-- The sign bit of a pattern. -/
theorem signOf_iff (x : F64) : signOf x = true ↔ 2 ^ 63 ≤ x.toNat := by
  unfold signOf
  rw [BitVec.getLsbD, Nat.testBit_eq_decide_div_mod_eq]
  have := x.isLt
  simp only [decide_eq_true_eq]; omega

/-- The sign as a factor. -/
def signF (neg : Bool) : ℚ := if neg then -1 else 1

/-- The number of a pattern, from its three fields. -/
theorem ratOf_fields (x : F64) (s : Bool) (ex fr : Nat) (hs : x.getLsbD 63 = s)
    (he : (x.extractLsb' 52 11).toNat = ex) (hf : (x.extractLsb' 0 52).toNat = fr) :
    ratOf x = signF s * (if ex = 0 then (fr : ℚ) * 2 ^ (-1074 : Int)
      else ((2 ^ 52 + fr : Nat) : ℚ) * 2 ^ ((ex : Int) - 1075)) := by
  unfold ratOf signF
  simp only [hs, he, hf]

/-- A power of two is positive. -/
theorem two_zpow_pos (t : Int) : (0 : ℚ) < 2 ^ t := zpow_pos (by norm_num) t

/-- The number of a pattern, from its sign and its magnitude. -/
theorem ratOf_eq (x : F64) :
    ratOf x = signF (signOf x) * ((magVal (magOf x) : ℚ) * 2 ^ (-1074 : Int)) := by
  have h1 : (x.extractLsb' 52 11).toNat = magOf x / 2 ^ 52 := by
    simp only [BitVec.extractLsb'_toNat, Nat.shiftRight_eq_div_pow, magOf]; omega
  have h2 : (x.extractLsb' 0 52).toNat = magOf x % 2 ^ 52 := by
    simp only [BitVec.extractLsb'_toNat, Nat.shiftRight_eq_div_pow, magOf]; omega
  unfold ratOf
  simp only [h1, h2, signF, signOf]
  congr 1
  unfold magVal
  split
  · rename_i h
    rw [Nat.mod_eq_of_lt (by omega)]
  · rename_i h
    obtain ⟨j, hj⟩ : ∃ j, magOf x / 2 ^ 52 = j + 1 := ⟨_, (Nat.succ_pred h).symm⟩
    rw [hj]
    have : (2 : ℚ) ^ (((j + 1 : Nat) : Int) - 1075) = 2 ^ j * 2 ^ (-1074 : Int) := by
      rw [← zpow_natCast, ← zpow_add₀ (by norm_num)]
      congr 1; push_cast; ring
    rw [this]
    rw [Nat.add_sub_cancel]
    generalize (2 : ℚ) ^ (-1074 : Int) = c
    push_cast
    ring

/-- A pattern built from a sign and a magnitude. -/
theorem withSign_spec (neg : Bool) (k : Nat) (hk : k < 2 ^ 63) :
    magOf (withSign neg k) = k ∧ signOf (withSign neg k) = neg ∧
      (withSign neg k).toNat % 2 = k % 2 := by
  have e : (withSign neg k).toNat = (if neg then 2 ^ 63 + k else k) := by
    unfold withSign; cases neg <;> simp <;> omega
  refine ⟨?_, ?_, ?_⟩
  · unfold magOf; rw [e]; cases neg <;> simp <;> omega
  · rw [Bool.eq_iff_iff, signOf_iff, e]; cases neg <;> simp; omega
  · rw [e]; cases neg <;> simp; omega

/-- A finite number, in the order of the magnitudes seen from a sign: at most the number below or at
least the number above. -/
theorem ratOf_gap (neg : Bool) (k : Nat) (g : F64) :
    signF neg * ratOf g ≤ (magVal k : ℚ) * 2 ^ (-1074 : Int) ∨
    (magVal (k + 1) : ℚ) * 2 ^ (-1074 : Int) ≤ signF neg * ratOf g := by
  rw [ratOf_eq]
  have hc := two_zpow_pos (-1074)
  generalize (2 : ℚ) ^ (-1074 : Int) = c at hc
  have key : (magVal (magOf g) : ℚ) ≤ magVal k ∨ (magVal (k + 1) : ℚ) ≤ magVal (magOf g) := by
    rcases Nat.lt_or_ge k (magOf g) with h | h
    · exact .inr (by exact_mod_cast magVal_strictMono.monotone h)
    · exact .inl (by exact_mod_cast magVal_strictMono.monotone h)
  have h0 : (0 : ℚ) ≤ magVal (magOf g) := by positivity
  have h1 : (0 : ℚ) ≤ magVal k := by positivity
  by_cases hs : signOf g = neg
  · have : signF neg * (signF (signOf g) * (magVal (magOf g) * c)) = magVal (magOf g) * c := by
      rw [hs]; cases neg <;> simp [signF]
    rw [this]
    exact key.imp (fun h => mul_le_mul_of_nonneg_right h hc.le)
      (fun h => mul_le_mul_of_nonneg_right h hc.le)
  · left
    have : signF neg * (signF (signOf g) * (magVal (magOf g) * c)) = -(magVal (magOf g) * c) := by
      cases neg <;> cases h : signOf g <;> simp_all [signF]
    rw [this]
    have := mul_nonneg h0 hc.le
    have := mul_nonneg h1 hc.le
    linarith

/-- No finite number is above the greatest one. -/
theorem ratOf_le_max (neg : Bool) (g : F64) (h : isFinite g = true) :
    signF neg * ratOf g ≤ (magVal (2047 * 2 ^ 52 - 1) : ℚ) * 2 ^ (-1074 : Int) := by
  rw [isFinite_iff] at h
  rw [ratOf_eq]
  have hc := two_zpow_pos (-1074)
  generalize (2 : ℚ) ^ (-1074 : Int) = c at hc
  have hg : magOf g ≤ 2047 * 2 ^ 52 - 1 := by omega
  have key := Nat.cast_le (α := ℚ).2 (magVal_strictMono.monotone hg)
  have h0 : (0 : ℚ) ≤ magVal (magOf g) := by positivity
  have := mul_le_mul_of_nonneg_right key hc.le
  have := mul_nonneg h0 hc.le
  cases neg <;> cases signOf g <;> simp only [signF, Bool.false_eq_true, ↓reduceIte] <;> linarith

/-- A finite pattern built from a sign and a magnitude, as a number. -/
theorem withSign_finite (neg : Bool) (k : Nat) (hk : k < 2047 * 2 ^ 52) :
    isFinite (withSign neg k) = true ∧ signOf (withSign neg k) = neg ∧
    signF neg * ratOf (withSign neg k) = (magVal k : ℚ) * 2 ^ (-1074 : Int) := by
  obtain ⟨h1, h2, -⟩ := withSign_spec neg k (by omega)
  refine ⟨by rw [isFinite_iff, h1]; exact hk, h2, ?_⟩
  rw [ratOf_eq, h1, h2]
  generalize (2 : ℚ) ^ (-1074 : Int) = c
  cases neg <;> simp [signF]

/-- The units of a binade: significand `s` at exponent `t`. -/
theorem magVal_scaled (t : Int) (s : Nat) (ht : -1074 ≤ t) (hs : s ≤ 2 ^ 53)
    (hT : t = -1074 ∨ 2 ^ 52 ≤ s) :
    (magVal ((t + 1074).toNat * 2 ^ 52 + s) : ℚ) * 2 ^ (-1074 : Int) = s * 2 ^ t := by
  rw [magVal_binade _ _ hs (by omega)]
  push_cast
  rw [mul_assoc, ← zpow_natCast, ← zpow_add₀ (by norm_num)]
  congr 2
  omega

/-- The smallest magnitude that no finite number has. -/
theorem magVal_top : (magVal (2047 * 2 ^ 52) : ℚ) * 2 ^ (-1074 : Int) = 2 ^ (1024 : Int) := by
  have h := magVal_scaled 971 (2 ^ 53) (by norm_num) le_rfl (.inr (by norm_num))
  rw [show ((971 : Int) + 1074).toNat * 2 ^ 52 + 2 ^ 53 = 2047 * 2 ^ 52 from by decide] at h
  rw [h, show (1024 : Int) = (53 : Nat) + 971 from rfl, zpow_add₀ (by norm_num), zpow_natCast]
  generalize (2 : ℚ) ^ (971 : Int) = c
  push_cast
  rfl

/-- The magnitude of the greatest number. -/
theorem magVal_max : (magVal (2047 * 2 ^ 52 - 1) : ℚ) * 2 ^ (-1074 : Int) =
    ((2 ^ 53 - 1 : Nat) : ℚ) * 2 ^ (971 : Int) := by
  have h := magVal_scaled 971 (2 ^ 53 - 1) (by norm_num) (by norm_num) (.inr (by norm_num))
  rwa [show ((971 : Int) + 1074).toNat * 2 ^ 52 + (2 ^ 53 - 1) = 2047 * 2 ^ 52 - 1 from by decide]
    at h

/-- `v` lies at or above the magnitude `k` and below the next one. -/
structure Bracket (k : Nat) (v : ℚ) : Prop where
  lo : (magVal k : ℚ) * 2 ^ (-1074 : Int) ≤ v
  hi : v < (magVal (k + 1) : ℚ) * 2 ^ (-1074 : Int)

/-- The infinity is beyond every number. -/
theorem Bracket.top {k : Nat} {v : ℚ} (h : Bracket k v) (neg : Bool)
    (hk : 2047 * 2 ^ 52 ≤ k + 1) (hv : k + 1 = 2047 * 2 ^ 52 →
    (magVal k : ℚ) * 2 ^ (-1074 : Int) < v) (g : F64) (hg : isFinite g = true) :
    signF neg * ratOf g < v := by
  have hc := two_zpow_pos (-1074)
  have h1 := ratOf_le_max neg g hg
  have h2 := h.lo
  generalize (2 : ℚ) ^ (-1074 : Int) = c at *
  rcases Nat.lt_or_ge (2047 * 2 ^ 52) (k + 1) with hlt | hge
  · have : magVal (2047 * 2 ^ 52 - 1) < magVal k := magVal_strictMono (by omega)
    have : (magVal (2047 * 2 ^ 52 - 1) : ℚ) < magVal k := Nat.cast_lt.2 this
    have := mul_lt_mul_of_pos_right this hc
    linarith
  · have e : k = 2047 * 2 ^ 52 - 1 := by omega
    have := hv (by omega)
    rw [← e] at h1
    linarith

/-- Toward zero: the lower of the two magnitudes, or the greatest number. -/
theorem Bracket.toward {k : Nat} {v : ℚ} (h : Bracket k v) (neg : Bool) (f : F64)
    (hf : f = withSign neg (if 2047 * 2 ^ 52 ≤ k then 2047 * 2 ^ 52 - 1 else k)) :
    isFinite f = true ∧ signOf f = neg ∧ signF neg * ratOf f ≤ v ∧
      ∀ g, isFinite g = true → signF neg * ratOf g ≤ v →
        signF neg * ratOf g ≤ signF neg * ratOf f := by
  subst hf
  split
  · rename_i hk
    obtain ⟨h1, h2, h3⟩ := withSign_finite neg (2047 * 2 ^ 52 - 1) (by norm_num)
    refine ⟨h1, h2, (h.top neg (by omega) (by omega) _ h1).le, fun g hg _ => ?_⟩
    rw [h3]
    exact ratOf_le_max neg g hg
  · rename_i hk
    obtain ⟨h1, h2, h3⟩ := withSign_finite neg k (by omega)
    refine ⟨h1, h2, h3 ▸ h.lo, fun g hg hgv => ?_⟩
    rw [h3]
    rcases ratOf_gap neg k g with hl | hr
    · exact hl
    · exact absurd (lt_of_lt_of_le h.hi hr) (not_lt.2 hgv)

/-- Away from zero: the exact magnitude, else the upper of the two, or infinity. -/
theorem Bracket.away {k : Nat} {v : ℚ} (h : Bracket k v) (neg : Bool) (r : Prop) [Decidable r]
    (hr : r ↔ v = (magVal k : ℚ) * 2 ^ (-1074 : Int)) (f : F64)
    (hf : f = (if 2047 * 2 ^ 52 ≤ (if r then k else k + 1) then infinity neg
      else withSign neg (if r then k else k + 1))) :
    (isFinite f = true ∧ signOf f = neg ∧ v ≤ signF neg * ratOf f ∧
      ∀ g, isFinite g = true → v ≤ signF neg * ratOf g →
        signF neg * ratOf f ≤ signF neg * ratOf g) ∨
    (f = infinity neg ∧ ∀ g, isFinite g = true → signF neg * ratOf g < v) := by
  subst hf
  by_cases hk : 2047 * 2 ^ 52 ≤ (if r then k else k + 1)
  · rw [if_pos hk]
    refine .inr ⟨rfl, h.top neg ?_ ?_⟩
    · split at hk <;> omega
    · intro e
      split at hk
      · omega
      · rename_i hn
        exact lt_of_le_of_ne h.lo fun e => hn (hr.2 e.symm)
  · rw [if_neg hk]
    obtain ⟨h1, h2, h3⟩ := withSign_finite neg (if r then k else k + 1) (by omega)
    refine .inl ⟨h1, h2, ?_, fun g hg hgv => ?_⟩ <;> rw [h3]
    · split
      · rename_i hh; exact (hr.1 hh).le
      · exact h.hi.le
    · split
      · rename_i hh; exact (hr.1 hh) ▸ hgv
      · rename_i hh
        rcases ratOf_gap neg k g with hl | hr'
        · exact absurd (hr.2 (le_antisymm (le_trans hgv hl) h.lo)) hh
        · exact hr'

/-- The distance to a signed number, seen from the sign. -/
theorem signF_abs (neg : Bool) (x y : ℚ) : |x - signF neg * y| = |signF neg * x - y| := by
  cases neg
  · simp [signF]
  · simp only [signF, ↓reduceIte]
    rw [← abs_neg]; congr 1; ring

/-- A sign is no zero factor. -/
theorem signF_inj (neg : Bool) (x y : ℚ) : signF neg * x = signF neg * y ↔ x = y := by
  cases neg <;> simp [signF]

/-- The threshold of overflow in rounding to nearest is half a unit above the greatest number. -/
theorem threshold_eq : (2 : ℚ) ^ 1024 - 2 ^ 970 =
    ((2 ^ 54 - 1 : Nat) : ℚ) * 2 ^ (970 : Int) := by
  have e : (2 : ℚ) ^ 1024 = 2 ^ 54 * 2 ^ 970 := by rw [← pow_add]
  have e' : (2 : ℚ) ^ (970 : Int) = 2 ^ 970 := zpow_natCast 2 970
  rw [e, e']
  generalize (2 : ℚ) ^ 970 = c
  push_cast
  ring

/-- Twice the threshold, in units: the middle of the greatest number and the next magnitude. -/
theorem threshold_mid : 2 * ((2 : ℚ) ^ 1024 - 2 ^ 970) =
    (magVal (2047 * 2 ^ 52 - 1) : ℚ) * 2 ^ (-1074 : Int) +
      (magVal (2047 * 2 ^ 52) : ℚ) * 2 ^ (-1074 : Int) := by
  rw [threshold_eq, magVal_max, magVal_top, show (1024 : Int) = (54 : Nat) + 970 from rfl,
    show (971 : Int) = (1 : Nat) + 970 from rfl, zpow_add₀ (by norm_num), zpow_add₀ (by norm_num),
    zpow_natCast, zpow_natCast]
  generalize (2 : ℚ) ^ (970 : Int) = c
  push_cast
  ring

/-- The order of the magnitudes, in units. -/
theorem magVal_mono_scaled {i j : Nat} (h : i ≤ j) :
    (magVal i : ℚ) * 2 ^ (-1074 : Int) ≤ (magVal j : ℚ) * 2 ^ (-1074 : Int) :=
  mul_le_mul_of_nonneg_right (Nat.cast_le.2 (magVal_strictMono.monotone h)) (two_zpow_pos _).le

/-- To nearest: the upper magnitude where `up`, else the lower one. -/
theorem Bracket.nearest {k : Nat} {v : ℚ} (h : Bracket k v) (neg up : Bool)
    (tie : F64 → F64 → Prop) (f : F64)
    (hup : up = true → (magVal k : ℚ) * 2 ^ (-1074 : Int) +
      (magVal (k + 1) : ℚ) * 2 ^ (-1074 : Int) ≤ 2 * v)
    (hdown : up = false → 2 * v ≤ (magVal k : ℚ) * 2 ^ (-1074 : Int) +
      (magVal (k + 1) : ℚ) * 2 ^ (-1074 : Int))
    (hmax : up = false → k + 1 = 2047 * 2 ^ 52 →
      2 * v ≠ (magVal k : ℚ) * 2 ^ (-1074 : Int) + (magVal (k + 1) : ℚ) * 2 ^ (-1074 : Int))
    (hf : f = (if 2047 * 2 ^ 52 ≤ (if up then k + 1 else k) then infinity neg
      else withSign neg (if up then k + 1 else k)))
    (htie : 2 * v = (magVal k : ℚ) * 2 ^ (-1074 : Int) + (magVal (k + 1) : ℚ) * 2 ^ (-1074 : Int) →
      (if up then k + 1 else k) < 2047 * 2 ^ 52 →
      ∀ g, isFinite g = true →
        signF neg * ratOf g = (magVal (if up then k else k + 1) : ℚ) * 2 ^ (-1074 : Int) → tie f g) :
    RoundsToNearest tie (signF neg * v) f := by
  have h0 : (0 : ℚ) ≤ (magVal k : ℚ) * 2 ^ (-1074 : Int) := by
    have := two_zpow_pos (-1074); positivity
  have hv0 : 0 ≤ v := le_trans h0 h.lo
  have habs : |signF neg * v| = v := by
    rw [abs_mul, abs_of_nonneg hv0]; cases neg <;> simp [signF]
  have hlo := h.lo
  have hhi := h.hi
  unfold RoundsToNearest
  rw [habs]
  by_cases hk : 2047 * 2 ^ 52 ≤ (if up then k + 1 else k)
  · rw [if_pos hk] at hf
    have hthr : (2 : ℚ) ^ 1024 - 2 ^ 970 ≤ v := by
      have hm := threshold_mid
      cases up
      · simp only [Bool.false_eq_true, ↓reduceIte] at hk
        have h1 := magVal_mono_scaled hk
        have h2 := magVal_mono_scaled (show 2047 * 2 ^ 52 - 1 ≤ k by omega)
        linarith
      · simp only [↓reduceIte] at hk
        have h1 := magVal_mono_scaled hk
        have h2 := magVal_mono_scaled (show 2047 * 2 ^ 52 - 1 ≤ k by omega)
        have := hup rfl
        linarith
    rw [if_neg (not_lt.2 hthr), hf]
    have hpos : 0 < v := by
      refine lt_of_lt_of_le ?_ hthr
      rw [threshold_eq]
      exact mul_pos (by norm_num) (two_zpow_pos _)
    congr 1
    cases neg
    · simp [signF, hv0]
    · simp [signF, hpos]
  · rw [if_neg hk] at hf
    have hthr : v < (2 : ℚ) ^ 1024 - 2 ^ 970 := by
      have hm := threshold_mid
      cases up
      · simp only [Bool.false_eq_true, ↓reduceIte] at hk
        have h2 := magVal_mono_scaled (show k ≤ 2047 * 2 ^ 52 - 1 by omega)
        have h1 := magVal_mono_scaled (show k + 1 ≤ 2047 * 2 ^ 52 by omega)
        have h3 := hdown rfl
        rcases Nat.lt_or_ge (k + 1) (2047 * 2 ^ 52) with hlt | hge
        · have := magVal_mono_scaled (show k + 1 ≤ 2047 * 2 ^ 52 - 1 by omega)
          linarith
        · have := lt_of_le_of_ne h3 (hmax rfl (by omega))
          linarith
      · simp only [↓reduceIte] at hk
        have := magVal_mono_scaled (show k + 1 ≤ 2047 * 2 ^ 52 - 1 by omega)
        have := magVal_mono_scaled (show 2047 * 2 ^ 52 - 1 ≤ 2047 * 2 ^ 52 by omega)
        linarith
    rw [if_pos hthr]
    obtain ⟨h1, h2, h3⟩ := withSign_finite neg (if up then k + 1 else k) (by omega)
    rw [← hf] at h1 h2 h3
    refine ⟨h1, fun g hg hne => ?_⟩
    rw [signF_abs, signF_abs]
    have hne' : signF neg * ratOf g ≠ signF neg * ratOf f := fun e => hne ((signF_inj _ _ _).1 e)
    have hgap := ratOf_gap neg k g
    have ht := fun e => htie e (by omega) g hg
    rw [h3] at hne' ⊢
    generalize signF neg * ratOf g = w at *
    cases up
    · simp only [Bool.false_eq_true, ↓reduceIte] at hne' ht ⊢
      have hd := hdown rfl
      generalize (magVal k : ℚ) * 2 ^ (-1074 : Int) = A at *
      generalize (magVal (k + 1) : ℚ) * 2 ^ (-1074 : Int) = B at *
      rw [abs_of_nonpos (by linarith)]
      rcases hgap with hl | hr
      · left
        have := lt_of_le_of_ne hl hne'
        rw [abs_of_neg (by linarith)]
        linarith
      · rw [abs_of_pos (by linarith)]
        rcases lt_or_eq_of_le (show -(A - v) ≤ w - v by linarith) with hlt | heq
        · exact .inl hlt
        · exact .inr ⟨heq, ht (by linarith) (by linarith)⟩
    · simp only [↓reduceIte] at hne' ht ⊢
      have hu := hup rfl
      generalize (magVal k : ℚ) * 2 ^ (-1074 : Int) = A at *
      generalize (magVal (k + 1) : ℚ) * 2 ^ (-1074 : Int) = B at *
      rw [abs_of_pos (show 0 < B - v by linarith)]
      rcases hgap with hl | hr
      · rw [abs_of_nonpos (show w - v ≤ 0 by linarith)]
        rcases lt_or_eq_of_le (show B - v ≤ -(w - v) by linarith) with hlt | heq
        · exact .inl hlt
        · exact .inr ⟨heq, ht (by linarith) (by linarith)⟩
      · left
        have := lt_of_le_of_ne hr (Ne.symm hne')
        rw [abs_of_pos (by linarith)]
        linarith

/-- The infinity that the operations give. -/
theorem infinity_eq (neg : Bool) : infOf neg = infinity neg := by cases neg <;> rfl

/-- The least significant bit of a pattern is that of its magnitude. -/
theorem withSign_lsb (neg : Bool) (k : Nat) (hk : k < 2 ^ 63) :
    (withSign neg k).getLsbD 0 = decide (k % 2 = 1) := by
  rw [BitVec.getLsbD, Nat.testBit_zero, (withSign_spec neg k hk).2.2]

/-- A sign does not change the absolute value. -/
theorem signF_mul_abs (neg : Bool) (x : ℚ) : |signF neg * x| = |x| := by
  cases neg <;> simp [signF]

/-- Rounding toward zero, by sign. -/
theorem roundsTo_of_toward (neg : Bool) {v : ℚ} {f : F64} (h1 : isFinite f = true)
    (h2 : signF neg * ratOf f ≤ v)
    (h3 : ∀ g, isFinite g = true → signF neg * ratOf g ≤ v →
      signF neg * ratOf g ≤ signF neg * ratOf f) :
    (if neg then RoundsUp else RoundsDown) (signF neg * v) f := by
  cases neg
  · simp only [signF, Bool.false_eq_true, ↓reduceIte, one_mul] at *
    exact .inl ⟨h1, h2, h3⟩
  · simp only [signF, ↓reduceIte, neg_mul, one_mul] at *
    exact .inl ⟨h1, by linarith, fun g hg hv => by have := h3 g hg (by linarith); linarith⟩

/-- Rounding away from zero, by sign. -/
theorem roundsTo_of_away (neg : Bool) {v : ℚ} {f : F64}
    (h : (isFinite f = true ∧ signOf f = neg ∧ v ≤ signF neg * ratOf f ∧
      ∀ g, isFinite g = true → v ≤ signF neg * ratOf g →
        signF neg * ratOf f ≤ signF neg * ratOf g) ∨
    (f = infinity neg ∧ ∀ g, isFinite g = true → signF neg * ratOf g < v)) :
    (if neg then RoundsDown else RoundsUp) (signF neg * v) f := by
  cases neg
  · simp only [signF, Bool.false_eq_true, ↓reduceIte, one_mul] at *
    exact h.imp (fun ⟨h1, _, h2, h3⟩ => ⟨h1, h2, h3⟩) id
  · simp only [signF, ↓reduceIte, neg_mul, one_mul] at *
    refine h.imp (fun ⟨h1, _, h2, h3⟩ => ⟨h1, by linarith, fun g hg hv => ?_⟩)
      (fun ⟨h1, h2⟩ => ⟨h1, fun g hg => ?_⟩)
    · have := h3 g hg (by linarith); linarith
    · have := h2 g hg; linarith

/-- The step from the integer part `q` of a number in units of its last place to the pattern of its
rounding: `x` is the number in those units, and `r` of `unit` is what `q` leaves out. -/
theorem roundsTo_of_parts (num : Rounding) (neg : Bool) (t : Int) (q r unit : Nat) (x v : ℚ)
    (ht : -1074 ≤ t) (hq : q < 2 ^ 53) (hT : t = -1074 ∨ 2 ^ 52 ≤ q)
    (hx : (q : ℚ) ≤ x) (hx' : x < q + 1) (hv : v = x * 2 ^ t) (hpos : 0 < v)
    (h0 : r = 0 ↔ x = q) (hlt : 2 * r < unit ↔ 2 * x < 2 * q + 1)
    (heq : 2 * r = unit ↔ 2 * x = 2 * q + 1) (k : Nat)
    (hk : k = (t + 1074).toNat * 2 ^ 52 + (if roundsAway num neg q r unit then q + 1 else q)) :
    RoundsTo num (signF neg * v)
      (if 2047 * 2 ^ 52 ≤ k then overflowOf num neg else withSign neg k) := by
  have hp := two_zpow_pos t
  obtain ⟨k0, hk0⟩ : ∃ k0, k0 = (t + 1074).toNat * 2 ^ 52 + q := ⟨_, rfl⟩
  have hA : (magVal k0 : ℚ) * 2 ^ (-1074 : Int) = q * 2 ^ t := by
    rw [hk0]; exact magVal_scaled t q ht (by omega) hT
  have hB : (magVal (k0 + 1) : ℚ) * 2 ^ (-1074 : Int) = (q + 1) * 2 ^ t := by
    rw [hk0, Nat.add_assoc]
    have := magVal_scaled t (q + 1) ht (by omega) (by omega)
    push_cast at this
    exact this
  have hb : Bracket k0 v := by
    constructor
    · rw [hA, hv]; exact mul_le_mul_of_nonneg_right hx hp.le
    · rw [hB, hv]; exact mul_lt_mul_of_pos_right hx' hp
  have hkk : k = if roundsAway num neg q r unit then k0 + 1 else k0 := by
    rw [hk, hk0]; split <;> omega
  have hpar : k0 % 2 = q % 2 := by omega
  have hexact : r = 0 ↔ v = (magVal k0 : ℚ) * 2 ^ (-1074 : Int) := by
    rw [hA, hv, h0]; exact (mul_left_inj' hp.ne').symm
  have hmid : ∀ y z : ℚ, (y * 2 ^ t < z * 2 ^ t ↔ y < z) := fun y z => mul_lt_mul_iff_left₀ hp
  have hltv : 2 * r < unit ↔ 2 * v < (magVal k0 : ℚ) * 2 ^ (-1074 : Int) +
      (magVal (k0 + 1) : ℚ) * 2 ^ (-1074 : Int) := by
    rw [hA, hB, hv, hlt, ← hmid]; ring_nf
  have heqv : 2 * r = unit ↔ 2 * v = (magVal k0 : ℚ) * 2 ^ (-1074 : Int) +
      (magVal (k0 + 1) : ℚ) * 2 ^ (-1074 : Int) := by
    rw [hA, hB, hv, heq, ← mul_left_inj' hp.ne']; ring_nf
  have hneg : decide (signF neg * v < 0) = neg := by
    cases neg <;> simp [signF, hpos, hpos.le]
  have hodd : k0 + 1 = 2047 * 2 ^ 52 → q % 2 = 1 := by omega
  clear hA hB hk hk0 hmid h0 hlt heq hx hx' hT hq ht
  clear hv hp
  refine ⟨fun _ => ?_, ?_⟩
  · rw [hneg]
    split
    · cases num <;> cases neg <;> rfl
    · exact (withSign_spec neg k (by omega)).2.1
  · have toward : roundsAway num neg q r unit = false →
        overflowOf num neg = withSign neg (2047 * 2 ^ 52 - 1) →
        (if neg then RoundsUp else RoundsDown) (signF neg * v)
          (if 2047 * 2 ^ 52 ≤ k then overflowOf num neg else withSign neg k) := by
      intro ha ho
      have e : k = k0 := by simp [hkk, ha]
      have e' : (if 2047 * 2 ^ 52 ≤ k then overflowOf num neg else withSign neg k) =
          withSign neg (if 2047 * 2 ^ 52 ≤ k0 then 2047 * 2 ^ 52 - 1 else k0) := by
        rw [e, ho, ← apply_ite (withSign neg)]
      obtain ⟨h1, -, h2, h3⟩ := hb.toward neg _ e'
      exact roundsTo_of_toward neg h1 h2 h3
    have away : roundsAway num neg q r unit = decide (r ≠ 0) →
        overflowOf num neg = infOf neg →
        (if neg then RoundsDown else RoundsUp) (signF neg * v)
          (if 2047 * 2 ^ 52 ≤ k then overflowOf num neg else withSign neg k) := by
      intro ha ho
      have e : k = if r = 0 then k0 else k0 + 1 := by
        rw [hkk, ha]; by_cases h : r = 0 <;> simp [h]
      exact roundsTo_of_away neg (hb.away neg (r = 0) hexact _ (by rw [e, ho, infinity_eq]))
    have nearest : ∀ tie : F64 → F64 → Prop, overflowOf num neg = infOf neg →
        (roundsAway num neg q r unit = true → unit ≤ 2 * r) →
        (roundsAway num neg q r unit = false → 2 * r ≤ unit) →
        (2 * r = unit → q % 2 = 1 → roundsAway num neg q r unit = true) →
        (2 * r = unit → k < 2047 * 2 ^ 52 → ∀ g, isFinite g = true →
          signF neg * ratOf g =
            (magVal (if roundsAway num neg q r unit then k0 else k0 + 1) : ℚ) * 2 ^ (-1074 : Int) →
          tie (withSign neg k) g) →
        RoundsToNearest tie (signF neg * v)
          (if 2047 * 2 ^ 52 ≤ k then overflowOf num neg else withSign neg k) := by
      intro tie ho h1 h2 h3 h4
      refine hb.nearest neg (roundsAway num neg q r unit) tie _ (fun h => ?_) (fun h => ?_)
        (fun h e e' => ?_) (by rw [hkk, ho, infinity_eq]) (fun h hk g hg hg' => ?_)
      · exact not_lt.1 fun h' => by have := hltv.2 h'; have := h1 h; omega
      · rcases Nat.lt_or_eq_of_le (h2 h) with h' | h'
        · exact (hltv.1 h').le
        · exact (heqv.1 h').le
      · have := h3 (heqv.2 e') (hodd e)
        rw [h] at this; cases this
      · rw [← hkk] at hk
        rw [if_neg (by omega)]
        exact h4 (heqv.2 h) hk g hg hg'
    cases num
    · refine nearest _ rfl ?_ ?_ ?_ ?_
      · simp only [roundsAway, decide_eq_true_eq]; omega
      · simp only [roundsAway, decide_eq_false_iff_not]; omega
      · simp only [roundsAway, decide_eq_true_eq]; omega
      · intro ht hk' g _ _
        rw [withSign_lsb _ _ (by omega), hkk]
        simp only [roundsAway, decide_eq_true_eq, decide_eq_false_iff_not]
        split <;> omega
    · refine nearest _ rfl ?_ ?_ ?_ ?_
      · simp only [roundsAway, decide_eq_true_eq]; omega
      · simp only [roundsAway, decide_eq_false_iff_not]; omega
      · simp only [roundsAway, decide_eq_true_eq]; omega
      · intro ht hk' g _ hg
        have ha : roundsAway .nearestAway neg q r unit = true := by
          simp only [roundsAway, decide_eq_true_eq]; omega
        rw [ha] at hg hkk
        simp only [↓reduceIte] at hg hkk
        obtain ⟨-, -, h3⟩ := withSign_finite neg k hk'
        rw [← signF_mul_abs neg (ratOf g), ← signF_mul_abs neg (ratOf (withSign neg k)), hg, h3]
        have hc := two_zpow_pos (-1074)
        have : (magVal k0 : ℚ) < magVal k := Nat.cast_lt.2 (magVal_strictMono (by omega))
        have h5 := mul_lt_mul_of_pos_right this hc
        have h6 : (0 : ℚ) ≤ (magVal k0 : ℚ) * 2 ^ (-1074 : Int) := by positivity
        rw [abs_of_nonneg h6, abs_of_nonneg (by linarith)]
        exact h5
    · have := toward rfl rfl
      cases neg
      · simp only [signF] at this ⊢
        simpa [hpos.le] using this
      · simpa [signF, hpos.not_ge] using this
    · cases neg
      · exact away (by simp [roundsAway]) rfl
      · exact toward (by simp [roundsAway]) rfl
    · cases neg
      · exact toward (by simp [roundsAway]) rfl
      · exact away (by simp [roundsAway]) rfl

/-- What `lastPlace` is to the significand. -/
theorem lastPlace_spec (m : Nat) (e : Int) (hm : m ≠ 0) :
    -1074 ≤ lastPlace m e ∧
    (lastPlace m e ≤ e → m * 2 ^ (e - lastPlace m e).toNat < 2 ^ 53 ∧
      (lastPlace m e = -1074 ∨ 2 ^ 52 ≤ m * 2 ^ (e - lastPlace m e).toNat)) ∧
    (e < lastPlace m e → m / 2 ^ (lastPlace m e - e).toNat < 2 ^ 53 ∧
      (lastPlace m e = -1074 ∨ 2 ^ 52 ≤ m / 2 ^ (lastPlace m e - e).toNat)) := by
  have h1 : 2 ^ m.log2 ≤ m := Nat.log2_self_le hm
  have h2 : m < 2 ^ (m.log2 + 1) := Nat.lt_log2_self
  unfold lastPlace
  generalize hL : m.log2 = L at *
  refine ⟨le_max_right _ _, fun h => ⟨?_, ?_⟩, fun h => ⟨?_, ?_⟩⟩
  · generalize hd : (e - max ((L : Int) + e - 52) (-1074)).toNat = d
    calc m * 2 ^ d < 2 ^ (L + 1) * 2 ^ d := Nat.mul_lt_mul_of_pos_right h2 (by positivity)
      _ = 2 ^ (L + 1 + d) := (pow_add ..).symm
      _ ≤ 2 ^ 53 := Nat.pow_le_pow_right (by norm_num) (by omega)
  · rcases Int.le_total ((L : Int) + e - 52) (-1074) with hh | hh
    · exact .inl (max_eq_right hh)
    · right
      generalize hd : (e - max ((L : Int) + e - 52) (-1074)).toNat = d
      calc 2 ^ 52 = 2 ^ (L + d) := by congr 1; omega
        _ = 2 ^ L * 2 ^ d := pow_add ..
        _ ≤ m * 2 ^ d := Nat.mul_le_mul_right _ h1
  · generalize hd : (max ((L : Int) + e - 52) (-1074) - e).toNat = d
    rw [Nat.div_lt_iff_lt_mul (by positivity), ← pow_add]
    exact h2.trans_le (Nat.pow_le_pow_right (by norm_num) (by omega))
  · rcases Int.le_total ((L : Int) + e - 52) (-1074) with hh | hh
    · exact .inl (max_eq_right hh)
    · right
      generalize hd : (max ((L : Int) + e - 52) (-1074) - e).toNat = d
      rw [Nat.le_div_iff_mul_le (by positivity), ← pow_add]
      exact (Nat.pow_le_pow_right (by norm_num) (by omega)).trans h1

/-- Everything `roundPack` does with a number that is not zero: it rounds `±w * 2^e`, where `w` is the
magnitude `m` itself, or lies around an odd `m` whose last bits are far below the last place. -/
theorem roundPack_rounds (num : Rounding) (neg : Bool) (m : Nat) (e : Int) (w : ℚ) (hm : m ≠ 0)
    (hw0 : 0 < w)
    (hw : w = m ∨ (m % 2 = 1 ∧ (m : ℚ) - 1 < w ∧ w < m + 1 ∧ e + 2 ≤ lastPlace m e)) :
    RoundsTo num (signF neg * (w * 2 ^ e)) (roundPack num neg m e) := by
  obtain ⟨ht, hle, hgt⟩ := lastPlace_spec m e hm
  have hpos : 0 < w * 2 ^ e := mul_pos hw0 (two_zpow_pos e)
  unfold roundPack
  simp only [if_neg hm]
  generalize lastPlace m e = t at *
  rcases le_or_gt t e with h | h
  · obtain rfl : w = m := by
      rcases hw with hw | ⟨-, -, -, h'⟩
      · exact hw
      · omega
    obtain ⟨h1, h2⟩ := hle h
    rw [if_pos h]
    refine roundsTo_of_parts num neg t (m * 2 ^ (e - t).toNat) 0 1 _ _ ht h1 h2 le_rfl
      (by linarith) ?_ hpos (by simp) (by simp) ?_ _ ?_
    · push_cast
      rw [mul_assoc, ← zpow_natCast, ← zpow_add₀ (by norm_num)]
      congr 2; omega
    · simp
    · rw [if_neg]
      cases num <;> simp [roundsAway]
  · obtain ⟨h1, h2⟩ := hgt h
    rw [if_neg (show ¬ t ≤ e by omega)]
    unfold roundShift
    generalize hd : (t - e).toNat = d at *
    have hU : (0 : ℚ) < 2 ^ d := by positivity
    have hmq : (m : ℚ) = (m / 2 ^ d : Nat) * 2 ^ d + (m % 2 ^ d : Nat) := by
      have := Nat.div_add_mod m (2 ^ d)
      rw [mul_comm] at this
      exact_mod_cast this.symm
    have hr : m % 2 ^ d < 2 ^ d := Nat.mod_lt _ (by positivity)
    have hrq : ((m % 2 ^ d : Nat) : ℚ) + 1 ≤ 2 ^ d := by exact_mod_cast hr
    have hx : w = w / 2 ^ d * 2 ^ d := by field_simp
    have hv : w * 2 ^ e = w / 2 ^ d * 2 ^ t := by
      have : (2 : ℚ) ^ t = 2 ^ d * 2 ^ e := by
        rw [← zpow_natCast, ← zpow_add₀ (by norm_num)]; congr 1; omega
      rw [this, ← mul_assoc, ← hx]
    have hcmp : (m % 2 ^ d = 0 ↔ w = (m / 2 ^ d : Nat) * 2 ^ d) ∧
        (2 * (m % 2 ^ d) < 2 ^ d ↔ 2 * w < (2 * (m / 2 ^ d : Nat) + 1) * 2 ^ d) ∧
        (2 * (m % 2 ^ d) = 2 ^ d ↔ 2 * w = (2 * (m / 2 ^ d : Nat) + 1) * 2 ^ d) ∧
        ((m / 2 ^ d : Nat) * 2 ^ d ≤ w) ∧ w < ((m / 2 ^ d : Nat) + 1) * 2 ^ d := by
      have c1 : 2 * (m % 2 ^ d) < 2 ^ d ↔ 2 * ((m % 2 ^ d : Nat) : ℚ) < 2 ^ d := by norm_cast
      have c2 : 2 * (m % 2 ^ d) = 2 ^ d ↔ 2 * ((m % 2 ^ d : Nat) : ℚ) = 2 ^ d := by norm_cast
      have c0 : m % 2 ^ d = 0 ↔ ((m % 2 ^ d : Nat) : ℚ) = 0 := by norm_cast
      have cp : (0 : ℚ) ≤ ((m % 2 ^ d : Nat) : ℚ) := by positivity
      rcases hw with rfl | ⟨hodd, hl, hh, h4⟩
      · rw [c0, c1, c2]
        generalize ((m % 2 ^ d : Nat) : ℚ) = R at *
        generalize ((m / 2 ^ d : Nat) : ℚ) = Q at *
        generalize (2 : ℚ) ^ d = U at *
        rw [hmq]
        refine ⟨⟨fun h => by linarith, fun h => by linarith⟩,
          ⟨fun h => by linarith, fun h => by linarith⟩,
          ⟨fun h => by linarith, fun h => by linarith⟩, by linarith, by linarith⟩
      · obtain ⟨j, rfl⟩ : ∃ j, d = j + 2 := ⟨d - 2, by omega⟩
        have hrodd : m % 2 ^ (j + 2) % 2 = 1 := by
          rw [Nat.mod_mod_of_dvd m (dvd_pow_self 2 (by omega))]; exact hodd
        have hU4 : 2 ^ (j + 2) = 4 * 2 ^ j := by ring
        have hne0 : m % 2 ^ (j + 2) ≠ 0 := by omega
        have hne : 2 * (m % 2 ^ (j + 2)) ≠ 2 ^ (j + 2) := by omega
        have hlow : ((m % 2 ^ (j + 2) : Nat) : ℚ) ≥ 1 := by exact_mod_cast Nat.pos_of_ne_zero hne0
        have hside : 2 * (m % 2 ^ (j + 2)) < 2 ^ (j + 2) →
            2 * ((m % 2 ^ (j + 2) : Nat) : ℚ) + 2 ≤ 2 ^ (j + 2) := by
          intro h; exact_mod_cast (show 2 * (m % 2 ^ (j + 2)) + 2 ≤ 2 ^ (j + 2) by omega)
        have hside' : ¬ 2 * (m % 2 ^ (j + 2)) < 2 ^ (j + 2) →
            2 ^ (j + 2) + 2 ≤ 2 * ((m % 2 ^ (j + 2) : Nat) : ℚ) := by
          intro h; exact_mod_cast (show 2 ^ (j + 2) + 2 ≤ 2 * (m % 2 ^ (j + 2)) by omega)
        clear c1 c2 c0
        generalize hR : ((m % 2 ^ (j + 2) : Nat) : ℚ) = R at *
        generalize ((m / 2 ^ (j + 2) : Nat) : ℚ) = Q at *
        generalize (2 : ℚ) ^ (j + 2) = U at *
        rw [hmq] at hl hh
        refine ⟨⟨fun h => absurd h hne0, fun h => by linarith⟩, ⟨fun h => ?_, fun h => ?_⟩,
          ⟨fun h => absurd h hne, fun h => ?_⟩, by linarith, by linarith⟩
        · have := hside h; linarith
        · by_contra hc; have := hside' hc; linarith
        · exfalso
          by_cases hc : 2 * (m % 2 ^ (j + 2)) < 2 ^ (j + 2)
          · have := hside hc; linarith
          · have := hside' hc; linarith
    obtain ⟨k0, k1, k2, k3, k4⟩ := hcmp
    refine roundsTo_of_parts num neg t (m / 2 ^ d) (m % 2 ^ d) (2 ^ d) _ _ ht h1 h2
      ((le_div_iff₀ hU).2 k3) ((div_lt_iff₀ hU).2 k4) hv hpos ?_ ?_ ?_
      ((t + 1074).toNat * 2 ^ 52 + if roundsAway num neg (m / 2 ^ d) (m % 2 ^ d) (2 ^ d) = true then
        m / 2 ^ d + 1 else m / 2 ^ d) rfl
    · rw [k0, div_eq_iff hU.ne']
    · rw [k1, ← mul_div_assoc, div_lt_iff₀ hU]
    · rw [k2, ← mul_div_assoc, div_eq_iff hU.ne']

/-- A finite pattern, as `unpack` reads it and as a number. -/
theorem unpack_finite (x : F64) (h : isFinite x = true) :
    ∃ m e, unpack x = .fin (signOf x) m e ∧ m < 2 ^ 53 ∧
      ratOf x = signF (signOf x) * ((m : ℚ) * 2 ^ e) := by
  have hex : (x.extractLsb' 52 11).toNat ≠ 2047 := by simpa [isFinite] using h
  have hfr : (x.extractLsb' 0 52).toNat < 2 ^ 52 := (x.extractLsb' 0 52).isLt
  unfold unpack ratOf
  simp only [if_neg hex]
  split
  · exact ⟨_, _, rfl, by omega, rfl⟩
  · exact ⟨_, _, rfl, by omega, rfl⟩

/-- What `unpack` says of a pattern. -/
theorem unpack_cases (x : F64) :
    (isFinite x = true ∧ ∃ m e, unpack x = .fin (signOf x) m e) ∨
    (x = infinity (signOf x) ∧ unpack x = .inf (signOf x)) ∨ unpack x = .nan := by
  by_cases h : isFinite x = true
  · obtain ⟨m, e, h1, -⟩ := unpack_finite x h
    exact .inl ⟨h, m, e, h1⟩
  · have hex : (x.extractLsb' 52 11).toNat = 2047 := by simpa [isFinite] using h
    unfold unpack
    simp only [if_pos hex]
    split
    · rename_i hfr
      refine .inr (.inl ⟨?_, rfl⟩)
      have h1 : x.toNat / 2 ^ 52 % 2 ^ 11 = 2047 := by
        simpa only [BitVec.extractLsb'_toNat, Nat.shiftRight_eq_div_pow] using hex
      have h2 : x.toNat % 2 ^ 52 = 0 := by
        simpa only [BitVec.extractLsb'_toNat, Nat.shiftRight_zero] using hfr
      have h3 := x.isLt
      have h4 := signOf_iff x
      apply BitVec.eq_of_toNat_eq
      cases hs : signOf x
      · have : ¬ 2 ^ 63 ≤ x.toNat := fun h => by rw [h4.2 h] at hs; cases hs
        show x.toNat = 0x7FF0000000000000
        omega
      · have := h4.1 hs
        show x.toNat = 0xFFF0000000000000
        omega
    · exact .inr (.inr rfl)

/-- The infinity as `unpack` reads it. -/
theorem unpack_infinity (s : Bool) : unpack (infinity s) = .inf s := by cases s <;> decide

/-- A NaN as `unpack` reads it. -/
theorem isNaN_iff (x : F64) : isNaN x = true ↔ unpack x = .nan := by simp [isNaN]

/-- A signed integer as a number. -/
theorem signedOf_cast (neg : Bool) (m : Nat) : (signedOf neg m : ℚ) = signF neg * m := by
  cases neg <;> simp [signedOf, signF]

/-- A number other than 0 has one pattern. -/
theorem ratOf_inj {a b : F64} (h : ratOf a = ratOf b) (hne : ratOf a ≠ 0) : a = b := by
  rw [ratOf_eq a, ratOf_eq b] at h
  rw [ratOf_eq a] at hne
  have hc := two_zpow_pos (-1074)
  generalize (2 : ℚ) ^ (-1074 : Int) = c at *
  have pa : (0 : ℚ) ≤ magVal (magOf a) * c := by positivity
  have pb : (0 : ℚ) ≤ magVal (magOf b) * c := by positivity
  have key : signOf a = signOf b ∧ (magVal (magOf a) : ℚ) * c = magVal (magOf b) * c := by
    cases ha : signOf a <;> cases hb : signOf b <;> rw [ha, hb] at h <;> rw [ha] at hne <;>
      simp only [signF, Bool.false_eq_true, ↓reduceIte, neg_mul, one_mul] at h hne
    · exact ⟨rfl, h⟩
    · exact absurd (by linarith) hne
    · exact absurd (by linarith) hne
    · exact ⟨rfl, by linarith⟩
  have hmag : magOf a = magOf b :=
    magVal_strictMono.injective (Nat.cast_injective (mul_right_cancel₀ hc.ne' key.2))
  have sa := signOf_iff a
  have sb := signOf_iff b
  rw [key.1] at sa
  have := a.isLt
  have := b.isLt
  apply BitVec.eq_of_toNat_eq
  unfold magOf at hmag
  by_cases hs : signOf b = true
  · have := sa.1 hs; have := sb.1 hs; omega
  · have := mt sa.2 hs; have := mt sb.2 hs; omega

/-- A zero of either sign is the rounding of 0. -/
theorem zero_rounds (num : Rounding) (neg : Bool) : RoundsTo num 0 (zeroOf neg) := by
  have hz : isFinite (zeroOf neg) = true ∧ ratOf (zeroOf neg) = 0 := by
    constructor
    · cases neg <;> decide
    · have := (withSign_finite neg 0 (by norm_num)).2.2
      have h0 : magVal 0 = 0 := by simpa using magVal_binade 0 0 (by norm_num) (.inl rfl)
      rw [h0] at this
      unfold zeroOf
      cases neg <;> simpa [signF] using this
  refine ⟨fun h => absurd rfl h, ?_⟩
  have hd : RoundsDown 0 (zeroOf neg) := .inl ⟨hz.1, hz.2.le, fun g _ h => hz.2 ▸ h⟩
  have hu : RoundsUp 0 (zeroOf neg) := .inl ⟨hz.1, hz.2.ge, fun g _ h => hz.2 ▸ h⟩
  have hn : ∀ tie, RoundsToNearest tie 0 (zeroOf neg) := by
    intro tie
    unfold RoundsToNearest
    rw [if_pos]
    · refine ⟨hz.1, fun g _ h => .inl ?_⟩
      rw [hz.2] at h ⊢
      simpa using h
    · rw [abs_zero, threshold_eq]; exact mul_pos (by norm_num) (two_zpow_pos _)
  cases num
  · exact hn _
  · exact hn _
  · simp [hd]
  · exact hu
  · exact hd

/-- A sign is 1 or -1. -/
theorem signF_pm (neg : Bool) : signF neg = 1 ∨ signF neg = -1 := by cases neg <;> simp [signF]

/-- `roundPack` rounds `±m * 2^e`. -/
theorem roundPack_exact (num : Rounding) (neg : Bool) (m : Nat) (e : Int) :
    RoundsTo num (signF neg * ((m : ℚ) * 2 ^ e)) (roundPack num neg m e) := by
  by_cases hm : m = 0
  · subst hm
    simpa [roundPack] using zero_rounds num neg
  · exact roundPack_rounds num neg m e m hm (by positivity) (.inl rfl)

/-- A result has the sign that is asked for, a zero among them. -/
theorem roundPack_sign (num : Rounding) (neg : Bool) (m : Nat) (e : Int) :
    signOf (roundPack num neg m e) = neg := by
  by_cases hm : m = 0
  · subst hm; cases neg <;> simp [roundPack] <;> decide
  · have h := (roundPack_exact num neg m e).1
    have hp : (0 : ℚ) < m * 2 ^ e :=
      mul_pos (by exact_mod_cast Nat.pos_of_ne_zero hm) (two_zpow_pos e)
    unfold signOf
    rw [h (by cases neg <;> simp only [signF, Bool.false_eq_true, ↓reduceIte] <;> intro h <;> linarith)]
    cases neg <;> simp [signF, hp.le] <;> linarith

/-- A sum of finite numbers is the rounding of the exact sum, and the sign of an exact zero. -/
theorem addFin_rounds (num : Rounding) (s₁ : Bool) (m₁ : Nat) (e₁ : Int) (s₂ : Bool) (m₂ : Nat)
    (e₂ : Int) : RoundsTo num (signF s₁ * (m₁ * 2 ^ e₁) + signF s₂ * (m₂ * 2 ^ e₂))
      (addFin num s₁ m₁ e₁ s₂ m₂ e₂) ∧
    (signF s₁ * ((m₁ : ℚ) * 2 ^ e₁) + signF s₂ * (m₂ * 2 ^ e₂) = 0 →
      signOf (addFin num s₁ m₁ e₁ s₂ m₂ e₂) =
        if s₁ = s₂ then s₁ else decide (num = .towardNegative)) := by
  unfold addFin
  simp only
  generalize he : min e₁ e₂ = e
  generalize hn : signedOf s₁ (m₁ * 2 ^ (e₁ - e).toNat) + signedOf s₂ (m₂ * 2 ^ (e₂ - e).toNat) = n
  have key : signF s₁ * ((m₁ : ℚ) * 2 ^ e₁) + signF s₂ * (m₂ * 2 ^ e₂) = n * 2 ^ e := by
    have hp : ∀ e' : Int, e ≤ e' → (2 : ℚ) ^ e' = 2 ^ (e' - e).toNat * 2 ^ e := by
      intro e' h
      rw [← zpow_natCast, ← zpow_add₀ (by norm_num)]; congr 1; omega
    rw [hp e₁ (by omega), hp e₂ (by omega), ← hn]
    push_cast [signedOf_cast]
    ring
  rw [key]
  have hc := two_zpow_pos e
  by_cases h : n = 0
  · rw [if_pos h, h]
    refine ⟨by simpa using zero_rounds num _, fun _ => ?_⟩
    generalize (if s₁ = s₂ then s₁ else decide (num = .towardNegative)) = z
    cases z <;> rfl
  · rw [if_neg h]
    refine ⟨?_, fun h' => ?_⟩
    · have := roundPack_exact num (decide (n < 0)) n.natAbs e
      have e' : signF (decide (n < 0)) * ((n.natAbs : ℚ) * 2 ^ e) = n * 2 ^ e := by
        rw [← mul_assoc]; congr 1
        have hq : (n.natAbs : ℚ) = |(n : ℚ)| := by rw [← Int.cast_abs, Int.abs_eq_natAbs]; rfl
        rw [hq]
        by_cases hneg : n < 0
        · have : (n : ℚ) < 0 := by exact_mod_cast hneg
          simp [signF, hneg, abs_of_neg this]
        · have : (0 : ℚ) ≤ n := by exact_mod_cast (not_lt.1 hneg)
          simp [signF, hneg, abs_of_nonneg this]
      rwa [e'] at this
    · exfalso
      rcases mul_eq_zero.1 h' with h' | h'
      · exact h (by exact_mod_cast h')
      · exact hc.ne' h'

/-- The sign of the negation. -/
theorem signF_not (b : Bool) : signF (!b) = -signF b := by cases b <;> simp [signF]
/-- The sign of a product. -/
theorem signF_xor (a b : Bool) : signF (a ^^ b) = signF a * signF b := by
  cases a <;> cases b <;> simp [signF]
/-- A quotient of finite numbers is the rounding of the exact quotient. -/
theorem divFin_rounds (num : Rounding) (neg : Bool) (m₁ : Nat) (e₁ : Int) (m₂ : Nat) (e₂ : Int)
    (h2 : m₂ ≠ 0) (hlt : m₂ < 2 ^ 53) :
    RoundsTo num (signF neg * (((m₁ : ℚ) / m₂) * 2 ^ (e₁ - e₂))) (divFin num neg m₁ e₁ m₂ e₂) ∧
    signOf (divFin num neg m₁ e₁ m₂ e₂) = neg := by
  refine ⟨?_, roundPack_sign _ _ _ _⟩
  unfold divFin
  simp only
  by_cases h1 : m₁ = 0
  · subst h1
    simpa [roundPack] using zero_rounds num neg
  generalize hN : m₁ * 2 ^ 110 = N
  generalize hQ : N / m₂ = Q
  have hQl : 2 ^ 57 ≤ Q := by
    rw [← hQ, Nat.le_div_iff_mul_le (by omega), ← hN]
    calc 2 ^ 57 * m₂ ≤ 2 ^ 57 * 2 ^ 53 := Nat.mul_le_mul_left _ hlt.le
      _ = 1 * 2 ^ 110 := by norm_num
      _ ≤ m₁ * 2 ^ 110 := Nat.mul_le_mul_right _ (by omega)
  have hm2 : (0 : ℚ) < m₂ := by exact_mod_cast Nat.pos_of_ne_zero h2
  have hdm : (N : ℚ) = m₂ * Q + (N % m₂ : Nat) := by
    have := Nat.div_add_mod N m₂
    rw [hQ] at this; exact_mod_cast this.symm
  have hNq : (N : ℚ) = m₁ * 2 ^ 110 := by rw [← hN]; push_cast; rfl
  have hw : ((m₁ : ℚ) / m₂) * 2 ^ (e₁ - e₂) = (2 * (N : ℚ) / m₂) * 2 ^ (e₁ - e₂ - 111) := by
    have : (2 : ℚ) ^ (e₁ - e₂) = 2 ^ 111 * 2 ^ (e₁ - e₂ - 111) := by
      rw [← zpow_natCast, ← zpow_add₀ (by norm_num)]; congr 1; push_cast; ring
    rw [this, hNq]
    generalize (2 : ℚ) ^ (e₁ - e₂ - 111) = c
    field_simp
  rw [hw]
  have hNpos : 0 < N := by rw [← hN]; positivity
  refine roundPack_rounds num neg _ _ _ (by omega) ?_ ?_
  · have : (0 : ℚ) < N := by exact_mod_cast hNpos
    positivity
  · by_cases hr : N % m₂ = 0
    · left
      rw [if_pos hr, hdm, hr]
      push_cast
      field_simp
      ring
    · right
      rw [if_neg hr]
      have r1 : (0 : ℚ) < (N % m₂ : Nat) := by exact_mod_cast Nat.pos_of_ne_zero hr
      have r2 : ((N % m₂ : Nat) : ℚ) < m₂ := by exact_mod_cast Nat.mod_lt N (Nat.pos_of_ne_zero h2)
      refine ⟨by omega, ?_, ?_, ?_⟩
      · rw [lt_div_iff₀ hm2, hdm]; push_cast; nlinarith
      · rw [div_lt_iff₀ hm2, hdm]; push_cast; nlinarith
      · unfold lastPlace
        have : 57 ≤ (2 * Q + 1).log2 := by
          rw [Nat.le_log2 (by omega)]; omega
        omega

end Sys2Proof.Machine
end

