-- ==== Sys2Proof/Laws/PerInstr.lean ====
section
/-!
SUPPORT. Statements made per instruction: the encoding of a well-formed command is selected by the
command's own row of the opcode map (30_encoding.md rules R94, R99).
-/

namespace Sys2Proof.Laws.EncodeSelectsRow

/-- The row of the command selects its encoding. -/
def Statement (i : Instr) : Prop := i.wf = true → i.opcode.selects (encode i) = true

theorem selectAddress (a7 : Addr7) : Statement (.selectAddress a7) := fun _ => by
  revert a7; decide

theorem regRead (reg : BitVec 3) : Statement (.regRead reg) := fun _ => by
  revert reg; decide

theorem regWrite (reg : BitVec 3) : Statement (.regWrite reg) := fun _ => by
  revert reg; decide

theorem fieldRead (fld : BitVec 5) : Statement (.fieldRead fld) := fun _ => by
  revert fld; decide

theorem fieldWrite (fld : BitVec 5) : Statement (.fieldWrite fld) := fun _ => by
  revert fld; decide

theorem setup : Statement .setup := fun _ => by decide

theorem update : Statement .update := fun _ => by decide

theorem getTemperature : Statement .getTemperature := fun _ => by decide

theorem getPressure : Statement .getPressure := fun _ => by decide

theorem getAltitude (manual : Bool) : Statement (.getAltitude manual) := fun _ => by
  revert manual; decide

theorem compT : Statement .compT := fun _ => by decide

theorem compP : Statement .compP := fun _ => by decide

end Sys2Proof.Laws.EncodeSelectsRow
end

