-- ==== Sys2Proof/Laws/Steps.lean ====
section
/-!
SUPPORT. What one atomic step of each procedure can do, said once (10_state.md rule R41), and what a
run can do (60_exceptions.md rule R276).
-/

namespace Sys2Proof.Machine

/-- The commands that run `Update()`. -/
theorem measures_iff (i : Instr) : measures i = true ↔
    i = .update ∨ i = .getTemperature ∨ i = .getPressure ∨ ∃ m, i = .getAltitude m := by
  cases i <;> simp [measures]

/-- A step inside a setup or an update belongs to a command that has it. -/
theorem fits_cases (i : Instr) (p : Phase) (h : fits i p = true) :
    (measures i = true → p = .decode ∨ p.inSetup = true ∨ p.inUpdate = true) ∧
    (i = .setup → p = .decode ∨ p.inSetup = true) := by
  cases p <;> cases i <;> simp_all [fits, measures, Phase.inSetup, Phase.inUpdate]

/-- The transaction goes to the selected address and to a sensor register, with as many bytes as the
register has, and so has an `OK` to a read (41_transport.md rules R151, R156). -/
def State.Addresses (s : State) (t : Txn) (a : Answer) : Prop :=
  (∃ r : RegId, t = .read s.selA7 (r.base s.params) r.bytes ∧
    ∀ b, a = .ok b → b.length = r.bytes) ∨
  ∃ (r : RegId) (b : List Byte), t = .write s.selA7 (r.base s.params) b ∧ b.length = r.bytes

/-- The step makes one transaction, to the selected address, and what it comes to from the state
after the transaction is one of `P`. -/
def State.BusStep (s : State) (P : State → Progress → Prop) (x : Progress) : Prop :=
  ∃ t a, s.Addresses t a ∧ P (s.record t a) x

/-- The step ends the command with an error that concerns its transaction. -/
def RaisesBus (u : State) (x : Progress) : Prop :=
  ∃ e reg dir data, e.setsPerr = false ∧ x = .ends (u.raiseBus e reg dir data)

/-- The transaction of a read step. -/
theorem addresses_read (s : State) (r : RegId) :
    s.Addresses (s.readTxn (r.base s.params) r.bytes)
      (readAnswer s (s.readTxn (r.base s.params) r.bytes) r.bytes) :=
  .inl ⟨r, rfl, fun b => readAnswer_ok_length _ _ _ b⟩

/-- A read step: an error, or the continuation. -/
theorem memRead_step (s : State) (r : RegId) (k : State → Raw → Progress)
    (P : State → Progress → Prop) (hn : ∀ u x, RaisesBus u x → P u x)
    (hk : ∀ u raw, P u (k u raw)) : s.BusStep P (memRead s (r.base s.params) r.bytes k) := by
  have ha := addresses_read s r
  rcases memRead_cases s (r.base s.params) r.bytes k with ⟨he, h⟩ | ⟨b, he, h⟩ <;> rw [he] at ha
  · exact ⟨_, _, ha, hn _ _ ⟨_, _, _, _, rfl, h⟩⟩
  · exact ⟨_, _, ha, h ▸ hk _ _⟩

/-- A write step: an error, or the continuation. -/
theorem memWrite_step (s : State) (r : RegId) (b : List Byte) (hb : b.length = r.bytes)
    (k : State → Progress) (P : State → Progress → Prop) (hn : ∀ u x, RaisesBus u x → P u x)
    (hk : ∀ u, P u (k u)) : s.BusStep P (memWrite s (r.base s.params) b k) := by
  rcases memWrite_cases s (r.base s.params) b k with ⟨-, h⟩ | ⟨c, -, h⟩
  · exact ⟨_, _, .inr ⟨r, b, rfl, hb⟩, hn _ _ ⟨_, _, _, _, rfl, h⟩⟩
  · exact ⟨_, _, .inr ⟨r, b, rfl, hb⟩, h ▸ hk _⟩

/-! ### Setup() -/

/-- The first step of a setup. -/
theorem setupStart_cases (s : State) :
    (s.sstate ≠ .uninitialized ∧ setupStart s = .returned s) ∨
    (s.sstate = .uninitialized ∧ ∃ e, setupStart s = .ends (s.raise e)) ∨
    (s.sstate = .uninitialized ∧ s.params.candidate s.lsaddr = true ∧
      (s.addrSel = true → s.selA7 = s.lsaddr) ∧
      ∃ c, setupStart s =
        .ends ({ s with addrSel := true, selA7 := s.lsaddr }.goto (.setupChipId c))) := by
  unfold setupStart
  split
  · rename_i h
    split
    · rename_i hc
      split
      · exact .inr (.inl ⟨h, _, rfl⟩)
      · split
        · exact .inr (.inl ⟨h, _, rfl⟩)
        · rename_i hn
          exact .inr (.inr ⟨h, hc, by simpa using hn, _, rfl⟩)
    · exact .inr (.inl ⟨h, _, rfl⟩)
  · exact .inl ⟨by assumption, rfl⟩

/-- What a later step of a setup comes to after its transaction: an error, the next step of the
setup, or the configuration, in the state the transaction left. -/
def SetupEnd (u : State) (x : Progress) : Prop :=
  RaisesBus u x ∨ (∃ q, q.inSetup = true ∧ x = .ends (u.goto q)) ∨
    ∃ cal m, x = .returned (u.configured cal m)

/-- A later step of a setup. -/
theorem setupStep_bus (s : State) (p : Phase) (hs : s.seq = .run p) (hp : p.inSetup = true) :
    s.BusStep SetupEnd (setupStep s) := by
  have stop : ∀ u x, RaisesBus u x → SetupEnd u x := fun _ _ h => .inl h
  have goes : ∀ u q, q.inSetup = true → SetupEnd u (.ends (u.goto q)) :=
    fun _ q h => .inr (.inl ⟨q, h, rfl⟩)
  cases p <;> simp only [Phase.inSetup, Bool.false_eq_true] at hp <;>
    simp only [setupStep, hs]
  case setupChipId c =>
    unfold setupChipId
    refine memRead_step _ .chipId _ _ stop fun u raw => ?_
    split
    · exact goes _ _ rfl
    · exact stop _ _ ⟨_, _, _, _, rfl, rfl⟩
  case setupCtrlRead c => exact memRead_step _ .ctrlMeas _ _ stop fun u raw => goes _ _ rfl
  case setupCtrlWrite c v => exact memWrite_step _ .ctrlMeas _ rfl _ _ stop fun u => goes _ _ rfl
  case setupConfigRead c => exact memRead_step _ .config _ _ stop fun u raw => goes _ _ rfl
  case setupConfigWrite c v => exact memWrite_step _ .config _ rfl _ _ stop fun u => goes _ _ rfl
  case setupCal c =>
    exact memRead_step _ .calibration _ _ stop fun u raw => .inr (.inr ⟨_, _, rfl⟩)

/-! ### Update() -/

/-- The step that follows the implicit setup: `POLLCNT` is cleared, and the command goes on with the
trigger or the data read. -/
theorem updateStart_eq (s : State) :
    updateStart s = { s with
      pollcnt := 0, seq := .run (if s.smode = .forced then .triggerRead else .dataRead) } := by
  unfold updateStart
  split <;> rename_i h <;> simp only [State.goto] at h ⊢ <;> simp [h]

/-- The head of the poll loop: the timeout, or the next status read. -/
theorem pollHead_cases (s : State) :
    (∃ reg, pollHead s = { s with sstate := .idle }.raiseBus .conversionTimeout reg false 0) ∨
    pollHead s = s.goto .poll := by
  unfold pollHead
  split
  · exact .inl ⟨_, rfl⟩
  · exact .inr rfl

/-- What a step of an update, past its implicit setup, comes to after its transaction. -/
def UpdateEnd (p : Phase) (u : State) (x : Progress) : Prop :=
  (p ≠ .poll ∧ RaisesBus u x) ∨
  (p = .triggerRead ∧ ∃ v, x = .ends (u.goto (.triggerWrite v))) ∨
  ((∃ v, p = .triggerWrite v) ∧ x = .ends (pollHead { u with sstate := .converting })) ∨
  (p = .poll ∧ (RaisesBus { u with sstate := .idle } x ∨
    x = .ends (pollHead { u with pollcnt := u.pollcnt + 1 }) ∨
    x = .ends ({ u with pollcnt := u.pollcnt + 1, sstate := .idle }.goto .dataRead))) ∨
  (p = .dataRead ∧ ∃ raw, x = .returned (u.measured raw))

/-- A step of an update past its implicit setup. -/
theorem updateStep_bus (s : State) (p : Phase) (hs : s.seq = .run p) (hp : p.inUpdate = true) :
    s.BusStep (UpdateEnd p) (updateStep s) := by
  cases p <;> simp only [Phase.inUpdate, Bool.false_eq_true] at hp <;>
    simp only [updateStep, hs]
  case triggerRead =>
    exact memRead_step _ .ctrlMeas _ _ (fun _ _ h => .inl ⟨by simp, h⟩)
      fun u raw => .inr (.inl ⟨rfl, _, rfl⟩)
  case triggerWrite v =>
    exact memWrite_step _ .ctrlMeas _ rfl _ _ (fun _ _ h => .inl ⟨by simp, h⟩)
      fun u => .inr (.inr (.inl ⟨⟨v, rfl⟩, rfl⟩))
  case poll =>
    refine ⟨s.readTxn (RegId.status.base s.params) 1,
      readAnswer s (s.readTxn (RegId.status.base s.params) 1) 1, addresses_read s .status,
      .inr (.inr (.inr (.inl ⟨rfl, ?_⟩)))⟩
    simp only [pollStep, busRead]
    cases readAnswer s (s.readTxn (RegId.status.base s.params) 1) 1 with
    | nack => exact .inl ⟨_, _, _, _, rfl, rfl⟩
    | ok b =>
      simp only
      split
      · exact .inr (.inl rfl)
      · exact .inr (.inr rfl)
  case dataRead =>
    exact memRead_step _ .data _ _ (fun _ _ h => .inl ⟨by simp, h⟩)
      fun u raw => .inr (.inr (.inr (.inr ⟨rfl, _, rfl⟩)))

/-- Before and inside its implicit setup, an update's step is the setup's, with `updateStart` where
the setup returns. -/
theorem updateStep_setup (s : State) (h : s.seq = .idle ∨ s.seq = .run .decode ∨
    ∃ p, s.seq = .run p ∧ p.inSetup = true) : updateStep s = updateSetup s := by
  rcases h with h | h | ⟨p, h, hp⟩
  · simp [updateStep, h]
  · simp [updateStep, h]
  · cases p <;> simp [Phase.inSetup] at hp <;> simp [updateStep, h]

/-! ### The transport and the field commands -/

/-- What a step of `REG_READ`, `REG_WRITE`, `FIELD_READ` or `FIELD_WRITE` comes to after its
transaction. Only the reads change `RDATA`. -/
def RegisterEnd (i : Instr) (reads : Bool) (u : State) (x : Progress) : Prop :=
  RaisesBus u x ∨ (∃ e, x = .ends (u.raise e)) ∨
    (∃ q, fits i q = true ∧ q ≠ .decode ∧ q.inSetup = false ∧ q.inUpdate = false ∧
      x = .ends (u.goto q)) ∨
    ∃ r, (reads = false → r = u.rdata) ∧ x = .returned { u with rdata := r }

/-- What a step of `REG_READ`, `REG_WRITE`, `FIELD_READ` or `FIELD_WRITE` can do: end in an error
without a transaction, go on to its first transaction, make a transaction, or, on no step of its
own, stray. -/
def RegisterStep (i : Instr) (reads : Bool) (s : State) (x : Progress) : Prop :=
  (∃ e, x = .ends (s.raise e)) ∨
  (s.addrSel = true ∧ ∃ q, fits i q = true ∧ q ≠ .decode ∧ q.inSetup = false ∧
    q.inUpdate = false ∧ x = .ends (s.goto q)) ∨
  ((∃ p, s.seq = .run p ∧ p ≠ .decode ∧ p.inSetup = false ∧ p.inUpdate = false) ∧
    s.BusStep (RegisterEnd i reads) x) ∨
  ((∃ p, s.seq = .run p ∧ fits i p = false) ∧ x = .stray)

/-- The sequencer of a command that is none of `i`'s steps. -/
theorem registerStep_stray (i : Instr) (reads : Bool) (s : State) (p : Phase)
    (hs : s.seq = .run p) (hp : fits i p = false) : RegisterStep i reads s .stray :=
  .inr (.inr (.inr ⟨⟨p, hs, hp⟩, rfl⟩))

/-- A step of `REG_READ`. -/
theorem regReadStep_cases (reg : BitVec 3) (s : State) :
    RegisterStep (.regRead reg) true s (regReadStep reg s) := by
  have start : RegisterStep (.regRead reg) true s (regReadStart s) := by
    unfold regReadStart
    split
    · exact .inr (.inl ⟨by assumption, .regRead, rfl, by simp, rfl, rfl, rfl⟩)
    · exact .inl ⟨_, rfl⟩
  unfold regReadStep
  split
  · exact .inl ⟨_, rfl⟩
  · split
    · exact start
    · exact start
    · refine .inr (.inr (.inl ⟨⟨_, by assumption, by simp, rfl, rfl⟩, ?_⟩))
      exact memRead_step _ _ _ _ (fun _ _ h => .inl h)
        fun u raw => .inr (.inr (.inr ⟨raw, by simp, rfl⟩))
    · rename_i p _ _ _
      refine registerStep_stray _ _ _ p (by assumption) ?_
      cases p <;> simp_all [fits, measures]

/-- A step of `REG_WRITE`. -/
theorem regWriteStep_cases (reg : BitVec 3) (s : State) :
    RegisterStep (.regWrite reg) false s (regWriteStep reg s) := by
  have start : ∀ r, RegisterStep (.regWrite reg) false s (regWriteStart r s) := by
    intro r
    unfold regWriteStart
    repeat' split
    · exact .inr (.inl ⟨by assumption, .regWrite, rfl, by simp, rfl, rfl, rfl⟩)
    all_goals exact .inl ⟨_, rfl⟩
  unfold regWriteStep
  split
  · exact .inl ⟨_, rfl⟩
  · split
    · exact start _
    · exact start _
    · refine .inr (.inr (.inl ⟨⟨_, by assumption, by simp, rfl, rfl⟩, ?_⟩))
      exact memWrite_step _ _ _ (bytesOf_length _ _) _ _ (fun _ _ h => .inl h)
        fun u => .inr (.inr (.inr ⟨u.rdata, by simp, rfl⟩))
    · rename_i p _ _ _
      refine registerStep_stray _ _ _ p (by assumption) ?_
      cases p <;> simp_all [fits, measures]

/-- A step of `FIELD_READ`. -/
theorem fieldReadStep_cases (fld : BitVec 5) (s : State) :
    RegisterStep (.fieldRead fld) true s (fieldReadStep fld s) := by
  have start : RegisterStep (.fieldRead fld) true s (fieldReadStart s) := by
    unfold fieldReadStart
    split
    · exact .inr (.inl ⟨by assumption, .fieldRead, rfl, by simp, rfl, rfl, rfl⟩)
    · exact .inl ⟨_, rfl⟩
  unfold fieldReadStep
  split
  · exact .inl ⟨_, rfl⟩
  · split
    · exact start
    · exact start
    · refine .inr (.inr (.inl ⟨⟨_, by assumption, by simp, rfl, rfl⟩, ?_⟩))
      refine memRead_step _ _ _ _ (fun _ _ h => .inl h) fun u raw => ?_
      unfold fieldReadResult
      split
      · exact .inr (.inl ⟨_, rfl⟩)
      · exact .inr (.inr (.inr ⟨_, by simp, rfl⟩))
    · rename_i p _ _ _
      refine registerStep_stray _ _ _ p (by assumption) ?_
      cases p <;> simp_all [fits, measures]

/-- A step of `FIELD_WRITE`. -/
theorem fieldWriteStep_cases (fld : BitVec 5) (s : State) :
    RegisterStep (.fieldWrite fld) false s (fieldWriteStep fld s) := by
  have start : ∀ d, RegisterStep (.fieldWrite fld) false s (fieldWriteStart d s) := by
    intro d
    unfold fieldWriteStart
    repeat' split
    case h_2 =>
      exact .inr (.inl ⟨by assumption, .fieldModify _, rfl, by simp, rfl, rfl, rfl⟩)
    all_goals exact .inl ⟨_, rfl⟩
  unfold fieldWriteStep
  split
  · exact .inl ⟨_, rfl⟩
  · split
    · exact start _
    · exact start _
    · refine .inr (.inr (.inl ⟨⟨_, by assumption, by simp, rfl, rfl⟩, ?_⟩))
      exact memRead_step _ _ _ _ (fun _ _ h => .inl h)
        fun u raw => .inr (.inr (.inl ⟨.fieldWriteBack _, rfl, by simp, rfl, rfl, rfl⟩))
    · refine .inr (.inr (.inl ⟨⟨_, by assumption, by simp, rfl, rfl⟩, ?_⟩))
      exact memWrite_step _ _ _ (bytesOf_length _ _) _ _ (fun _ _ h => .inl h)
        fun u => .inr (.inr (.inr ⟨u.rdata, by simp, rfl⟩))
    · rename_i p _ _ _ _
      refine registerStep_stray _ _ _ p (by assumption) ?_
      cases p <;> simp_all [fits, measures]

/-- `SELECT_ADDRESS` in its one step. -/
theorem selectStep_cases (a7 : Addr7) (s : State) :
    (∃ e, selectStep a7 s = .ends (s.raise e)) ∨ selectStep a7 s = .returned s ∨
    (s.addrSel = false ∧ s.params.candidate a7 = true ∧
      selectStep a7 s = .returned { s with addrSel := true, selA7 := a7 }) := by
  unfold selectStep
  split
  · split
    · split
      · exact .inr (.inl rfl)
      · exact .inl ⟨_, rfl⟩
    · rename_i hc hn
      exact .inr (.inr ⟨by simpa using hn, hc, rfl⟩)
  · exact .inl ⟨_, rfl⟩

/-! ### A step of the machine -/

/-- A step that answers a next state: a move in which the sequencer does not act, or one atomic step
of the running command. -/
theorem step_cases (s t : State) (h : step s = .next t) :
    nextMove s = .made t ∨ ∃ u, nextMove s = .command u ∧ runCommand u = .next t := by
  unfold step at h
  split at h
  · injection h with h; subst h; exact .inl (by assumption)
  · exact .inr ⟨_, by assumption, h⟩
  · cases h

/-- A move in which the sequencer does not act: nothing or the host's list alone is changed, or
block reset, a host read, or a host write of a register. -/
theorem nextMove_made (s t : State) (h : nextMove s = .made t) :
    t = s ∨ ∃ rest, t = { s with host := rest } ∨
      (s.resetNext = true ∧ t = { s with host := rest }.blockReset) ∨
      (∃ off, t = hostRead { s with host := rest } off) ∨
      ∃ off v, t = { s with host := rest }.writeCsr off v := by
  unfold nextMove sequencerTurn at h
  split at h
  · split at h
    · cases h
    · injection h with h; exact .inl h.symm
  · split at h
    · cases h
    · injection h with h; exact .inr ⟨_, .inl h.symm⟩
  · split at h
    · cases h
    · injection h with h; exact .inr ⟨_, .inl h.symm⟩
  · injection h with h
    exact .inr ⟨_, .inr (.inl ⟨by simp [State.resetNext, *], h.symm⟩)⟩
  · split at h
    · cases h
    · injection h with h; exact .inr ⟨_, .inr (.inr (.inl ⟨_, h.symm⟩))⟩
  · split at h
    · cases h
    · unfold hostWrite at h
      split at h
      · split at h
        · injection h with h; exact .inr ⟨_, .inl h.symm⟩
        · cases h
      · injection h with h; exact .inr ⟨_, .inr (.inr (.inr ⟨_, _, h.symm⟩))⟩

/-- A host write of a register changes only the six writable ones. -/
theorem writeCsr_cases (s : State) (off : Byte) (v : Word) :
    ∃ sa sc a0 a1 a2 a3, s.writeCsr off v =
      { s with saddr := sa, scfg := sc, arg0 := a0, arg1 := a1, arg2 := a2, arg3 := a3 } := by
  unfold State.writeCsr
  split <;> exact ⟨_, _, _, _, _, _, rfl⟩

/-! ### Runs -/

/-- What the end of a run asks: nothing but pauses to come, and an idle sequencer. -/
theorem runOver_iff (s : State) :
    s.runOver = true ↔ (∀ m ∈ s.host, m = .pause) ∧ s.seq = .idle := by
  have h : s.busy = false ↔ s.seq = .idle := by
    cases hs : s.seq <;> simp [State.busy, hs]
  rw [← h]
  simp only [State.runOver, Bool.and_eq_true, List.all_eq_true, Bool.not_eq_true']
  refine and_congr (forall₂_congr fun m _ => ?_) Iff.rfl
  cases m <;> simp [HostOp.isPause]

/-- A run that is over has ended where it is. -/
theorem runFor_of_over (k : Nat) {s : State} (h : s.runOver = true) :
    runFor k s = .ended s := by
  cases k <;> simp [runFor, h]

/-- A run that is not over goes on with the next state. -/
theorem runFor_succ (k : Nat) {s t : State} (h : s.runOver = false) (ht : step s = .next t) :
    runFor (k + 1) s = runFor k t := by
  simp [runFor, h, ht]

/-- How a run that has ended came there: it was over at once, or after one step it is a run that has
ended. -/
theorem runFor_ended_cases {k : Nat} {s e : State} (h : runFor k s = .ended e) :
    (s.runOver = true ∧ s = e) ∨
    ∃ j t, k = j + 1 ∧ s.runOver = false ∧ step s = .next t ∧ runFor j t = .ended e := by
  by_cases hs : s.runOver = true
  · rw [runFor_of_over k hs] at h
    injection h with h
    exact .inl ⟨hs, h⟩
  · have hs := Bool.eq_false_iff.mpr hs
    cases k with
    | zero => simp [runFor, hs] at h
    | succ j =>
      cases ht : step s with
      | next t => exact .inr ⟨j, t, rfl, hs, rfl, by rwa [runFor_succ j hs ht] at h⟩
      | fault f => simp [runFor, hs, ht] at h
      | refused r => simp [runFor, hs, ht] at h

end Sys2Proof.Machine
end

