-- ==== Sys2Proof/Tests/Slice0.lean ====
section
/-!
SUPPORT. Tests: ill-formed commands, words written out from the encoding tables, the spec's vectors
(95_test_vectors.md) one step at a time, and for every statement with hypotheses a state and operands
that meet them. The expected values are the spec's.
-/

namespace Sys2Proof.Machine

/-! ### Well-formedness -/

/-- 30_encoding.md rule R95: `REG` 6 names no register. -/
theorem test_wf_refuses_regRead : (Instr.regRead 6).wf = false := by decide

theorem test_wf_refuses_regWrite : (Instr.regWrite 7).wf = false := by decide

/-- 30_encoding.md rule R95: `FLD` 23 names no field. -/
theorem test_wf_refuses_fieldRead : (Instr.fieldRead 23).wf = false := by decide

theorem test_wf_refuses_fieldWrite : (Instr.fieldWrite 31).wf = false := by decide

/-- V-E30: every 7-bit address is a legal operand. -/
theorem test_wf_admits_every_address : (Instr.selectAddress 0x10).wf = true := by decide

/-! ### Decoding: words written out from 30_encoding.md rules R90 to R94 -/

/-- Format A: `OPC = 0x01`, `A7` in bits 6:0. -/
theorem test_decode_selectAddress :
    decode 0b00000001_00000000_00000000_01110111 = .ok (.selectAddress 0b1110111) := by decide

/-- Format R: `OPC = 0x02`, `REG` in bits 2:0. -/
theorem test_decode_regRead :
    decode 0b00000010_00000000_00000000_00000101 = .ok (.regRead 5) := by decide

/-- Format R: `OPC = 0x03`. -/
theorem test_decode_regWrite :
    decode 0b00000011_00000000_00000000_00000011 = .ok (.regWrite 3) := by decide

/-- Format F: `OPC = 0x04`, `FLD` in bits 4:0. -/
theorem test_decode_fieldRead :
    decode 0b00000100_00000000_00000000_00010110 = .ok (.fieldRead 22) := by decide

/-- Format F: `OPC = 0x05`. -/
theorem test_decode_fieldWrite :
    decode 0b00000101_00000000_00000000_00000110 = .ok (.fieldWrite 6) := by decide

/-- Format N: `OPC = 0x10`. -/
theorem test_decode_setup :
    decode 0b00010000_00000000_00000000_00000000 = .ok .setup := by decide

/-- Format N: `OPC = 0x11`. -/
theorem test_decode_update :
    decode 0b00010001_00000000_00000000_00000000 = .ok .update := by decide

/-- Format N: `OPC = 0x12`. -/
theorem test_decode_getTemperature :
    decode 0b00010010_00000000_00000000_00000000 = .ok .getTemperature := by decide

/-- Format N: `OPC = 0x13`. -/
theorem test_decode_getPressure :
    decode 0b00010011_00000000_00000000_00000000 = .ok .getPressure := by decide

/-- Format M: `OPC = 0x14`, `M` in bit 0. -/
theorem test_decode_getAltitude :
    decode 0b00010100_00000000_00000000_00000000 = .ok (.getAltitude false) ∧
    decode 0b00010100_00000000_00000000_00000001 = .ok (.getAltitude true) := by decide

/-- Format N: `OPC = 0x21`. -/
theorem test_decode_compT :
    decode 0b00100001_00000000_00000000_00000000 = .ok .compT := by decide

/-- Format N: `OPC = 0x22`. -/
theorem test_decode_compP :
    decode 0b00100010_00000000_00000000_00000000 = .ok .compP := by decide

/-- V-E20, V-E21, V-E29: the opcode is not in the map. -/
theorem test_decode_refuses_opcodes :
    decode 0x00000000 = .error .unknownOpcode ∧ decode 0xFFFFFFFF = .error .unknownOpcode ∧
    decode 0x15000000 = .error .unknownOpcode := by decide

/-- V-E22, V-E24, V-E26, V-E27, V-E28: a reserved bit of each format. -/
theorem test_decode_refuses_reserved_bits :
    decode 0x01000080 = .error .reservedBit ∧ decode 0x02000008 = .error .reservedBit ∧
    decode 0x05000020 = .error .reservedBit ∧ decode 0x10000001 = .error .reservedBit ∧
    decode 0x14000002 = .error .reservedBit := by decide

/-- V-E23, V-E25: an operand that names no table entry. -/
theorem test_decode_refuses_operands :
    decode 0x02000006 = .error .illegalReg ∧ decode 0x04000017 = .error .illegalFld := by decide

/-! ### Small states -/

/-- What a step that goes on leaves of the next state. -/
def after {α : Type} (o : Host.Outcome State Fault Refusal) (f : State → α) : Option α :=
  match o with
  | .next s => some (f s)
  | .fault _ => none
  | .refused _ => none

/-- The host's next move is to write the command word `w`. -/
def State.asked (s : State) (w : Word) : State := { s with host := [.csrw 0x00 .word w] }

/-- The sensor's next answer is `a`. -/
def State.given (s : State) (a : Answer) : State := { s with script := [a] }

/-- A command, whose word is `w`, is on its step `p`. -/
def State.running (s : State) (w : Word) (p : Phase) : State :=
  { s with lcmd := w, seq := .run p }

/-- The state after V-T1. -/
def selected : State := { State.reset with done := true, addrSel := true, selA7 := 0x76 }

/-- The datasheet calibration block of 95_test_vectors.md part 0. -/
def calBytes : List Byte :=
  [0x70, 0x6B, 0x43, 0x67, 0x18, 0xFC, 0x7D, 0x8E, 0x43, 0xD6, 0xD0, 0x0B,
   0x27, 0x0B, 0x8C, 0x00, 0xF9, 0xFF, 0x8C, 0x3C, 0xF8, 0xC6, 0x70, 0x17]

/-- Its coefficients, as the spec lists them. -/
def calStore : Coeffs :=
  { t1 := 0x6B70, t2 := 0x6743, t3 := 0xFC18, p1 := 0x8E7D, p2 := 0xD643, p3 := 0x0BD0,
    p4 := 0x0B27, p5 := 0x008C, p6 := 0xFFF9, p7 := 0x3C8C, p8 := 0xC6F8, p9 := 0x1770 }

/-- The datasheet data bytes of 95_test_vectors.md part 0. -/
def dataBytes : List Byte := [0x65, 0x5A, 0xC0, 0x7E, 0xED, 0x00]

/-- A session in the mode `m`, as after V-M1 or V-M3. -/
def session (m : Mode) : State :=
  { selected with cal := calStore, calValid := true, sstate := .idle, smode := m }

/-- The codes of the default session, 10_state.md rule R24. -/
def normalCodes : SetupCodes := { m := .normal, cm := 3, ct := 5, cp := 5, cs := 4 }

/-- The codes of V-M3. -/
def forcedCodes : SetupCodes := { m := .forced, cm := 0, ct := 1, cp := 3, cs := 0 }

/-! ### The spec's vectors, one step each -/

/-- V-T1 and V-T3. -/
theorem test_selectAddress_status :
    after (step (State.reset.asked 0x01000076)) State.status = some 0x00760402 ∧
    after (step (selected.asked 0x01000077)) (fun t => (t.status, t.errinfo)) =
      some (0x0076047E, 0x01000000) := by decide

/-- V-T4: an address that is no candidate. -/
theorem test_selectAddress_not_candidate :
    after (step (State.reset.asked 0x01000010)) (fun t => (t.status, t.errinfo)) =
      some (0x0000006E, 0x01000000) := by decide

/-- V-T7: the window after a read of `DATA`. -/
theorem test_regRead_window :
    after (step ((selected.running 0x02000004 .regRead).given (.ok dataBytes)))
      (fun t => [t.readCsr 0x30, t.readCsr 0x34, t.readCsr 0x38, t.readCsr 0x44]) =
      some [0xC07EED00, 0x0000655A, 0, 0] := by decide

/-- V-T9: a failed read. -/
theorem test_regRead_nack :
    after (step ((selected.running 0x02000000 .regRead).given .nack)) (fun t => t.errinfo) =
      some 0x020002D0 := by decide

/-- V-T10: the transaction of a raw write. -/
theorem test_regWrite_transaction :
    after (step ({ selected.running 0x03000002 .regWrite with larg0 := 0xB7 }.given (.ok [])))
      (fun t => (t.history.map BusEvent.txn, t.status)) =
      some ([.write 0x76 0xF4 [0xB7]], 0x00760402) := by decide

/-- V-T11: 256 does not fit. -/
theorem test_regWrite_overflow :
    after (step ({ selected with arg0 := 0x100 }.asked 0x03000002))
      (fun t => (t.errcode, t.errinfo)) = some (some .fieldOverflow, 0x03000000) := by decide

/-- V-F1, V-F6: a lookup field and a signed calibration field. -/
theorem test_fieldRead_values :
    after (step ((selected.running 0x04000006 .fieldRead).given (.ok [0x80])))
      (fun t => t.readCsr 0x30) = some 0x000003E8 ∧
    after (step ((selected.running 0x0400000D .fieldRead).given (.ok calBytes)))
      (fun t => t.readCsr 0x30) = some 0xFFFFFC18 := by decide

/-- V-F4: an unlisted code. -/
theorem test_fieldRead_unlisted :
    after (step ((selected.running 0x04000005 .fieldRead).given (.ok [0x01])))
      (fun t => (t.errcode, t.rdata)) = some (some .unknownSymbol, 0) := by decide

/-- V-F7: `0x80` becomes `0x90`. -/
theorem test_fieldWrite_merge :
    after (step ((selected.running 0x05000007 (.fieldModify 4)).given (.ok [0x80])))
      (fun t => t.seq) = some (.run (.fieldWriteBack 0x90)) := by decide

/-- V-F8 and V-F10: a value that does not fit, and one that is no symbol. -/
theorem test_fieldWrite_errors :
    after (step ({ selected with arg0 := 8 }.asked 0x05000007)) (fun t => t.errcode) =
      some (some .fieldOverflow) ∧
    after (step ({ selected with arg0 := 3 }.asked 0x05000004)) (fun t => t.errcode) =
      some (some .unknownSymbol) := by decide

/-- V-M1, V-M3: the bytes a setup programs. -/
theorem test_setup_bytes :
    setupCodes defaultParams 0x03E8842 = some normalCodes ∧ ctrlMeasByte normalCodes 0 = 0xB7 ∧
    configByte normalCodes 0 = 0x80 ∧ setupCodes defaultParams 0x0001205 = some forcedCodes ∧
    ctrlMeasByte forcedCodes 0 = 0x2C ∧ configByte forcedCodes 0 = 0x00 := by decide

/-- V-M1: the last step of a setup. -/
theorem test_setup_status :
    after (step (({ selected with done := false }.running 0x10000000
      (.setupCal normalCodes)).given (.ok calBytes)))
      (fun t => (t.status, t.cal)) = some (0x02760D02, calStore) := by decide

/-- V-M13: the trigger byte. -/
theorem test_update_trigger :
    after (step (((session .forced).running 0x11000000 .triggerRead).given (.ok [0x2C])))
      (fun t => t.seq) = some (.run (.triggerWrite 0x2E)) := by decide

/-- V-M17: bit 0 of the status byte is ignored. -/
theorem test_update_poll :
    after (step (({ session .forced with sstate := .converting }.running 0x11000000 .poll).given
      (.ok [0x01]))) (fun t => (t.seq, t.sstate, t.pollcnt)) = some (.run .dataRead, .idle, 1) := by
  decide

/-- V-M15: the timeout of a poll with `POLL_LIMIT = 2`. -/
theorem test_getTemperature_timeout :
    after (step (({ session .forced with
        params := { defaultParams with pollLimit := some 2 }, pollcnt := 1,
        sstate := .converting }.running 0x12000000 .poll).given (.ok [0x08])))
      (fun t => (t.errinfo, t.sstate, t.pollcnt)) = some (0x120002F3, .idle, 2) := by decide

/-- V-M18: the failed data read of `GET_PRESSURE`. -/
theorem test_getPressure_nack :
    after (step (((session .normal).running 0x13000000 .dataRead).given .nack))
      (fun t => (t.errinfo, t.res)) = some (0x130002F7, 0) := by decide

/-- V-M12, V-M19: the result of `GET_TEMPERATURE`. -/
theorem test_getTemperature_result :
    after (step ((({ session .normal with done := false }.running 0x12000000
      .dataRead)).given (.ok dataBytes))) (fun t => (t.res, t.tfine, t.status)) =
      some (0x4039151D460F8000, 0x40FF5A6497936000, 0x02763D02) := by decide +kernel

/-- V-M20: the result of `GET_PRESSURE`. -/
theorem test_getPressure_result :
    after (step (((session .normal).running 0x13000000 .dataRead).given (.ok dataBytes)))
      (fun t => t.res) = some 0x408F7442E7504A97 := by decide +kernel

/-- V-M24: equal pressures give `+0.0`, whatever the open power function is. -/
theorem test_getAltitude_level :
    altitudeWith (fun _ _ => 0) .nearestEven 0x408FAA0000000000 0x408FAA0000000000
      0x4039151D460F8000 = 0 := by decide +kernel

/-- V-M23, V-M25: a zero `qnh`, and a zero pressure. -/
theorem test_getAltitude_special :
    altitudeWith (fun _ _ => 0) .nearestEven 0 0x408F7442E7504A97 0x4039151D460F8000 =
      0xC0E6673D6E083DC5 ∧
    altitudeWith (fun _ _ => 0) .nearestEven 0x408FAA0000000000 0 0x4039151D460F8000 =
      0x7FF0000000000000 := by decide +kernel

/-- A `qnh` of `-inf` with IEEE 754's power of negative infinity, `+inf`, gives `+inf`. -/
theorem test_getAltitude_negative_infinity :
    altitudeWith (fun _ _ => 0x7FF0000000000000) .nearestEven 0xFFF0000000000000
      0x408FAA0000000000 0x4039151D460F8000 = 0x7FF0000000000000 := by decide +kernel

/-- IEEE 754: `1/3` and `-1/3` in each rounding direction. -/
theorem test_rounding_directions :
    [Rounding.nearestEven, .nearestAway, .towardZero, .towardPositive, .towardNegative].map
      (fun n => (fdiv n (fl n 1) (fl n 3), fdiv n (fl n (-1)) (fl n 3))) =
      [(0x3FD5555555555555, 0xBFD5555555555555), (0x3FD5555555555555, 0xBFD5555555555555),
       (0x3FD5555555555555, 0xBFD5555555555555), (0x3FD5555555555556, 0xBFD5555555555555),
       (0x3FD5555555555555, 0xBFD5555555555556)] := by decide +kernel

/-- IEEE 754: an exact zero sum is `-0.0` in rounding toward negative infinity, and an overflow stays
finite in rounding toward zero. -/
theorem test_rounding_corners :
    fsub .towardNegative 0x3FF0000000000000 0x3FF0000000000000 = 0x8000000000000000 ∧
    fsub .nearestEven 0x3FF0000000000000 0x3FF0000000000000 = 0 ∧
    fmul .towardZero 0x7FEFFFFFFFFFFFFF 0x4000000000000000 = 0x7FEFFFFFFFFFFFFF ∧
    fmul .nearestEven 0x7FEFFFFFFFFFFFFF 0x4000000000000000 = 0x7FF0000000000000 := by
  decide +kernel

/-- V-K3, V-K4: `COMP_T` with the datasheet coefficients; bits 31:20 of the argument are ignored. -/
theorem test_compT_result :
    after (step ({ session .normal with arg0 := 0xFFF7EED0 }.asked 0x21000000))
      (fun t => (t.res, t.tfine, t.tfineValid, t.measValid, t.rawT)) =
      some (0x4039151D460F8000, 0x40FF5A6497936000, true, false, 0x7EED0) := by decide +kernel

/-- V-K1: no calibration. -/
theorem test_compT_sequence :
    after (step (State.reset.asked 0x21000000)) (fun t => (t.status, t.errinfo)) =
      some (0x0000007E, 0x21000000) := by decide

/-- V-K5: `COMP_P` in Pa. -/
theorem test_compP_result :
    after (step ({ session .normal with
        tfine := 0x40FF5A6497936000, tfineValid := true, arg0 := 415148 }.asked 0x22000000))
      (fun t => (t.res, t.rawP)) = some (0x40F892D444B6BA46, 0x655AC) := by decide +kernel

/-- V-CP6: `dig_p1 = 0`. -/
theorem test_compP_zero_denominator :
    compP .nearestEven { calStore with p1 := 0 } 415148 0x40FF5A6497936000 = 0 := by decide +kernel

/-- V-S1, V-S2, V-S3: what the host reads after reset. -/
theorem test_reset_reads :
    (State.reset.readCsr 0x04, State.reset.readCsr 0x08, State.reset.readCsr 0x0C,
      State.reset.readCsr 0x00) = (0x00000000, 0x00000076, 0x003E8842, 0x00000000) := by decide

/-! ### Witnesses: for each statement with hypotheses, a state and operands that meet them -/

/-- A command is in its first step. -/
def begun (s : State) : State := s.running 0x11000000 .decode

/-- A session in the poll, with the limit `n`. -/
def polling (n : Option Nat) : State :=
  { session .forced with
    params := { defaultParams with pollLimit := n }
    sstate := .converting
    done := false
    lcmd := 0x11000000
    seq := .run .poll }

/-- A read of `CHIP_ID`, as the transaction of a witness. -/
def chipIdRead : Txn := .read 0x76 0xD0 1

theorem witness_EncodeThenDecode :
    (Instr.regRead 5).wf = true ∧ (Instr.fieldWrite 22).wf = true := by decide

theorem witness_DecodeThenEncode : decode 0x05000016 = .ok (.fieldWrite 22) := by decide

theorem witness_OpcodeRowsAreDisjoint : Opcode.getAltitude.selects 0x14000001 = true := by decide

theorem witness_IllegalWordRaisesIllegalCommand :
    (decode 0x02000005 = .ok (.regRead 5) ∧ decode 0x02000006 = .error .illegalReg) ∧
    (decode 0x04000016 = .ok (.fieldRead 22) ∧ decode 0x04000017 = .error .illegalFld) ∧
    (State.reset.asked 0x02000006).host = [.csrw 0x00 .word 0x02000006] ∧
    (State.reset.asked 0x02000006).seq = .idle ∧ decode 0x00FFFFFF = .error .unknownOpcode := by
  decide

theorem witness_StepRunsTheWrittenCommand :
    (State.reset.asked 0x10000000).host = [.csrw 0x00 .word 0x10000000] ∧
    (State.reset.asked 0x10000000).seq = .idle ∧ decode 0x10000000 = .ok .setup := by decide

theorem witness_StepRunsTheNextAtomicStep :
    (begun State.reset).seq = .run .decode ∧ decode (begun State.reset).lcmd = .ok .update ∧
    (begun State.reset).host = [] ∧
    ({ begun State.reset with host := [.pause] } : State).host = .pause :: [] ∧
    ({ begun State.reset with host := [.waitIdle] } : State).host = .waitIdle :: [] ∧
    State.reset.seq = .idle ∧ State.reset.host = [] ∧
    ({ State.reset with host := [.pause] } : State).host = .pause :: [] ∧
    ({ State.reset with host := [.waitIdle] } : State).host = .waitIdle :: [] := by decide

theorem witness_CommandRegister :
    ((State.reset.asked 0xFFFFFFFF).host = .csrw 0x00 .word 0xFFFFFFFF :: [] ∧
      (State.reset.asked 0xFFFFFFFF).status.getLsbD 0 = false) ∧
    (((begun State.reset).asked 0x10000000).host = .csrw 0x00 .word 0x10000000 :: [] ∧
      ((begun State.reset).asked 0x10000000).status.getLsbD 0 = true) := by decide

theorem witness_OnlyUnadmittedAccessesAreRefused :
    ({ State.reset with host := [.csrr 0x00 .byte] } : State).host = .csrr 0x00 .byte :: [] ∧
    ({ State.reset with host := [.csrw 0x03 .word 0] } : State).host = .csrw 0x03 .word 0 :: [] ∧
    (0x01 : Byte).toNat % 4 ≠ 0 ∧ (0x03 : Byte).toNat % 4 ≠ 0 ∧
    step { State.reset with host := [.csrr 0x01 .word] } = .refused .hostAccessMisaligned :=
  ⟨rfl, rfl, by decide, by decide, rfl⟩

theorem witness_HostReadHasNoSideEffect :
    (0xFC : Byte).toNat % 4 = 0 ∧
    ({ begun State.reset with host := [.csrr 0xFC .word] } : State).host =
      .csrr 0xFC .word :: [] ∧
    ((0x68 : Byte), State.reset.tfine) ∈ [((0x48 : Byte), State.reset.temp), (0x68, 0)] ∧
    ({ State.reset with host := read64Op 0x68 } : State).host = read64Op 0x68 ++ [] := by decide

theorem witness_HostWriteStoresTheWritableBits :
    ∀ off ∈ ([0x08, 0x0C, 0x10, 0x14, 0x18, 0x1C] : List Byte),
      ({ State.reset with host := [.csrw off .word 0xFFFFFFFF] } : State).host =
        .csrw off .word 0xFFFFFFFF :: [] := fun _ _ => rfl

theorem witness_OtherOffsetsIgnoreWrites :
    (∀ off ∈ ([0x04, 0x20, 0x9C, 0xFC] : List Byte), off.toNat % 4 = 0 ∧
      (off.toNat = 0x04 ∨ 0x20 ≤ off.toNat) ∧
      ({ State.reset with host := [.csrw off .word 1] } : State).host = .csrw off .word 1 :: []) ∧
    0xA0 ≤ (0xA0 : Byte).toNat := by decide

theorem witness_ResultRegistersShowTheState :
    ({ State.reset with pollcnt := 2 ^ 32 - 1 } : State).pollcnt < 2 ^ 32 := by decide

theorem witness_BlockResetClearsTheBlock :
    ({ polling none with host := [.reset] } : State).host = .reset :: [] := by decide

theorem witness_EndsOfACommand :
    (none : Option ErrXfer) = none ∧
    some ({ sreg := 0xD0, dir := false } : ErrXfer) = some { sreg := 0xD0, dir := false } := by
  decide

theorem witness_SelectAddressResult :
    ((begun State.reset).seq = .run .decode ∧ (0x75 : Addr7) ≠ defaultParams.a0 ∧
      (0x75 : Addr7) ≠ defaultParams.a1 ∧ (0x78 : Addr7) ≠ defaultParams.a1) ∧
    ((begun selected).seq = .run .decode ∧ (0x76 : Addr7) = (begun selected).params.a0 ∧
      (begun selected).addrSel = true ∧ (begun selected).selA7 = 0x76) ∧
    ((0x77 : Addr7) = (begun selected).params.a1 ∧ (begun selected).selA7 ≠ 0x77) ∧
    (begun State.reset).addrSel = false := by decide

theorem witness_RegReadResult :
    5 < (6 : BitVec 3).toNat ∧
    ((5 : BitVec 3).toNat, selected.params.sreg.calibration, 24) ∈
      [(5, selected.params.sreg.calibration, 24)] ∧
    ((begun State.reset).seq = .run .decode ∧ (begun State.reset).addrSel = false) ∧
    ((begun selected).seq = .run .decode ∧ (begun selected).addrSel = true) ∧
    (let s := (selected.running 0x02000005 .regRead).given .nack
     s.seq = .run .regRead ∧ readAnswer s (.read s.selA7 0x88 24) 24 = .nack) ∧
    (let s := (selected.running 0x02000005 .regRead).given (.ok calBytes)
     s.seq = .run .regRead ∧ readAnswer s (.read s.selA7 0x88 24) 24 = .ok calBytes) := by decide

theorem witness_RegWriteResult :
    5 < (6 : BitVec 3).toNat ∧ (5 : BitVec 3).toNat ≤ 5 ∧ (5 : BitVec 3).toNat ∈ [0, 1, 4, 5] ∧
    ((3 : BitVec 3).toNat, selected.params.sreg.config) ∈
      [(2, selected.params.sreg.ctrlMeas), (3, selected.params.sreg.config)] ∧
    ((begun State.reset).seq = .run .decode ∧ (begun State.reset).addrSel = false) ∧
    ((begun selected).seq = .run .decode ∧ (begun selected).addrSel = true) ∧
    256 ≤ ({ begun selected with larg0 := 256 } : State).larg0.toNat ∧
    ({ begun selected with larg0 := 255 } : State).larg0.toNat < 256 ∧
    (let s := (selected.running 0x03000003 .regWrite).given .nack
     s.seq = .run .regWrite ∧ writeAnswer s (.write s.selA7 0xF5 [0]) = .nack) ∧
    (let s := (selected.running 0x03000003 .regWrite).given (.ok [])
     s.seq = .run .regWrite ∧ writeAnswer s (.write s.selA7 0xF5 [0]) = .ok []) := by decide

theorem witness_FieldReadResult :
    22 < (23 : BitVec 5).toNat ∧ (fieldAt 22).isSome = true ∧
    fieldAt 5 = some { reg := .ctrlMeas, mask := 0x03, codec := .lookup .mode, ro := false } ∧
    ((begun State.reset).seq = .run .decode ∧ (begun State.reset).addrSel = false) ∧
    ((begun selected).seq = .run .decode ∧ (begun selected).addrSel = true) ∧
    (let s := (selected.running 0x04000005 .fieldRead).given .nack
     s.seq = .run .fieldRead ∧ readAnswer s (.read s.selA7 0xF4 1) 1 = .nack) ∧
    (let s := (selected.running 0x04000005 .fieldRead).given (.ok [0x01])
     s.seq = .run .fieldRead ∧ readAnswer s (.read s.selA7 0xF4 1) 1 = .ok [0x01] ∧
       decodeField s.params (.lookup .mode) ((assemble [0x01] &&& 0x03) >>> maskLsb 0x03) =
         .error .unknownSymbol ∧
       decodeField s.params (.lookup .mode) ((assemble [0xB7] &&& 0x03) >>> maskLsb 0x03) =
         .ok 2) := by decide

theorem witness_FieldWriteResult :
    22 < (23 : BitVec 5).toNat ∧
    (let d : Field := { reg := .config, mask := 0x1C, codec := .rawUnsigned, ro := false }
     fieldAt 7 = some d ∧ d.ro = false ∧
       encodeField defaultParams d 8 = .error .fieldOverflow ∧
       encodeField defaultParams d 7 = .ok 7) ∧
    fieldAt 8 = some { reg := .config, mask := 0x01, codec := .rawUnsigned, ro := true } ∧
    ((begun State.reset).seq = .run .decode ∧ (begun State.reset).addrSel = false) ∧
    ((begun selected).seq = .run .decode ∧ (begun selected).addrSel = true) ∧
    (let s := (selected.running 0x05000007 (.fieldModify 7)).given .nack
     s.seq = .run (.fieldModify 7) ∧ readAnswer s (.read s.selA7 0xF5 1) 1 = .nack) ∧
    (let s := (selected.running 0x05000007 (.fieldModify 7)).given (.ok [0x80])
     s.seq = .run (.fieldModify 7) ∧ readAnswer s (.read s.selA7 0xF5 1) 1 = .ok [0x80]) ∧
    (let s := (selected.running 0x05000007 (.fieldWriteBack 0x9C)).given .nack
     s.seq = .run (.fieldWriteBack 0x9C) ∧ writeAnswer s (.write s.selA7 0xF5 [0x9C]) = .nack) ∧
    (let s := (selected.running 0x05000007 (.fieldWriteBack 0x9C)).given (.ok [])
     s.seq = .run (.fieldWriteBack 0x9C) ∧
       writeAnswer s (.write s.selA7 0xF5 [0x9C]) = .ok []) := by decide

theorem witness_LookupRoundTrip :
    defaultParams.lookup.wf = true ∧
    ((8000, 7) ∈ Table.tsb.rows defaultParams.lookup ∧ 7 = (7 : Raw).toNat) ∧
    (∀ r ∈ Table.mode.rows defaultParams.lookup, r.2 ≠ (1 : Raw).toNat) ∧
    (∀ r ∈ Table.osrs.rows defaultParams.lookup, r.1 ≠ (17 : Word).toNat) ∧
    (let d : Field := { reg := .config, mask := 0xE0, codec := .lookup .tsb, ro := false }
     d ∈ fieldTable ∧ d.codec = .lookup .tsb ∧
       ((8000 : Word).toNat, 7) ∈ Table.tsb.rows defaultParams.lookup) := by decide

theorem witness_RawFieldFitCheck :
    (7 < 2 ^ maskWidth 0x1C ∧ 2 ^ maskWidth 0x1C ≤ 8) ∧
    (0xFFFFFFFF : Raw).toNat < 2 ^ 32 ∧
    (let d : Field := { reg := .config, mask := 0x1C, codec := .rawUnsigned, ro := false }
     d.codec = .rawUnsigned ∧ (7 : Word).toNat < 2 ^ maskWidth d.mask ∧
       2 ^ maskWidth d.mask ≤ (8 : Word).toNat) := by decide

theorem witness_MergeKeepsOtherFields :
    (let d : Field := { reg := .config, mask := 0x1C, codec := .rawUnsigned, ro := false }
     d ∈ fieldTable ∧ 7 < 2 ^ maskWidth d.mask ∧ d.mask.getLsbD 1 = false ∧
       d.mask.getLsbD 5 = false) := by decide

theorem witness_RegisterByteOrder :
    calBytes.length ≤ 24 ∧ 0 < calBytes.length ∧ 23 < calBytes.length ∧
    1 < 2 ∧ (0x706B : Raw).toNat < 2 ^ (8 * 2) := by decide

theorem witness_CoefficientByteOrder :
    calBytes.length = 24 ∧ 0 < 12 ∧ 11 < 12 ∧
    (0x18FC : Raw) = ((0x18 : Byte) ++ (0xFC : Byte)).setWidth 192 ∧ defaultParams.coeffOrder = .lsbFirst ∧
    ({ defaultParams with coeffOrder := .msbFirst } : Params).coeffOrder = .msbFirst := by decide

theorem witness_SignedFromUnsignedCodec :
    ((-32768 : Int) ≤ -32768 ∧ (-32768 : Int) ≤ 32767 ∧ (32767 : Int) ≤ 32767) ∧
    ((-32769 : Int) < -32768 ∧ (32767 : Int) < 32768) := by decide

theorem witness_SetupIsIdempotent :
    ((begun (session .forced)).seq = .run .decode ∧
      (begun (session .forced)).sstate ≠ .uninitialized ∧ measures .update = true ∧
      (begun (session .forced)).smode = .forced) ∧
    ((begun (session .normal)).seq = .run .decode ∧
      (begun (session .normal)).sstate ≠ .uninitialized ∧ measures (.getAltitude true) = true ∧
      (begun (session .normal)).smode ≠ .forced) := by decide

theorem witness_SetupChecksItsArgumentsFirst :
    ((begun State.reset).seq = .run .decode ∧ (begun State.reset).sstate = .uninitialized ∧
      measures .update = true) ∧
    ((0x75 : Addr7) ≠ defaultParams.a0 ∧ (0x75 : Addr7) ≠ defaultParams.a1) ∧
    setupCodes defaultParams 3 = none ∧
    setupCodes defaultParams 0x03E8842 = some normalCodes ∧
    (let s : State := { begun selected with lsaddr := 0x77, lscfg := 0x03E8842 }
     s.lsaddr = s.params.a1 ∧ s.addrSel = true ∧ s.selA7 ≠ s.lsaddr) ∧
    (let s : State := { begun State.reset with lsaddr := 0x76, lscfg := 0x03E8842 }
     s.lsaddr = s.params.a0 ∧ s.addrSel = false) := by decide

theorem witness_SetupAcceptsExactlyTheSymbols :
    defaultParams.lookup = defaultLookup ∧
    setupCodes defaultParams 0x03E8842 = some normalCodes ∧ normalCodes.m = .normal ∧
    setupCodes defaultParams 0x0001205 = some forcedCodes ∧ forcedCodes.m ≠ .normal := by decide

theorem witness_SetupChecksTheChipIdentity :
    (let s := (selected.running 0x10000000 (.setupChipId normalCodes)).given .nack
     s.seq = .run (.setupChipId normalCodes) ∧ readAnswer s chipIdRead 1 = .nack) ∧
    (let s := (selected.running 0x10000000 (.setupChipId normalCodes)).given (.ok [0x60])
     readAnswer s chipIdRead 1 = .ok [0x60] ∧ 0x60 = s.params.chipIdAlt) ∧
    (let s := (selected.running 0x10000000 (.setupChipId normalCodes)).given (.ok [0x59])
     readAnswer s chipIdRead 1 = .ok [0x59] ∧ (0x59 : Byte) ≠ 0x58 ∧
       0x59 ≠ s.params.chipIdAlt) := by decide

theorem witness_SetupProgramsTheSensor :
    (let s := selected.running 0x10000000 (.setupCtrlRead normalCodes)
     s.seq = .run (.setupCtrlRead normalCodes) ∧
       readAnswer (s.given .nack) (.read s.selA7 0xF4 1) 1 = .nack ∧
       readAnswer (s.given (.ok [0xFF])) (.read s.selA7 0xF4 1) 1 = .ok [0xFF]) ∧
    (let s := selected.running 0x10000000 (.setupCtrlWrite normalCodes 0xB7)
     s.seq = .run (.setupCtrlWrite normalCodes 0xB7) ∧
       writeAnswer (s.given .nack) (.write s.selA7 0xF4 [0xB7]) = .nack ∧
       writeAnswer (s.given (.ok [])) (.write s.selA7 0xF4 [0xB7]) = .ok []) ∧
    (let s := selected.running 0x10000000 (.setupConfigRead normalCodes)
     s.seq = .run (.setupConfigRead normalCodes) ∧
       readAnswer (s.given .nack) (.read s.selA7 0xF5 1) 1 = .nack ∧
       readAnswer (s.given (.ok [0xFF])) (.read s.selA7 0xF5 1) 1 = .ok [0xFF]) ∧
    (let s := selected.running 0x10000000 (.setupConfigWrite normalCodes 0x9F)
     s.seq = .run (.setupConfigWrite normalCodes 0x9F) ∧
       writeAnswer (s.given .nack) (.write s.selA7 0xF5 [0x9F]) = .nack ∧
       writeAnswer (s.given (.ok [])) (.write s.selA7 0xF5 [0x9F]) = .ok []) := by decide

theorem witness_SetupLoadsTheCalibration :
    (let s := selected.running 0x11000000 (.setupCal forcedCodes)
     s.seq = .run (.setupCal forcedCodes) ∧ measures .update = true ∧
       readAnswer (s.given .nack) (.read s.selA7 0x88 24) 24 = .nack ∧
       readAnswer (s.given (.ok calBytes)) (.read s.selA7 0x88 24) 24 = .ok calBytes) := by decide

theorem witness_SetupMakesItsSixTransactions :
    (let s : State := { State.reset with
       host := [.csrw 0x00 .word 0x10000000]
       script := [.ok [0x60], .ok [0], .ok [], .ok [0xFF], .ok [], .ok calBytes] }
     s.seq = .idle ∧ s.sstate = .uninitialized ∧ s.saddr = s.params.a0 ∧
       setupCodes s.params s.scfg = some normalCodes ∧ s.addrSel = false ∧
       0x60 = s.params.chipIdAlt ∧ calBytes.length = 24) := by decide

theorem witness_ForcedTrigger :
    measures .update = true ∧
    (let s := (session .forced).running 0x11000000 .triggerRead
     s.seq = .run .triggerRead ∧
       readAnswer (s.given .nack) (.read s.selA7 0xF4 1) 1 = .nack ∧
       readAnswer (s.given (.ok [0xFF])) (.read s.selA7 0xF4 1) 1 = .ok [0xFF]) ∧
    (let s := (session .forced).running 0x11000000 (.triggerWrite 0x2E)
     s.seq = .run (.triggerWrite 0x2E) ∧ s.pollcnt = 0 ∧ s.params.pollLimit ≠ some 0 ∧
       writeAnswer (s.given .nack) (.write s.selA7 0xF4 [0x2E]) = .nack ∧
       writeAnswer (s.given (.ok [])) (.write s.selA7 0xF4 [0x2E]) = .ok []) := by decide

theorem witness_ConversionPoll :
    measures .getTemperature = true ∧ (polling (some 1)).seq = .run .poll ∧
    readAnswer ((polling (some 1)).given .nack) (.read 0x76 0xF3 1) 1 = .nack ∧
    (readAnswer ((polling (some 1)).given (.ok [0xF7])) (.read 0x76 0xF3 1) 1 = .ok [0xF7] ∧
      (0xF7 : Byte).getLsbD 3 = false) ∧
    (readAnswer ((polling (some 1)).given (.ok [0x08])) (.read 0x76 0xF3 1) 1 = .ok [0x08] ∧
      (0x08 : Byte).getLsbD 3 = true ∧
      (polling (some 1)).params.pollLimit = some ((polling (some 1)).pollcnt + 1)) ∧
    (polling (some 2)).params.pollLimit ≠ some ((polling (some 2)).pollcnt + 1) ∧
    (polling none).params.pollLimit ≠ some ((polling none).pollcnt + 1) := by decide

theorem witness_MeasurementCompletes :
    measures (.getAltitude true) = true ∧
    (let s := (session .normal).running 0x14000001 .dataRead
     s.seq = .run .dataRead ∧
       readAnswer (s.given .nack) (.read s.selA7 0xF7 6) 6 = .nack ∧
       readAnswer (s.given (.ok dataBytes)) (.read s.selA7 0xF7 6) 6 = .ok dataBytes) := by decide

theorem witness_FiniteLimitBoundsThePoll :
    (polling (some 1)).seq = .run .poll ∧ (polling (some 1)).host = [] ∧
    decode (polling (some 1)).lcmd = .ok .update ∧ measures .update = true ∧
    (polling (some 1)).params.pollLimit = some 1 ∧ (polling (some 1)).pollcnt < 1 := by decide

theorem witness_UnboundedPollCanHang :
    (let s : State := { polling none with script := List.replicate 2 (.ok [0x08]) }
     s.seq = .run .poll ∧ s.host = [] ∧ decode s.lcmd = .ok .update ∧ measures .update = true ∧
       s.params.pollLimit = none ∧ s.sstate = .converting ∧ (0x08 : Byte).getLsbD 3 = true ∧
       s.script = List.replicate 2 (.ok [0x08])) := by decide

theorem witness_CompTResult :
    ((begun State.reset).seq = .run .decode ∧ (begun State.reset).calValid = false) ∧
    ((begun (session .normal)).seq = .run .decode ∧
      (begun (session .normal)).calValid = true) := by decide

theorem witness_CompPResult :
    ((begun (session .normal)).seq = .run .decode ∧
      (begun (session .normal)).tfineValid = false) ∧
    ((begun { session .normal with tfineValid := true }).seq = .run .decode ∧
      (begun { session .normal with tfineValid := true }).calValid = true ∧
      (begun { session .normal with tfineValid := true }).tfineValid = true) := by decide

theorem witness_ZeroDenominatorGivesZero :
    compPDenominator .nearestEven { calStore with p1 := 0 } 0 = 0 ∧
    compPDenominator .nearestEven { calStore with p1 := 0, p3 := 0x8000 }
      (fl .nearestEven 100000000) = 0x8000000000000000 ∧
    isFinite (compPScale .nearestEven { calStore with p1 := 0 } 0) = true := by decide +kernel

theorem witness_ArithmeticRoundsTheExactResult :
    (((2 : Int) ^ 53 - 1).natAbs < 2 ^ 53 ∧ (1 - (2 : Int) ^ 53).natAbs < 2 ^ 53) ∧
    (isFinite 0x3FF0000000000000 = true ∧ isFinite 0x0000000000000001 = true ∧
      isFinite 0x7FEFFFFFFFFFFFFF = true) ∧
    (ratOf 0x3FF0000000000000 ≠ 0 ∧ ratOf 0x8000000000000000 = 0 ∧
      ratOf 0x3FF0000000000000 + ratOf 0xBFF0000000000000 = 0 ∧
      ratOf 0x3FF0000000000000 - ratOf 0x3FF0000000000000 = 0) ∧
    (isNaN 0x7FF0000000000001 = true ∧ isNaN 0xFFFFFFFFFFFFFFFF = true) := by
  have one := ratOf_fields 0x3FF0000000000000 false 1023 0 (by decide) (by decide) (by decide)
  have neg := ratOf_fields 0xBFF0000000000000 true 1023 0 (by decide) (by decide) (by decide)
  have zero := ratOf_fields 0x8000000000000000 true 0 0 (by decide) (by decide) (by decide)
  refine ⟨by decide, by decide, ⟨?_, ?_, ?_, ?_⟩, by decide⟩
  · rw [one]; norm_num [signF]
  · rw [zero]; norm_num
  · rw [one, neg]; norm_num [signF]
  · rw [one]; norm_num

/-- The number of a pattern, by IEEE 754's own reading of its fields: `1.0`, `-2.5` and the least
positive number. -/
theorem test_ratOf :
    ratOf 0x3FF0000000000000 = 1 ∧ ratOf 0xC004000000000000 = -5 / 2 ∧
    ratOf 0x0000000000000001 = 2 ^ (-1074 : Int) := by
  rw [ratOf_fields 0x3FF0000000000000 false 1023 0 (by decide) (by decide) (by decide),
    ratOf_fields 0xC004000000000000 true 1024 (2 ^ 50) (by decide) (by decide) (by decide),
    ratOf_fields 0x0000000000000001 false 0 1 (by decide) (by decide) (by decide)]
  refine ⟨?_, ?_, ?_⟩
  · norm_num [signF]
  · norm_num [signF]
  · generalize (2 : ℚ) ^ (-1074 : Int) = c
    norm_num [signF]

theorem witness_AltitudeOfSpecialOperands :
    (let q := fl .nearestEven 1013
     isFinite q = true ∧ signOf q = false ∧ q ≠ 0 ∧
       (let y := fadd .nearestEven (fl .nearestEven (-273)) c273_15
        isFinite (fl .nearestEven (-273)) = true ∧ signOf y = false ∧ y ≠ 0) ∧
       (let p := fl .nearestEven (-1)
        isFinite p = true ∧ signOf p = true ∧ p ≠ 0x8000000000000000 ∧
          fdiv .nearestEven q p ≠ 0x8000000000000000 ∧
          fdiv .nearestEven q p ≠ 0xFFF0000000000000)) ∧
    (fdiv .nearestEven 0xFFF0000000000000 (fl .nearestEven 1013) = 0xFFF0000000000000 ∧
      fdiv .nearestEven (fl .nearestEven 1013) 0x8000000000000000 = 0xFFF0000000000000 ∧
      isNaN 0x7FF8000000000000 = true ∧ isNaN 0x7FF0000000000000 = false) ∧
    (let e := fdiv .nearestEven (fl .nearestEven 1) c5_257
     isFinite (fsub .nearestEven (powWith (fun _ _ => 0) 0 e) (fl .nearestEven 1)) = true ∧
       fsub .nearestEven (powWith (fun _ _ => 0) 0x7FF0000000000000 e) (fl .nearestEven 1) =
         0x7FF0000000000000 ∧
       fsub .nearestEven (powWith (fun _ _ => 0xFFF0000000000000) 0x4000000000000000 e)
         (fl .nearestEven 1) = 0xFFF0000000000000) := by decide +kernel

/-- A run of the one command `COMP_P`, from reset: program P3, step 1. -/
def errorRun : State := startRun defaultParams [] (cmdOp 0x22000000)

/-- P3, step 1: the run ends although its command ended in an error. -/
theorem test_run_ends_after_an_error :
    (match runFor 2 errorRun with
     | .ended e => some (e.status, e.errinfo)
     | .going _ => none
     | .fault _ => none
     | .refused _ => none) = some (0x0000007E, 0x22000000) := by decide

theorem witness_RunEndsAtItsFirstIdlePoint :
    ∃ e, runFor 2 errorRun = .ended e ∧ runFor 9 errorRun = .ended e ∧ e.runOver = true ∧
      errorRun.EndsIn e := ⟨_, rfl, rfl, rfl, 2, rfl⟩

/-- P1, step 6: `x = read64 RES`. -/
theorem test_read64 :
    after (step { session .normal with res := 0x408F7442E7504A97, host := read64Op 0x60 })
      (fun t => after (step t) (fun u => read64Value 0x60 u.readLog)) =
      some (some (some 0x408F7442E7504A97)) := by decide

/-- A state inside a poll, with the sensor's next answer. -/
def poised : State := (polling none).given (.ok [0x08])

/-- It meets the invariant. -/
theorem poised_inv : poised.Inv := by
  refine ⟨⟨by decide, by decide, by decide, by decide, by decide, by decide, by decide, ?_, ?_,
    fun _ _ _ => rfl, by decide, fun _ => rfl⟩, ⟨rfl, by decide, by decide, by decide, ?_⟩, ?_⟩
  · intro p hp h
    injection hp with hp
    subst hp
    cases h
  · intro p _ _
    decide
  · intro e h
    cases h
  · intro p hp _
    injection hp with hp
    subst hp
    exact ⟨.update, by decide, rfl⟩

theorem witness_EveryStepKeepsTheSessionInvariant :
    poised.Inv ∧ ∃ t, step poised = .next t := ⟨poised_inv, _, rfl⟩

theorem witness_EveryStepKeepsTheStatusInvariant :
    poised.Inv ∧ ∃ t, step (poised.given .nack) = .next t ∧ t.err = true :=
  ⟨poised_inv, _, rfl, rfl⟩

theorem witness_SequencerStaysOnItsCommand :
    poised.OnStep ∧ ∃ t, step poised = .next t ∧ t.seq = .run .poll :=
  ⟨poised_inv.onStep, _, rfl, rfl⟩

theorem witness_PerrIsSticky :
    (let s : State := { poised with perr := true }
     s.resetNext = false ∧ s.perr = true ∧ ∃ t, step s = .next t) := ⟨rfl, rfl, _, rfl⟩

theorem witness_CalibrationIsLoadedOnce :
    poised.SessionInv ∧ poised.resetNext = false ∧ poised.calValid = true ∧
    ∃ t, step poised = .next t := ⟨poised_inv.session, rfl, rfl, _, rfl⟩

theorem witness_SelectionIsFinal :
    (selected.asked 0x01000077).resetNext = false ∧ selected.addrSel = true ∧
    ∃ t, step (selected.asked 0x01000077) = .next t := ⟨rfl, rfl, _, rfl⟩

theorem witness_AtMostOneTransactionPerStep :
    (poised.resetNext = false ∧ poised.SessionInv ∧
      ∃ t, step poised = .next t ∧
        t.history = [{ txn := .read 0x76 0xF3 1, answer := .ok [0x08] }]) ∧
    readAnswer poised (.read 0x76 0xF3 1) 1 = .ok [0x08] :=
  ⟨⟨rfl, poised_inv.session, _, rfl, rfl⟩, rfl⟩

theorem witness_CommandsReadTheLatchedCopies :
    ∃ t, exec .setup (begun State.reset) = .next t := ⟨_, rfl⟩

theorem witness_EveryCommandKeepsTheHostSide :
    (∃ t, exec .update poised = .next t ∧ t.seq ≠ .idle) ∧
    ∃ t, exec (.selectAddress 0x76) (begun State.reset) = .next t ∧ t.errcode = none :=
  ⟨⟨_, rfl, by decide⟩, _, rfl, rfl⟩

theorem witness_RegisterCommandsFrame :
    (∃ t, exec (.selectAddress 0x76) (begun State.reset) = .next t) ∧
    (∃ t, exec (.regRead 5) ((selected.running 0x02000005 .regRead).given (.ok calBytes)) =
      .next t) ∧
    (∃ t, exec (.regWrite 2) ((selected.running 0x03000002 .regWrite).given (.ok [])) =
      .next t) ∧
    (∃ t, exec (.fieldRead 22) ((selected.running 0x04000016 .fieldRead).given (.ok calBytes)) =
      .next t) ∧
    ∃ t, exec (.fieldWrite 7)
      ((selected.running 0x05000007 (.fieldWriteBack 0x9C)).given (.ok [])) = .next t :=
  ⟨⟨_, rfl⟩, ⟨_, rfl⟩, ⟨_, rfl⟩, ⟨_, rfl⟩, _, rfl⟩

theorem witness_SetupFrame :
    (∃ t, exec .setup ((selected.running 0x10000000 (.setupCal normalCodes)).given
      (.ok calBytes)) = .next t) ∧
    (begun (session .normal)).seq = .run .decode ∧
    (begun (session .normal)).sstate ≠ .uninitialized ∧
    ∃ t, exec .setup (begun (session .normal)) = .next t :=
  ⟨⟨_, rfl⟩, rfl, by decide, _, rfl⟩

theorem witness_MeasuringCommandsFrame :
    (∀ i ∈ ([.update, .getTemperature, .getPressure, .getAltitude false] : List Instr),
      measures i = true ∧ after (exec i poised) (fun _ => true) = some true) ∧
    poised.seq = .run .poll ∧ Phase.poll.inUpdate = true := by decide

theorem witness_CompensationCommandsFrame :
    (∃ t, exec .compT (begun (session .normal)) = .next t) ∧
    ∃ t, exec .compP (begun { session .normal with tfineValid := true }) = .next t :=
  ⟨⟨_, rfl⟩, _, rfl⟩

end Sys2Proof.Machine
end

/-!
The proof of O44: how each operation of Machine/Float.lean acts on finite numbers, on infinities and
on NaNs (00_scope.md rule R9). The rounding itself is that of Laws/Float.lean.
-/

namespace Sys2Proof.Machine

/-! ### Patterns -/

/-- A sign times a magnitude and a power of two is 0 where the magnitude is. -/
theorem signF_mul_zpow_eq_zero (s : Bool) (m : Nat) (e : Int) :
    signF s * ((m : ℚ) * 2 ^ e) = 0 ↔ m = 0 := by
  have hs : signF s ≠ 0 := by cases s <;> simp [signF]
  simp [hs, (two_zpow_pos e).ne']

/-- A finite pattern as `unpack` reads it, with its number and its bound. The magnitude is 0 where
the number is. -/
theorem unpack_number (x : F64) (h : isFinite x = true) :
    ∃ m e, unpack x = .fin (signOf x) m e ∧ m < 2 ^ 53 ∧
      ratOf x = signF (signOf x) * ((m : ℚ) * 2 ^ e) ∧ (ratOf x = 0 ↔ m = 0) := by
  obtain ⟨m, e, hu, hlt, hr⟩ := unpack_finite x h
  exact ⟨m, e, hu, hlt, hr, hr ▸ signF_mul_zpow_eq_zero _ _ _⟩

/-- The zero that the operations give. -/
theorem zeroOf_eq_signedZero (s : Bool) : zeroOf s = signedZero s := by cases s <;> rfl

/-! ### Integers -/

/-- `roundPack` gives an integer below `2^53` itself: its last place is no integer's bit. -/
theorem roundPack_integer (num : Rounding) (neg : Bool) {m : Nat} (hm : m < 2 ^ 53) :
    isFinite (roundPack num neg m 0) = true ∧ ratOf (roundPack num neg m 0) = signF neg * m := by
  unfold roundPack
  split
  case isTrue h0 =>
    obtain ⟨hf, -, hr⟩ := withSign_finite neg 0 (by norm_num)
    have hz : magVal 0 = 0 := by simpa using magVal_binade 0 0 (by norm_num) (.inl rfl)
    refine ⟨hf, (signF_inj neg _ _).1 ?_⟩
    rw [zeroOf, hr, hz, h0]
    simp
  case isFalse h0 =>
    obtain ⟨hlow, hle, -⟩ := lastPlace_spec m 0 h0
    have hlog : m.log2 < 53 := (Nat.log2_lt h0).2 hm
    have ht : lastPlace m 0 ≤ 0 := by unfold lastPlace; omega
    generalize lastPlace m 0 = t at *
    obtain ⟨hsig, hbit⟩ := hle ht
    have hval := magVal_scaled t (m * 2 ^ (0 - t).toNat) hlow hsig.le hbit
    have hexact : ((m * 2 ^ (0 - t).toNat : Nat) : ℚ) * 2 ^ t = m := by
      have hpow : (2 : ℚ) ^ (0 - t).toNat * 2 ^ t = 1 := by
        rw [← zpow_natCast, ← zpow_add₀ (by norm_num), show ((0 - t).toNat : Int) + t = 0 by omega,
          zpow_zero]
      push_cast
      rw [mul_assoc, hpow, mul_one]
    have hmag : (t + 1074).toNat * 2 ^ 52 + m * 2 ^ (0 - t).toNat < 2047 * 2 ^ 52 := by omega
    obtain ⟨hf, -, hr⟩ := withSign_finite neg _ hmag
    simp only [if_pos ht, if_neg (Nat.not_le.2 hmag)]
    refine ⟨hf, ?_⟩
    rw [hval, hexact] at hr
    rw [← hr, ← mul_assoc, ← signF_xor, Bool.xor_self]
    simp [signF]

/-- `fl` of an integer below `2^53` in magnitude is exact. -/
theorem fl_exact (num : Rounding) (n : Int) (h : n.natAbs < 2 ^ 53) :
    isFinite (fl num n) = true ∧ ratOf (fl num n) = (n : ℚ) := by
  obtain ⟨hf, hr⟩ := roundPack_integer num (decide (n < 0)) h
  refine ⟨hf, ?_⟩
  have hsigned : signedOf (decide (n < 0)) n.natAbs = n := by
    simp only [signedOf, decide_eq_true_eq]
    split <;> omega
  rw [fl, hr, ← signedOf_cast, hsigned]

/-! ### Finite operands -/

section Finite

variable (num : Rounding) {a b : F64} (ha : isFinite a = true) (hb : isFinite b = true)
include ha hb

/-- `+f` rounds the exact sum, and gives an exact zero the sign that both operands have, or that of
the direction. -/
theorem fadd_finite : RoundsTo num (ratOf a + ratOf b) (fadd num a b) ∧
    (ratOf a + ratOf b = 0 → signOf (fadd num a b) =
      if signOf a = signOf b then signOf a else decide (num = .towardNegative)) := by
  obtain ⟨m₁, e₁, ua, -, ra, -⟩ := unpack_number a ha
  obtain ⟨m₂, e₂, ub, -, rb, -⟩ := unpack_number b hb
  rw [fadd, ua, ub, ra, rb]
  exact addFin_rounds num _ m₁ e₁ _ m₂ e₂

/-- `-f` rounds the exact difference: it is the sum with the sign of `b` changed. -/
theorem fsub_finite : RoundsTo num (ratOf a - ratOf b) (fsub num a b) ∧
    (ratOf a - ratOf b = 0 → signOf (fsub num a b) =
      if signOf a = signOf b then decide (num = .towardNegative) else signOf a) := by
  obtain ⟨m₁, e₁, ua, -, ra, -⟩ := unpack_number a ha
  obtain ⟨m₂, e₂, ub, -, rb, -⟩ := unpack_number b hb
  obtain ⟨hround, hsign⟩ := addFin_rounds num (signOf a) m₁ e₁ (!signOf b) m₂ e₂
  rw [signF_not, neg_mul, ← sub_eq_add_neg, ← ra, ← rb] at hround hsign
  rw [fsub, ua, ub]
  refine ⟨hround, fun h => (hsign h).trans ?_⟩
  cases signOf a <;> cases signOf b <;> rfl

/-- `*f` rounds the exact product, with the product of the signs. -/
theorem fmul_finite : RoundsTo num (ratOf a * ratOf b) (fmul num a b) ∧
    signOf (fmul num a b) = (signOf a ^^ signOf b) := by
  obtain ⟨m₁, e₁, ua, -, ra, -⟩ := unpack_number a ha
  obtain ⟨m₂, e₂, ub, -, rb, -⟩ := unpack_number b hb
  rw [fmul, ua, ub]
  refine ⟨?_, roundPack_sign num _ (m₁ * m₂) (e₁ + e₂)⟩
  have hprod : ratOf a * ratOf b =
      signF (signOf a ^^ signOf b) * (((m₁ * m₂ : Nat) : ℚ) * 2 ^ (e₁ + e₂)) := by
    rw [ra, rb, signF_xor, zpow_add₀ (by norm_num)]
    push_cast
    ring
  rw [hprod]
  exact roundPack_exact num _ (m₁ * m₂) (e₁ + e₂)

/-- `/f` by a number other than 0 rounds the exact quotient, with the product of the signs. -/
theorem fdiv_finite (hne : ratOf b ≠ 0) : RoundsTo num (ratOf a / ratOf b) (fdiv num a b) ∧
    signOf (fdiv num a b) = (signOf a ^^ signOf b) := by
  obtain ⟨m₁, e₁, ua, -, ra, -⟩ := unpack_number a ha
  obtain ⟨m₂, e₂, ub, hlt, rb, hz⟩ := unpack_number b hb
  have hm₂ : m₂ ≠ 0 := mt hz.2 hne
  have hquot : ratOf a / ratOf b =
      signF (signOf a ^^ signOf b) * (((m₁ : ℚ) / m₂) * 2 ^ (e₁ - e₂)) := by
    have hs : signF (signOf b) * signF (signOf b) = 1 := by
      rw [← signF_xor, Bool.xor_self]; rfl
    rw [div_eq_iff hne, ra, rb, signF_xor, zpow_sub₀ (by norm_num)]
    have := two_zpow_pos e₂
    have : (m₂ : ℚ) ≠ 0 := Nat.cast_ne_zero.2 hm₂
    field_simp
    rw [sq, hs, mul_one]
  rw [fdiv, ua, ub, divVal, if_neg hm₂, hquot]
  exact divFin_rounds num _ m₁ e₁ m₂ e₂ hm₂ hlt

/-- A number other than 0 over a zero is an infinity. -/
theorem fdiv_zero_of_ne (hz : ratOf b = 0) (hne : ratOf a ≠ 0) :
    fdiv num a b = infinity (signOf a ^^ signOf b) := by
  obtain ⟨m₁, e₁, ua, -, -, za⟩ := unpack_number a ha
  obtain ⟨m₂, e₂, ub, -, -, zb⟩ := unpack_number b hb
  rw [fdiv, ua, ub, divVal, if_pos (zb.1 hz), if_neg (mt za.2 hne), infinity_eq]

/-- A zero over a zero is a NaN. -/
theorem fdiv_zero_zero (hzb : ratOf b = 0) (hza : ratOf a = 0) : isNaN (fdiv num a b) = true := by
  obtain ⟨m₁, e₁, ua, -, -, za⟩ := unpack_number a ha
  obtain ⟨m₂, e₂, ub, -, -, zb⟩ := unpack_number b hb
  rw [fdiv, ua, ub, divVal, if_pos (zb.1 hzb), if_pos (za.1 hza)]
  exact isNaN_nanOf _ _ _

/-- `==f` compares the numbers: two zeros are equal, and another number has one pattern. -/
theorem feq_finite : feq a b = true ↔ ratOf a = ratOf b := by
  obtain ⟨m₁, e₁, ua, -, ra, za⟩ := unpack_number a ha
  obtain ⟨m₂, e₂, ub, -, rb, zb⟩ := unpack_number b hb
  have hfeq : feq a b = true ↔
      m₁ = 0 ∧ m₂ = 0 ∨ (signOf a = signOf b ∧ m₁ = m₂) ∧ e₁ = e₂ := by
    simp [feq, ua, ub]
  rw [hfeq]
  constructor
  · rintro (⟨h₁, h₂⟩ | ⟨⟨hs, hm⟩, he⟩)
    · rw [za.2 h₁, zb.2 h₂]
    · rw [ra, rb, hs, hm, he]
  · intro h
    by_cases hz : ratOf a = 0
    · exact .inl ⟨za.1 hz, zb.1 (h ▸ hz)⟩
    · obtain rfl := ratOf_inj h hz
      obtain ⟨-, hm, he⟩ := FVal.fin.inj (ua.symm.trans ub)
      exact .inr ⟨⟨rfl, hm⟩, he⟩

end Finite

/-! ### A finite operand and an infinity -/

section Infinity

variable (num : Rounding) {a : F64} (s : Bool) (ha : isFinite a = true)
include ha

/-- A sum with one infinity is that infinity. -/
theorem fadd_infinity :
    fadd num a (infinity s) = infinity s ∧ fadd num (infinity s) a = infinity s := by
  obtain ⟨m, e, ua, -⟩ := unpack_number a ha
  simp [fadd, ua, unpack_infinity, addVal, infinity_eq]

/-- A difference with one infinity is an infinity, with the other sign where it is subtracted. -/
theorem fsub_infinity :
    fsub num a (infinity s) = infinity (!s) ∧ fsub num (infinity s) a = infinity s := by
  obtain ⟨m, e, ua, -⟩ := unpack_number a ha
  simp [fsub, ua, unpack_infinity, FVal.neg, addVal, infinity_eq]

/-- A product of a number other than 0 and an infinity is an infinity. -/
theorem fmul_infinity_of_ne (hne : ratOf a ≠ 0) :
    fmul num a (infinity s) = infinity (signOf a ^^ s) ∧
      fmul num (infinity s) a = infinity (signOf a ^^ s) := by
  obtain ⟨m, e, ua, -, -, hz⟩ := unpack_number a ha
  simp [fmul, ua, unpack_infinity, mulVal, mt hz.2 hne, infinity_eq, Bool.xor_comm]

/-- A product of a zero and an infinity is a NaN. -/
theorem fmul_infinity_of_zero (h0 : ratOf a = 0) :
    isNaN (fmul num a (infinity s)) = true ∧ isNaN (fmul num (infinity s) a) = true := by
  obtain ⟨m, e, ua, -, -, hz⟩ := unpack_number a ha
  simp [fmul, ua, unpack_infinity, mulVal, hz.1 h0, isNaN_nanOf]

/-- A finite number over an infinity is a zero; an infinity over a finite number, a zero as well, is
an infinity. -/
theorem fdiv_infinity :
    fdiv num a (infinity s) = signedZero (signOf a ^^ s) ∧
      fdiv num (infinity s) a = infinity (signOf a ^^ s) := by
  obtain ⟨m, e, ua, -⟩ := unpack_number a ha
  simp [fdiv, ua, unpack_infinity, divVal, zeroOf_eq_signedZero, infinity_eq, Bool.xor_comm]

/-- A finite number equals no infinity. -/
theorem feq_infinity : feq a (infinity s) = false ∧ feq (infinity s) a = false := by
  obtain ⟨m, e, ua, -⟩ := unpack_number a ha
  simp [feq, ua, unpack_infinity]

end Infinity

/-! ### Two infinities -/

section TwoInfinities

variable (num : Rounding) (s s' : Bool)

/-- Two infinities of one sign: their sum is theirs, and their difference a NaN. -/
theorem fadd_fsub_infinity_same :
    fadd num (infinity s) (infinity s) = infinity s ∧
      isNaN (fsub num (infinity s) (infinity s)) = true := by
  simp [fadd, fsub, unpack_infinity, FVal.neg, addVal, infinity_eq, isNaN_nanOf]

/-- Two infinities of different signs: their sum is a NaN, and their difference the first one. -/
theorem fadd_fsub_infinity_of_ne (h : s ≠ s') :
    isNaN (fadd num (infinity s) (infinity s')) = true ∧
      fsub num (infinity s) (infinity s') = infinity s := by
  obtain rfl : s' = !s := by cases s <;> cases s' <;> simp_all
  simp [fadd, fsub, unpack_infinity, FVal.neg, addVal, infinity_eq, isNaN_nanOf]

/-- The product of two infinities is an infinity. -/
theorem fmul_infinity_infinity :
    fmul num (infinity s) (infinity s') = infinity (s ^^ s') := by
  simp [fmul, unpack_infinity, mulVal, infinity_eq]

/-- The quotient of two infinities is a NaN. -/
theorem fdiv_infinity_infinity : isNaN (fdiv num (infinity s) (infinity s')) = true := by
  simp [fdiv, unpack_infinity, divVal, isNaN_nanOf]

/-- Two infinities are equal where their signs are. -/
theorem feq_infinity_infinity : feq (infinity s) (infinity s') = true ↔ s = s' := by
  simp [feq, unpack_infinity]

end TwoInfinities

/-! ### NaN operands -/

section NaN

variable (num : Rounding) (op : FOp) (a b : F64) (x y : FVal)

/-- A sum, a product or a quotient of two values of which one is NaN is a NaN. -/
theorem values_nan (h : x = .nan ∨ y = .nan) :
    isNaN (addVal num op a b x y) = true ∧ isNaN (mulVal num a b x y) = true ∧
      isNaN (divVal num a b x y) = true := by
  rcases h with rfl | rfl
  · exact ⟨isNaN_nanOf _ _ _, isNaN_nanOf _ _ _, isNaN_nanOf _ _ _⟩
  · cases x <;> exact ⟨isNaN_nanOf _ _ _, isNaN_nanOf _ _ _, isNaN_nanOf _ _ _⟩

/-- A NaN equals nothing. -/
theorem feq_nan (h : unpack a = .nan ∨ unpack b = .nan) : feq a b = false := by
  unfold feq
  rcases h with h | h
  · rw [h]
  · rw [h]
    cases unpack a <;> rfl

/-- Every operation on a NaN gives a NaN, and a NaN equals nothing. -/
theorem operations_nan (h : isNaN a = true ∨ isNaN b = true) :
    isNaN (fadd num a b) = true ∧ isNaN (fsub num a b) = true ∧ isNaN (fmul num a b) = true ∧
      isNaN (fdiv num a b) = true ∧ feq a b = false := by
  rw [isNaN_iff, isNaN_iff] at h
  have hneg : unpack a = .nan ∨ (unpack b).neg = .nan := h.imp_right fun hb => by rw [hb]; rfl
  obtain ⟨hadd, hmul, hdiv⟩ := values_nan num .add a b _ _ h
  obtain ⟨hsub, -⟩ := values_nan num .sub a b _ _ hneg
  exact ⟨hadd, hsub, hmul, hdiv, feq_nan a b h⟩

end NaN

/-- Settles O44, from the rules of each operation on finite numbers, infinities and NaNs. -/
theorem arithmeticRoundsTheExactResult : Obligations.ArithmeticRoundsTheExactResult := by
  refine ⟨fl_exact, fun num a b ha hb => ?_, fun num a s ha => ?_, fun num s s' => ?_,
    operations_nan⟩
  · obtain ⟨hadd, hadd0⟩ := fadd_finite num ha hb
    obtain ⟨hsub, hsub0⟩ := fsub_finite num ha hb
    obtain ⟨hmul, hmulSign⟩ := fmul_finite num ha hb
    exact ⟨hadd, hsub, hmul, fun h => (fdiv_finite num ha hb h).1, hadd0, hsub0, hmulSign,
      fun h => (fdiv_finite num ha hb h).2, fdiv_zero_of_ne num ha hb, fdiv_zero_zero num ha hb,
      feq_finite ha hb⟩
  · obtain ⟨haddR, haddL⟩ := fadd_infinity num s ha
    obtain ⟨hsubR, hsubL⟩ := fsub_infinity num s ha
    obtain ⟨hdivR, hdivL⟩ := fdiv_infinity num s ha
    exact ⟨haddR, haddL, hsubR, hsubL, fmul_infinity_of_ne num s ha,
      fmul_infinity_of_zero num s ha, hdivR, hdivL, feq_infinity s ha⟩
  · exact ⟨fun h => h ▸ fadd_fsub_infinity_same num s, fadd_fsub_infinity_of_ne num s s',
      fmul_infinity_infinity num s s', fdiv_infinity_infinity num s s',
      feq_infinity_infinity s s'⟩

end Sys2Proof.Machine

/-!
The proofs of the statements of 10_state.md. One atomic step of a command is described once: it does
some work on the state, with at most one transaction, and then it goes on to another of its steps,
or finishes, or raises an error (10_state.md rule R41, 60_exceptions.md rules R264, R265).
-/

namespace Sys2Proof.Machine

/-! ### A command as a procedure and its results -/

/-- A procedure of one step. -/
def oneStep (f : State → Progress) (s : State) : Progress :=
  match s.seq with
  | .idle => f s
  | .run .decode => f s
  | .run _ => .stray

/-- The procedure a command steps through. -/
def progressOf (i : Instr) (s : State) : Progress :=
  match i with
  | .selectAddress a7 => oneStep (selectStep a7) s
  | .regRead reg => regReadStep reg s
  | .regWrite reg => regWriteStep reg s
  | .fieldRead fld => fieldReadStep fld s
  | .fieldWrite fld => fieldWriteStep fld s
  | .setup => setupStep s
  | .update => updateStep s
  | .getTemperature => updateStep s
  | .getPressure => updateStep s
  | .getAltitude _ => updateStep s
  | .compT => oneStep compTStep s
  | .compP => oneStep compPStep s

/-- What a command writes where its procedure returns, before it finishes. -/
def resultOf (i : Instr) : State → State :=
  match i with
  | .getTemperature => State.resTemp
  | .getPressure => State.resPres
  | .getAltitude manual => State.resAlt manual
  | .selectAddress _ => id
  | .regRead _ => id
  | .regWrite _ => id
  | .fieldRead _ => id
  | .fieldWrite _ => id
  | .setup => id
  | .update => id
  | .compT => id
  | .compP => id

/-- A command makes one step of its procedure and finishes where that returns. -/
theorem exec_eq (i : Instr) (s : State) : exec i s = (progressOf i s).complete (resultOf i) := by
  cases i
  case selectAddress a7 =>
    show execSelectAddress a7 s = (oneStep (selectStep a7) s).complete id
    unfold execSelectAddress
    split <;> simp only [oneStep, *]
  case compT =>
    show execCompT s = (oneStep compTStep s).complete id
    unfold execCompT
    split <;> simp only [oneStep, *]
  case compP =>
    show execCompP s = (oneStep compPStep s).complete id
    unfold execCompP
    split <;> simp only [oneStep, *]
  all_goals rfl

/-- A measuring command's procedure is an update. -/
theorem progressOf_measures {i : Instr} (hi : measures i = true) (s : State) :
    progressOf i s = updateStep s := by
  rcases (measures_iff i).1 hi with rfl | rfl | rfl | ⟨m, rfl⟩ <;> rfl

/-! ### Where the sequencer can be -/

/-- A step is the first one, one of a setup, one of an update, or one of a register command. -/
theorem phase_cases (p : Phase) : p = .decode ∨ p.inSetup = true ∨ p.inUpdate = true ∨
    (p ≠ .decode ∧ p.inSetup = false ∧ p.inUpdate = false) := by
  cases p <;> simp [Phase.inSetup, Phase.inUpdate]

/-- A command that runs a setup has the steps of one. -/
theorem fits_of_inSetup {i : Instr} {p : Phase} (hi : i = .setup ∨ measures i = true)
    (hp : p.inSetup = true) : fits i p = true := by
  cases p <;> simp [Phase.inSetup] at hp <;> simpa [fits] using hi

/-- A measuring command has the steps of an update. -/
theorem fits_of_inUpdate {i : Instr} {p : Phase} (hi : measures i = true)
    (hp : p.inUpdate = true) : fits i p = true := by
  cases p <;> simp [Phase.inUpdate] at hp <;> exact hi

/-- Only the measuring commands poll. -/
theorem measures_of_fits_poll {i : Instr} (h : fits i .poll = true) : measures i = true := h

/-- A setup step is not a poll. -/
theorem ne_poll_of_inSetup {p : Phase} (hp : p.inSetup = true) : p ≠ .poll := by
  rintro rfl
  cases hp

/-- A setup has no other step than its own. -/
theorem setupStep_stray {s : State} {p : Phase} (hs : s.seq = .run p) (hd : p ≠ .decode)
    (hp : p.inSetup = false) : setupStep s = .stray := by
  cases p <;> simp_all [setupStep, Phase.inSetup]

/-- An update has no other step than its own and its setup's. -/
theorem updateStep_stray {s : State} {p : Phase} (hs : s.seq = .run p) (hd : p ≠ .decode)
    (hp : p.inSetup = false) (hu : p.inUpdate = false) : updateStep s = .stray := by
  cases p <;> simp_all [updateStep, Phase.inSetup, Phase.inUpdate]

/-- At its first step a setup does what comes before its first transaction. -/
theorem setupStep_start {s : State} (hs : s.seq = .idle ∨ s.seq = .run .decode) :
    setupStep s = setupStart s := by
  rcases hs with h | h <;> simp [setupStep, h]

/-! ### What a step meets -/

/-- The state a step ends in meets `E`, the state a procedure returns in meets `R`, and a step that
strays does so under `F`. -/
def Progress.Meets (x : Progress) (E R : State → Prop) (F : Prop) : Prop :=
  match x with
  | .ends t => E t
  | .returned t => R t
  | .stray => F

/-- A command whose procedure meets `E`, `R` and `F`, and whose end after a return meets `E` too,
answers a state that meets `E`, or strays under `F`. -/
theorem complete_of_meets {x : Progress} {E R : State → Prop} {F : Prop} (f : State → State)
    (h : x.Meets E R F) (hf : ∀ t, R t → E (f t).finish) :
    (∃ t, x.complete f = .next t ∧ E t) ∨ (x.complete f = .fault .sequencerOffStep ∧ F) := by
  cases x with
  | ends t => exact .inl ⟨t, rfl, h⟩
  | returned t => exact .inl ⟨_, rfl, hf t h⟩
  | stray => exact .inr ⟨rfl, h⟩

/-- Where a setup inside an update returns, the update goes on. -/
theorem updateSetup_meets {s : State} {E R R' : State → Prop} {F : Prop}
    (h : (setupStep s).Meets E R F) (hR : ∀ t, R t → E (updateStart t)) :
    (updateSetup s).Meets E R' F := by
  unfold updateSetup
  generalize setupStep s = x at h
  cases x with
  | ends t => exact h
  | returned t => exact hR t h
  | stray => exact h

/-! ### The work of a step -/

/-- `s` with the session, the selection, the results, `RDATA` and the bus of `w`: all that a step
writes before it leaves. -/
def State.withWork (s w : State) : State :=
  { s with
    pollcnt := w.pollcnt, rawT := w.rawT, rawP := w.rawP, rdata := w.rdata, temp := w.temp,
    pres := w.pres, alt := w.alt, res := w.res, tfine := w.tfine, cal := w.cal,
    calValid := w.calValid, tfineValid := w.tfineValid, measValid := w.measValid,
    altValid := w.altValid, sstate := w.sstate, addrSel := w.addrSel, selA7 := w.selA7,
    smode := w.smode, history := w.history, script := w.script, answered := w.answered }

/-- The step has made no transaction, or it is past the command's first one and has made one, to the
selected address. -/
def State.AtMostOneTxn (s u : State) : Prop :=
  u.history = s.history ∨
  (∃ p, s.seq = .run p ∧ p ≠ .decode) ∧
    ∃ t a, s.Addresses t a ∧ u.history = { txn := t, answer := a } :: s.history

/-- What a step can do before it goes on or ends. -/
structure State.Works (s u : State) : Prop where
  same : u = s.withWork u
  bus : s.AtMostOneTxn u

/-- The three ways a step leaves the state `u` that its work has come to. -/
inductive StepEnd (i : Instr) (u : State) : State → Prop where
  | goes (q : Phase) (hq : fits i q = true) : StepEnd i u (u.goto q)
  | finishes : StepEnd i u u.finish
  | raises (e : Err) (x : Option ErrXfer) (data : Byte) : StepEnd i u (u.raiseWith e x data)

/-- The step has done its work and left. -/
def State.Leaves (s : State) (i : Instr) (t : State) : Prop := ∃ u, s.Works u ∧ StepEnd i u t

/-- The sequencer is on a step that the command does not have. -/
def State.OffStep (s : State) (i : Instr) : Prop := ∃ p, s.seq = .run p ∧ fits i p = false

/-- A step of the command `i` from `s` leaves, or its procedure returns with its work done, or the
sequencer is off the command's steps. -/
def StepWorks (i : Instr) (s : State) (x : Progress) : Prop :=
  x.Meets (s.Leaves i) s.Works (s.OffStep i)

section Works

variable {i : Instr} {s u v : State} {x : Progress}

/-- Doing nothing is work. -/
theorem works_refl (s : State) : s.Works s := ⟨rfl, .inl rfl⟩

/-- Work without a transaction can follow work. -/
theorem State.Works.update (h : s.Works u) (hv : v = u.withWork v)
    (hh : v.history = u.history) : s.Works v := by
  refine ⟨?_, ?_⟩
  · calc v = u.withWork v := hv
      _ = (s.withWork u).withWork v := congrArg (fun w => w.withWork v) h.same
      _ = s.withWork v := rfl
  · unfold State.AtMostOneTxn
    rw [hh]
    exact h.bus

/-- The transaction of a step past the first one is work. -/
theorem works_record {t : Txn} {a : Answer} (hs : ∃ p, s.seq = .run p ∧ p ≠ .decode)
    (ha : s.Addresses t a) : s.Works (s.record t a) := ⟨rfl, .inr ⟨hs, t, a, ha, rfl⟩⟩

/-- The host's side is unchanged by a step's work. -/
theorem State.Works.sameHostSide (h : s.Works u) : s.SameHostSide u := by
  rw [h.same]
  constructor <;> rfl

/-- A step can raise after its work. -/
theorem State.Works.raises (h : s.Works u) (e : Err) (y : Option ErrXfer) (data : Byte) :
    s.Leaves i (u.raiseWith e y data) := ⟨u, h, .raises e y data⟩

/-- A step can go on to a step of its command after its work. -/
theorem State.Works.goes (h : s.Works u) {q : Phase} (hq : fits i q = true) :
    s.Leaves i (u.goto q) := ⟨u, h, .goes q hq⟩

/-- A step that ends in an error of its transaction leaves. -/
theorem stepWorks_of_raisesBus (hu : s.Works u) (h : RaisesBus u x) : StepWorks i s x := by
  obtain ⟨e, reg, dir, data, -, rfl⟩ := h
  exact hu.raises e _ data

/-- A sequencer that is off the command's steps strays. -/
theorem stepWorks_stray {p : Phase} (hs : s.seq = .run p) (hp : fits i p = false) :
    StepWorks i s .stray := ⟨p, hs, hp⟩

/-! ### Setup() -/

/-- Every step of a setup, in a command that has one. -/
theorem setupStep_works (hi : i = .setup ∨ measures i = true)
    (hs : (s.seq = .idle ∨ s.seq = .run .decode) ∨ ∃ p, s.seq = .run p ∧ p.inSetup = true) :
    StepWorks i s (setupStep s) := by
  rcases hs with hs | ⟨p, hs, hp⟩
  · rw [setupStep_start hs]
    rcases setupStart_cases s with ⟨-, h⟩ | ⟨-, e, h⟩ | ⟨-, -, -, c, h⟩ <;> rw [h]
    · exact works_refl s
    · exact (works_refl s).raises e none 0
    · have hu : s.Works { s with addrSel := true, selA7 := s.lsaddr } :=
        (works_refl s).update rfl rfl
      exact hu.goes (q := .setupChipId c) (fits_of_inSetup hi rfl)
  · obtain ⟨t, a, ha, h⟩ := setupStep_bus s p hs hp
    have hu := works_record ⟨p, hs, by rintro rfl; cases hp⟩ ha
    rcases h with h | ⟨q, hq, h⟩ | ⟨cal, m, h⟩
    · exact stepWorks_of_raisesBus hu h
    · rw [h]
      exact hu.goes (fits_of_inSetup hi hq)
    · rw [h]
      exact hu.update rfl rfl

/-! ### Update() -/

/-- After a step's work an update goes on past its setup. -/
theorem leaves_updateStart (hi : measures i = true) (h : s.Works u) :
    s.Leaves i (updateStart u) := by
  rw [updateStart_eq]
  have hv : s.Works { u with pollcnt := 0 } := h.update rfl rfl
  refine hv.goes (fits_of_inUpdate hi ?_)
  split <;> rfl

/-- After a step's work an update comes to the head of its poll loop. -/
theorem leaves_pollHead (hi : measures i = true) (h : s.Works u) :
    s.Leaves i (pollHead u) := by
  rcases pollHead_cases u with ⟨reg, hu⟩ | hu <;> rw [hu]
  · have hv : s.Works { u with sstate := .idle } := h.update rfl rfl
    exact hv.raises _ _ _
  · exact h.goes (fits_of_inUpdate hi rfl)

/-- Every step of an update, in a measuring command. -/
theorem updateStep_works (hi : measures i = true) : StepWorks i s (updateStep s) := by
  have start (hs : (s.seq = .idle ∨ s.seq = .run .decode) ∨
      ∃ p, s.seq = .run p ∧ p.inSetup = true) : StepWorks i s (updateStep s) := by
    rw [updateStep_setup s (or_assoc.1 hs)]
    exact updateSetup_meets (setupStep_works (.inr hi) hs) fun t => leaves_updateStart hi
  cases hs : s.seq with
  | idle => exact start (.inl (.inl hs))
  | run p =>
    rcases phase_cases p with rfl | hp | hp | ⟨hd, hp, hq⟩
    · exact start (.inl (.inr hs))
    · exact start (.inr ⟨p, hs, hp⟩)
    · obtain ⟨t, a, ha, h⟩ := updateStep_bus s p hs hp
      have hu := works_record ⟨p, hs, by rintro rfl; cases hp⟩ ha
      have hv (k : Nat) : s.Works { s.record t a with pollcnt := k, sstate := .idle } :=
        hu.update rfl rfl
      rcases h with ⟨-, h⟩ | ⟨-, v, h⟩ | ⟨-, h⟩ | ⟨-, h | h | h⟩ | ⟨-, raw, h⟩
      · exact stepWorks_of_raisesBus hu h
      · exact h ▸ hu.goes (fits_of_inUpdate hi rfl)
      · exact h ▸ leaves_pollHead hi (hu.update rfl rfl)
      · exact stepWorks_of_raisesBus (hv s.pollcnt) h
      · exact h ▸ leaves_pollHead hi (hu.update rfl rfl)
      · exact h ▸ (hv (s.pollcnt + 1)).goes (q := .dataRead) (fits_of_inUpdate hi rfl)
      · exact h ▸ hu.update rfl rfl
    · rw [updateStep_stray hs hd hp hq]
      refine stepWorks_stray hs (Bool.eq_false_iff.2 fun hf => ?_)
      rcases (fits_cases i p hf).1 hi with h | h | h <;> simp_all

/-! ### The other commands -/

/-- A step of a register command, from what it can do. -/
theorem registerStep_works {reads : Bool} (h : RegisterStep i reads s x) : StepWorks i s x := by
  rcases h with ⟨e, rfl⟩ | ⟨-, q, hq, -, -, -, rfl⟩ | ⟨⟨p, hs, hd, -, -⟩, t, a, ha, h⟩ | ⟨hs, rfl⟩
  · exact (works_refl s).raises e none 0
  · exact (works_refl s).goes hq
  · have hu := works_record ⟨p, hs, hd⟩ ha
    rcases h with h | ⟨e, rfl⟩ | ⟨q, hq, -, -, -, rfl⟩ | ⟨r, -, rfl⟩
    · exact stepWorks_of_raisesBus hu h
    · exact hu.raises e none 0
    · exact hu.goes hq
    · exact hu.update rfl rfl
  · exact hs

/-- `SELECT_ADDRESS` in its one step. -/
theorem selectStep_works (a7 : Addr7) : StepWorks i s (selectStep a7 s) := by
  rcases selectStep_cases a7 s with ⟨e, h⟩ | h | ⟨-, -, h⟩ <;> rw [h]
  · exact (works_refl s).raises e none 0
  · exact works_refl s
  · exact (works_refl s).update rfl rfl

/-- `COMP_T` in its one step. -/
theorem compTStep_works : StepWorks i s (compTStep s) := by
  unfold compTStep
  split
  · exact (works_refl s).update rfl rfl
  · exact (works_refl s).raises _ none 0

/-- `COMP_P` in its one step. -/
theorem compPStep_works : StepWorks i s (compPStep s) := by
  unfold compPStep
  split
  · exact (works_refl s).update rfl rfl
  · exact (works_refl s).raises _ none 0

/-- A command of one step is on no other. -/
theorem oneStep_works {f : State → Progress} (hi : ∀ p, fits i p = true → p = .decode)
    (h : StepWorks i s (f s)) : StepWorks i s (oneStep f s) := by
  unfold oneStep
  split
  · exact h
  · exact h
  · exact stepWorks_stray (by assumption)
      (Bool.eq_false_iff.2 fun hf => absurd (hi _ hf) (by assumption))

/-- The commands that make no transaction have one step. -/
theorem eq_decode_of_fits {p : Phase} (hi : i = .compT ∨ i = .compP ∨ ∃ a7, i = .selectAddress a7)
    (h : fits i p = true) : p = .decode := by
  rcases hi with rfl | rfl | ⟨a7, rfl⟩ <;> cases p <;> simp_all [fits, measures]

/-- Every step of every command. -/
theorem progressOf_works (i : Instr) (s : State) : StepWorks i s (progressOf i s) := by
  cases i with
  | selectAddress a7 =>
    exact oneStep_works (fun p => eq_decode_of_fits (.inr (.inr ⟨a7, rfl⟩))) (selectStep_works a7)
  | regRead reg => exact registerStep_works (regReadStep_cases reg s)
  | regWrite reg => exact registerStep_works (regWriteStep_cases reg s)
  | fieldRead fld => exact registerStep_works (fieldReadStep_cases fld s)
  | fieldWrite fld => exact registerStep_works (fieldWriteStep_cases fld s)
  | setup =>
    show StepWorks .setup s (setupStep s)
    cases hs : s.seq with
    | idle => exact setupStep_works (.inl rfl) (.inl (.inl hs))
    | run p =>
      by_cases hd : p = .decode
      · exact setupStep_works (.inl rfl) (.inl (.inr (hd ▸ hs)))
      · cases hp : p.inSetup with
        | true => exact setupStep_works (.inl rfl) (.inr ⟨p, hs, hp⟩)
        | false =>
          rw [setupStep_stray hs hd hp]
          refine stepWorks_stray hs (Bool.eq_false_iff.2 fun hf => ?_)
          rcases (fits_cases .setup p hf).2 rfl with h | h <;> simp_all
  | compT => exact oneStep_works (fun p => eq_decode_of_fits (.inl rfl)) compTStep_works
  | compP => exact oneStep_works (fun p => eq_decode_of_fits (.inr (.inl rfl))) compPStep_works
  | update => exact updateStep_works rfl
  | getTemperature => exact updateStep_works rfl
  | getPressure => exact updateStep_works rfl
  | getAltitude m => exact updateStep_works rfl

/-- Writing its result is work of a command. -/
theorem works_resultOf (i : Instr) (h : s.Works u) : s.Works (resultOf i u) := by
  cases i <;> exact h.update rfl rfl

/-- Everything one atomic step of a command can do: it leaves, or, off the command's steps, it meets
the model's fault. -/
theorem exec_cases (i : Instr) (s : State) :
    (∃ t, exec i s = .next t ∧ s.Leaves i t) ∨
    (exec i s = .fault .sequencerOffStep ∧ s.OffStep i) := by
  rw [exec_eq]
  exact complete_of_meets _ (progressOf_works i s)
    fun t ht => ⟨_, works_resultOf i ht, .finishes⟩

/-- A command that answers a next state has left. -/
theorem leaves_of_exec {t : State} (h : exec i s = .next t) : s.Leaves i t := by
  rcases exec_cases i s with ⟨t', ht, hl⟩ | ⟨hf, -⟩
  · rw [h] at ht
    injection ht with ht
    exact ht ▸ hl
  · rw [h] at hf
    cases hf

/-- The step of a running command leaves: an illegal word raises, and a legal one is a step of its
command. -/
theorem leaves_of_runCommand {t : State} (h : runCommand s = .next t) :
    (∃ i, decode s.lcmd = .ok i ∧ s.Leaves i t) ∨
    ((∃ e, decode s.lcmd = .error e) ∧ t = s.raise .illegalCommand) := by
  unfold runCommand at h
  split at h
  · exact .inl ⟨_, by assumption, leaves_of_exec h⟩
  · injection h with h
    exact .inr ⟨⟨_, by assumption⟩, h.symm⟩

/-- The step of a running command leaves. -/
theorem exists_leaves_of_runCommand {t : State} (h : runCommand s = .next t) :
    ∃ i, s.Leaves i t := by
  rcases leaves_of_runCommand h with ⟨i, -, hl⟩ | ⟨-, rfl⟩
  · exact ⟨i, hl⟩
  · exact ⟨.update, (works_refl s).raises _ none 0⟩

end Works

end Sys2Proof.Machine

/-!
A command's step keeps the session invariant of 10_state.md rule R44: everything a step writes keeps
the clauses that do not speak of the sequencer, and the sequencer goes only to steps that belong in
the session the step leaves.
-/

namespace Sys2Proof.Machine

/-! ### The invariant of the session, apart from the sequencer -/

/-- The fields of the state that the session invariant speaks of, but for the sequencer. -/
structure SessionView where
  sstate : SState
  addrSel : Bool
  selA7 : Addr7
  smode : Mode
  calValid : Bool
  tfineValid : Bool
  measValid : Bool
  altValid : Bool
  params : Params

/-- The session of a state. -/
def State.session (s : State) : SessionView :=
  { sstate := s.sstate, addrSel := s.addrSel, selA7 := s.selA7, smode := s.smode,
    calValid := s.calValid, tfineValid := s.tfineValid, measValid := s.measValid,
    altValid := s.altValid, params := s.params }

/-- The clauses of the session invariant that do not speak of the sequencer. -/
structure SessionView.Ok (v : SessionView) : Prop where
  calValid_iff : v.calValid = true ↔ v.sstate ≠ .uninitialized
  selected : v.sstate ≠ .uninitialized → v.addrSel = true
  carry_of_meas : v.measValid = true → v.tfineValid = true
  cal_of_carry : v.tfineValid = true → v.calValid = true
  meas_of_alt : v.altValid = true → v.measValid = true
  sleep_of_uninitialized : v.sstate = .uninitialized → v.smode = .sleep
  unselected : v.addrSel = false → v.selA7 = 0
  candidate : v.addrSel = true → v.params.candidate v.selA7 = true

section Session

variable {i : Instr} {s t u : State} {p q : Phase} {x : Progress}

/-- The session invariant gives its clauses without the sequencer. -/
theorem State.SessionInv.ok (h : s.SessionInv) : s.session.Ok where
  calValid_iff := h.calValid_iff
  selected := h.selected
  carry_of_meas := h.carry_of_meas
  cal_of_carry := h.cal_of_carry
  meas_of_alt := h.meas_of_alt
  sleep_of_uninitialized := h.sleep_of_uninitialized
  unselected := h.unselected
  candidate := h.candidate

/-- An idle block meets the session invariant outside a conversion. -/
theorem sessionInv_of_idle (h : s.session.Ok) (hc : s.sstate ≠ .converting) (hs : s.seq = .idle) :
    s.SessionInv where
  calValid_iff := h.calValid_iff
  selected := h.selected
  carry_of_meas := h.carry_of_meas
  cal_of_carry := h.cal_of_carry
  meas_of_alt := h.meas_of_alt
  converting_iff := by simp [hs, hc]
  sleep_of_uninitialized := h.sleep_of_uninitialized
  in_setup := by simp [hs]
  in_update := by simp [hs]
  bus_selected := by simp [hs]
  unselected := h.unselected
  candidate := h.candidate

/-- A block whose sequencer goes to the step `q` meets the session invariant where `q` belongs in
its session. -/
theorem sessionInv_goto (h : s.session.Ok) (hc : s.sstate = .converting ↔ q = .poll)
    (hsel : q ≠ .decode → s.addrSel = true)
    (hset : q.inSetup = true → s.sstate = .uninitialized)
    (hup : q.inUpdate = true → s.sstate ≠ .uninitialized) : (s.goto q).SessionInv where
  calValid_iff := h.calValid_iff
  selected := h.selected
  carry_of_meas := h.carry_of_meas
  cal_of_carry := h.cal_of_carry
  meas_of_alt := h.meas_of_alt
  converting_iff := by simpa using hc
  sleep_of_uninitialized := h.sleep_of_uninitialized
  in_setup := by
    rintro p ⟨⟩ hp
    exact ⟨hset hp, hsel (by rintro rfl; cases hp)⟩
  in_update := by
    rintro p ⟨⟩ hp
    exact hup hp
  bus_selected := by
    rintro p ⟨⟩ hp
    exact hsel hp
  unselected := h.unselected
  candidate := h.candidate

/-- No step is one of a setup and one of an update. -/
theorem inUpdate_of_inSetup (hp : p.inSetup = true) : p.inUpdate = false := by
  cases p <;> simp_all [Phase.inSetup, Phase.inUpdate]

/-- A setup goes on before the session exists. -/
theorem sessionInv_goto_setup (h : s.session.Ok) (hs : s.sstate = .uninitialized)
    (hsel : s.addrSel = true) (hq : q.inSetup = true) : (s.goto q).SessionInv :=
  sessionInv_goto h (by simp [hs, ne_poll_of_inSetup hq]) (fun _ => hsel) (fun _ => hs)
    (fun hu => by simp [inUpdate_of_inSetup hq] at hu)

/-- An update goes on in a session; it polls in a conversion. -/
theorem sessionInv_goto_update (h : s.session.Ok) (hs : s.sstate ≠ .uninitialized)
    (hc : s.sstate = .converting ↔ q = .poll) (hq : q.inUpdate = true) :
    (s.goto q).SessionInv :=
  sessionInv_goto h hc (fun _ => h.selected hs)
    (fun hp => by simp [inUpdate_of_inSetup hp] at hq) (fun _ => hs)

/-- An error outside a conversion keeps the session invariant. -/
theorem sessionInv_raiseWith (h : s.session.Ok) (hc : s.sstate ≠ .converting) (e : Err)
    (y : Option ErrXfer) (data : Byte) : (s.raiseWith e y data).SessionInv :=
  sessionInv_of_idle h hc rfl

/-- A step outside the poll is outside a conversion. -/
theorem State.SessionInv.ne_converting (h : s.SessionInv) (hs : s.seq = .run p)
    (hp : p ≠ .poll) : s.sstate ≠ .converting := by
  intro hc
  rw [h.converting_iff, hs] at hc
  injection hc with hc
  exact hp hc

/-- Inside a session the session state moves freely. -/
theorem ok_of_sstate (h : s.session.Ok) (hs : s.sstate ≠ .uninitialized) {st : SState}
    (hst : st ≠ .uninitialized) : { s with sstate := st }.session.Ok where
  calValid_iff := iff_of_true (h.calValid_iff.2 hs) hst
  selected _ := h.selected hs
  carry_of_meas := h.carry_of_meas
  cal_of_carry := h.cal_of_carry
  meas_of_alt := h.meas_of_alt
  sleep_of_uninitialized hu := absurd hu hst
  unselected := h.unselected
  candidate := h.candidate

/-- A candidate can be selected before the session exists. -/
theorem ok_of_selection (h : s.session.Ok) {a7 : Addr7} (ha : s.params.candidate a7 = true) :
    { s with addrSel := true, selA7 := a7 }.session.Ok where
  calValid_iff := h.calValid_iff
  selected _ := rfl
  carry_of_meas := h.carry_of_meas
  cal_of_carry := h.cal_of_carry
  meas_of_alt := h.meas_of_alt
  sleep_of_uninitialized := h.sleep_of_uninitialized
  unselected := nofun
  candidate _ := ha

/-- The end of a setup begins the session. -/
theorem ok_configured (h : s.session.Ok) (hsel : s.addrSel = true) (cal : Coeffs) (m : Mode) :
    (s.configured cal m).session.Ok where
  calValid_iff := iff_of_true rfl nofun
  selected _ := hsel
  carry_of_meas := h.carry_of_meas
  cal_of_carry _ := rfl
  meas_of_alt := h.meas_of_alt
  sleep_of_uninitialized := nofun
  unselected := h.unselected
  candidate := h.candidate

/-- With a calibration there can be a carry. -/
theorem ok_of_carry (h : s.session.Ok) (hcal : s.calValid = true) :
    { s with tfineValid := true }.session.Ok where
  calValid_iff := h.calValid_iff
  selected := h.selected
  carry_of_meas _ := rfl
  cal_of_carry _ := hcal
  meas_of_alt := h.meas_of_alt
  sleep_of_uninitialized := h.sleep_of_uninitialized
  unselected := h.unselected
  candidate := h.candidate

/-- A measurement leaves its carry. -/
theorem ok_measured (h : s.session.Ok) (hcal : s.calValid = true) (raw : Raw) :
    (s.measured raw).session.Ok :=
  { ok_of_carry h hcal with
    carry_of_meas := fun _ => rfl
    meas_of_alt := fun _ => rfl }

/-- After a measurement there can be an altitude. -/
theorem ok_resAlt (h : s.session.Ok) (hm : s.measValid = true) (manual : Bool) :
    (s.resAlt manual).session.Ok :=
  { h with meas_of_alt := fun _ => hm }

/-! ### Setup() -/

/-- A step of a setup keeps the session invariant, and where the setup returns the block is in a
session, outside a conversion. -/
theorem setupStep_session (h : s.SessionInv) (hs : s.seq = .run p)
    (hp : p = .decode ∨ p.inSetup = true) :
    (setupStep s).Meets State.SessionInv (fun t => t.session.Ok ∧ t.sstate = .idle) True := by
  have hc : s.sstate ≠ .converting := h.ne_converting hs (by rintro rfl; simp [Phase.inSetup] at hp)
  rcases hp with rfl | hp
  · rw [setupStep_start (.inr hs)]
    rcases setupStart_cases s with ⟨hu, hx⟩ | ⟨-, e, hx⟩ | ⟨hu, ha, -, c, hx⟩ <;> rw [hx]
    · refine ⟨h.ok, ?_⟩
      cases hst : s.sstate <;> simp_all
    · exact sessionInv_raiseWith h.ok hc _ _ _
    · exact sessionInv_goto_setup (s := { s with addrSel := true, selA7 := s.lsaddr })
        (ok_of_selection h.ok ha) hu rfl rfl
  · obtain ⟨hu, hsel⟩ := h.in_setup p hs hp
    obtain ⟨t, a, -, hx⟩ := setupStep_bus s p hs hp
    rcases hx with ⟨e, reg, dir, data, -, hx⟩ | ⟨q, hq, hx⟩ | ⟨cal, m, hx⟩ <;> rw [hx]
    · exact sessionInv_raiseWith (s := s.record t a) h.ok hc _ _ _
    · exact sessionInv_goto_setup (s := s.record t a) h.ok hu hsel hq
    · exact ⟨ok_configured (s := s.record t a) h.ok hsel cal m, rfl⟩

/-! ### Update() -/

/-- The first step of an update past its setup. -/
theorem sessionInv_updateStart (h : s.session.Ok) (hs : s.sstate = .idle) :
    (updateStart s).SessionInv := by
  rw [updateStart_eq]
  refine sessionInv_goto_update (s := { s with pollcnt := 0 }) h (by simp [hs]) ?_ ?_
  · split <;> simp [hs]
  · split <;> rfl

/-- The poll loop can be left in an error. -/
theorem sessionInv_leavePoll (h : s.session.Ok) (hs : s.sstate ≠ .uninitialized) (e : Err)
    (y : Option ErrXfer) (data : Byte) :
    ({ s with sstate := .idle }.raiseWith e y data).SessionInv :=
  sessionInv_of_idle (ok_of_sstate h hs (st := .idle) nofun) nofun rfl

/-- The head of the poll loop, in a conversion. -/
theorem sessionInv_pollHead (h : s.session.Ok) (hs : s.sstate = .converting) :
    (pollHead s).SessionInv := by
  have hn : s.sstate ≠ .uninitialized := by simp [hs]
  rcases pollHead_cases s with ⟨reg, hx⟩ | hx <;> rw [hx]
  · exact sessionInv_leavePoll h hn _ _ _
  · exact sessionInv_goto_update h hn (by simp [hs]) rfl

/-- A step of an update keeps the session invariant, and where the update returns there is a
measurement. -/
theorem updateStep_session (h : s.SessionInv) (hs : s.seq = .run p)
    (hp : p = .decode ∨ p.inSetup = true ∨ p.inUpdate = true) :
    (updateStep s).Meets State.SessionInv
      (fun t => t.session.Ok ∧ t.sstate ≠ .converting ∧ t.measValid = true) True := by
  have start (hp : p = .decode ∨ p.inSetup = true) : (updateStep s).Meets State.SessionInv
      (fun t => t.session.Ok ∧ t.sstate ≠ .converting ∧ t.measValid = true) True := by
    rw [updateStep_setup s (.inr (hp.imp (fun hd => by rw [hs, hd]) fun hp => ⟨p, hs, hp⟩))]
    exact updateSetup_meets (setupStep_session h hs hp)
      fun t ht => sessionInv_updateStart ht.1 ht.2
  rcases hp with hp | hp | hp
  · exact start (.inl hp)
  · exact start (.inr hp)
  · have hn := h.in_update p hs hp
    obtain ⟨t, a, -, hx⟩ := updateStep_bus s p hs hp
    have hu : (s.record t a).session.Ok := h.ok
    have hc (hq : p ≠ .poll) : s.sstate ≠ .converting := h.ne_converting hs hq
    rcases hx with ⟨hq, _, _, _, _, -, hx⟩ | ⟨rfl, v, hx⟩ | ⟨-, hx⟩ |
      ⟨rfl, ⟨_, _, _, _, -, hx⟩ | hx | hx⟩ | ⟨rfl, raw, hx⟩ <;> rw [hx]
    · exact sessionInv_raiseWith hu (hc hq) _ _ _
    · exact sessionInv_goto_update hu hn (by simpa using hc nofun) rfl
    · exact sessionInv_pollHead (ok_of_sstate hu hn nofun) rfl
    · exact sessionInv_leavePoll hu hn _ _ _
    · exact sessionInv_pollHead (s := { s.record t a with pollcnt := (s.record t a).pollcnt + 1 })
        hu (h.converting_iff.2 hs)
    · exact sessionInv_goto_update
        (s := { s.record t a with pollcnt := (s.record t a).pollcnt + 1, sstate := .idle })
        (ok_of_sstate hu hn (st := .idle) nofun) nofun (by simp) rfl
    · exact ⟨ok_measured hu (h.calValid_iff.2 hn) raw, hc nofun, rfl⟩

/-! ### The commands -/

/-- What a procedure's step from a state of the session invariant comes to: the invariant again, or
a return outside a conversion, with a measurement where the command measures. -/
def StepKeepsSession (i : Instr) (x : Progress) : Prop :=
  x.Meets State.SessionInv (fun t => t.session.Ok ∧ t.sstate ≠ .converting ∧
    (measures i = true → t.measValid = true)) True

/-- A step of a register command keeps the session invariant. -/
theorem registerStep_session {reads : Bool} (hi : measures i = false) (h : s.SessionInv)
    (hs : s.seq = .run p) (hp : p ≠ .poll) (hx : RegisterStep i reads s x) :
    StepKeepsSession i x := by
  have hc := h.ne_converting hs hp
  have next {u : State} (hu : u.session.Ok) (hc : u.sstate ≠ .converting)
      (hsel : u.addrSel = true) {q : Phase} (hset : q.inSetup = false)
      (hup : q.inUpdate = false) : (u.goto q).SessionInv := by
    have hq : q ≠ .poll := by
      rintro rfl
      cases hup
    exact sessionInv_goto hu (iff_of_false hc hq) (fun _ => hsel) (by simp [hset]) (by simp [hup])
  rcases hx with ⟨e, rfl⟩ | ⟨hsel, q, -, -, hset, hup, rfl⟩ |
    ⟨⟨p', hs', hd, -⟩, t, a, -, hx⟩ | ⟨-, rfl⟩
  · exact sessionInv_raiseWith h.ok hc _ _ _
  · exact next h.ok hc hsel hset hup
  · have hu : (s.record t a).session.Ok := h.ok
    rcases hx with ⟨_, _, _, _, -, rfl⟩ | ⟨e, rfl⟩ | ⟨q, -, -, hset, hup, rfl⟩ | ⟨r, -, rfl⟩
    · exact sessionInv_raiseWith hu hc _ _ _
    · exact sessionInv_raiseWith hu hc _ _ _
    · exact next hu hc (h.bus_selected p' hs' hd) hset hup
    · exact ⟨hu, hc, by simp [hi]⟩
  · trivial

/-- `SELECT_ADDRESS` selects a candidate. -/
theorem selectStep_session (a7 : Addr7) (h : s.session.Ok) (hc : s.sstate ≠ .converting) :
    StepKeepsSession (.selectAddress a7) (selectStep a7 s) := by
  rcases selectStep_cases a7 s with ⟨e, hx⟩ | hx | ⟨-, ha, hx⟩ <;> rw [hx]
  · exact sessionInv_raiseWith h hc _ _ _
  · exact ⟨h, hc, nofun⟩
  · exact ⟨ok_of_selection h ha, hc, nofun⟩

/-- `COMP_T` leaves a carry only with a calibration. -/
theorem compTStep_session (h : s.session.Ok) (hc : s.sstate ≠ .converting) :
    StepKeepsSession .compT (compTStep s) := by
  unfold compTStep
  split
  case isTrue hcal => exact ⟨ok_of_carry h hcal, hc, nofun⟩
  case isFalse => exact sessionInv_raiseWith h hc _ _ _

/-- `COMP_P` writes nothing of the session. -/
theorem compPStep_session (h : s.session.Ok) (hc : s.sstate ≠ .converting) :
    StepKeepsSession .compP (compPStep s) := by
  unfold compPStep
  split
  · exact ⟨h, hc, nofun⟩
  · exact sessionInv_raiseWith h hc _ _ _

/-- A procedure of one step keeps the session invariant where its step does. -/
theorem oneStep_session {f : State → Progress} (hx : StepKeepsSession i (f s)) :
    StepKeepsSession i (oneStep f s) := by
  unfold oneStep
  split
  · exact hx
  · exact hx
  · trivial

/-- Every step of every command keeps the session invariant. -/
theorem progressOf_session (h : s.SessionInv) (hs : s.seq = .run p) (hp : fits i p = true) :
    StepKeepsSession i (progressOf i s) := by
  by_cases hi : measures i = true
  · rw [progressOf_measures hi]
    have hx := updateStep_session h hs ((fits_cases i p hp).1 hi)
    generalize updateStep s = x at hx ⊢
    cases x with
    | ends t => exact hx
    | returned t => exact ⟨hx.1, hx.2.1, fun _ => hx.2.2⟩
    | stray => trivial
  · have hq : p ≠ .poll := by
      rintro rfl
      exact hi (measures_of_fits_poll hp)
    have hc := h.ne_converting hs hq
    cases i with
    | selectAddress a7 => exact oneStep_session (selectStep_session a7 h.ok hc)
    | regRead reg => exact registerStep_session rfl h hs hq (regReadStep_cases reg s)
    | regWrite reg => exact registerStep_session rfl h hs hq (regWriteStep_cases reg s)
    | fieldRead fld => exact registerStep_session rfl h hs hq (fieldReadStep_cases fld s)
    | fieldWrite fld => exact registerStep_session rfl h hs hq (fieldWriteStep_cases fld s)
    | setup =>
      have hx := setupStep_session h hs ((fits_cases .setup p hp).2 rfl)
      show StepKeepsSession .setup (setupStep s)
      generalize setupStep s = x at hx ⊢
      cases x with
      | ends t => exact hx
      | returned t => exact ⟨hx.1, by simp [hx.2], nofun⟩
      | stray => trivial
    | compT => exact oneStep_session (compTStep_session h.ok hc)
    | compP => exact oneStep_session (compPStep_session h.ok hc)
    | _ => exact absurd rfl hi

/-- The results a command writes keep the session invariant. -/
theorem sessionInv_resultOf_finish (h : s.session.Ok) (hc : s.sstate ≠ .converting)
    (hm : measures i = true → s.measValid = true) : (resultOf i s).finish.SessionInv := by
  cases i with
  | getAltitude manual => exact sessionInv_of_idle (ok_resAlt h (hm rfl) manual) hc rfl
  | _ => exact sessionInv_of_idle h hc rfl

/-- A step of a command keeps the session invariant. -/
theorem sessionInv_of_exec (h : s.SessionInv) (hs : s.seq = .run p) (hp : fits i p = true)
    (hx : exec i s = .next t) : t.SessionInv := by
  rw [exec_eq] at hx
  rcases complete_of_meets (resultOf i) (progressOf_session h hs hp)
    (fun u hu => sessionInv_resultOf_finish hu.1 hu.2.1 hu.2.2) with ⟨u, hu, hinv⟩ | ⟨hf, -⟩
  · rw [hx] at hu
    injection hu with hu
    exact hu ▸ hinv
  · rw [hx] at hf
    cases hf

/-- A step of the running command keeps the session invariant. -/
theorem sessionInv_of_runCommand (h : s.SessionInv) (ho : s.OnStep) (hb : s.busy = true)
    (hx : runCommand s = .next t) : t.SessionInv := by
  obtain ⟨p, hs⟩ : ∃ p, s.seq = .run p := by
    cases hs : s.seq with
    | idle => exact absurd hs (s.busy_iff.1 hb)
    | run p => exact ⟨p, rfl⟩
  unfold runCommand at hx
  cases hd : decode s.lcmd with
  | ok i =>
    rw [hd] at hx
    have hp : fits i p = true := by
      by_cases hq : p = .decode
      · rw [hq]; rfl
      · obtain ⟨j, hj, hf⟩ := ho p hs hq
        rw [hd] at hj
        injection hj with hj
        exact hj ▸ hf
    exact sessionInv_of_exec h hs hp hx
  | error e =>
    rw [hd] at hx
    injection hx with hx
    have hq : p ≠ .poll := by
      rintro rfl
      obtain ⟨j, hj, -⟩ := ho _ hs nofun
      rw [hd] at hj
      cases hj
    exact hx ▸ sessionInv_raiseWith h.ok (h.ne_converting hs hq) _ _ _

end Session

end Sys2Proof.Machine

/-!
Moves of the machine, and the statements of 10_state.md on what every step and every command keeps
(rules R23, R26, R27, R39 to R41, R44).
-/

namespace Sys2Proof.Machine

/-! ### Moves of the machine -/

/-- `s` with the host's registers, the host's list and the read log of `w`: all that a host access
writes. -/
def State.withHostSide (s w : State) : State :=
  { s with
    saddr := w.saddr, scfg := w.scfg, arg0 := w.arg0, arg1 := w.arg1, arg2 := w.arg2,
    arg3 := w.arg3, host := w.host, readLog := w.readLog }

section Moves

variable {s t u : State} {P : State → Prop}

/-- A move in which the sequencer does not act is block reset, or writes the host's side alone. -/
theorem made_cases (h : nextMove s = .made t) : t = s.withHostSide t ∨
    (s.resetNext = true ∧ ∃ rest, t = { s with host := rest }.blockReset) := by
  rcases nextMove_made s t h with rfl | ⟨rest, rfl | ⟨hr, rfl⟩ | ⟨off, rfl⟩ | ⟨off, v, rfl⟩⟩
  · exact .inl rfl
  · exact .inl rfl
  · exact .inr ⟨hr, rest, rfl⟩
  · exact .inl rfl
  · obtain ⟨sa, sc, a0, a1, a2, a3, hw⟩ := writeCsr_cases { s with host := rest } off v
    rw [hw]
    exact .inl rfl

/-- What holds of a state, whatever its host's side is, and of the state that acceptance leaves,
holds where the sequencer acts, and that block is busy. -/
theorem command_of_moves (hs : P s) (host : ∀ w, P s → P (s.withHostSide w))
    (accept : ∀ v w, P v → s.busy = false → v = s.withHostSide v → P (v.accept w))
    (h : nextMove s = .command u) : P u ∧ u.busy = true := by
  obtain ⟨hb, rfl | ⟨rest, rfl⟩ | ⟨rest, w, hi, rfl⟩⟩ := nextMove_command s u h
  · exact ⟨hs, hb⟩
  · exact ⟨host { s with host := rest } hs, hb⟩
  · exact ⟨accept { s with host := rest } w (host { s with host := rest } hs) hi rfl, hb⟩

/-- A step of the machine from a state of `P`, where the host's accesses, acceptance and block reset
keep `P`: it holds after the step, or the step is one of a running command from a state of `P`. -/
theorem step_of_moves (hs : P s) (host : ∀ w, P s → P (s.withHostSide w))
    (accept : ∀ v w, P v → s.busy = false → v = s.withHostSide v → P (v.accept w))
    (reset : s.resetNext = true → ∀ rest, P { s with host := rest }.blockReset)
    (h : step s = .next t) : P t ∨ ∃ u, P u ∧ u.busy = true ∧ runCommand u = .next t := by
  rcases step_cases s t h with hm | ⟨u, hm, hx⟩
  · rcases made_cases hm with ht | ⟨hr, rest, rfl⟩
    · rw [ht]
      exact .inl (host t hs)
    · exact .inl (reset hr rest)
  · obtain ⟨hu, hb⟩ := command_of_moves hs host accept hm
    exact .inr ⟨u, hu, hb, hx⟩

/-! ### The invariant of the block -/

/-- The invariant does not speak of the host's side. -/
theorem inv_withHostSide (w : State) (h : s.Inv) : (s.withHostSide w).Inv where
  session := { h.session with }
  status := { h.status with }
  onStep := h.onStep

/-- Acceptance begins a command at its first step. -/
theorem onStep_accept (s : State) (w : Word) : (s.accept w).OnStep := by
  rintro p ⟨⟩ hp
  exact absurd rfl hp

/-- Acceptance by an idle block keeps the invariant. -/
theorem inv_accept (w : Word) (h : s.Inv) (hs : s.seq = .idle) : (s.accept w).Inv where
  session := by
    refine sessionInv_goto (s := s.accept w) (q := .decode) h.session.ok ?_ nofun nofun nofun
    have := h.session.converting_iff
    simp_all
  status :=
    { err_iff := rfl
      done_of_err := nofun
      busy_clear := fun _ => ⟨rfl, rfl⟩
      errinfo_clear := fun _ => rfl
      perr_of_code := nofun }
  onStep := onStep_accept s w

/-- Block reset establishes the invariant. -/
theorem inv_blockReset (s : State) : s.blockReset.Inv where
  session := by
    refine sessionInv_of_idle ?_ nofun rfl
    constructor <;> simp [State.session, State.blockReset, State.resetWith]
  status := by
    constructor <;> simp [State.busy, State.blockReset, State.resetWith]
  onStep := nofun

/-- A step of the machine from a state of the invariant keeps it, or is one of a running command
from a state of the invariant. -/
theorem inv_step (h : s.Inv) (hx : step s = .next t) :
    t.Inv ∨ ∃ u, u.Inv ∧ u.busy = true ∧ runCommand u = .next t := by
  refine step_of_moves h inv_withHostSide (fun v w hv hb hvs => ?_) (fun _ _ => inv_blockReset _) hx
  refine inv_accept w hv ?_
  rw [hvs]
  cases hs : s.seq with
  | idle => exact hs
  | run p => simp [State.busy, hs] at hb

/-! ### The flags -/

/-- A busy block's step keeps the flags and the error record consistent, whichever way it leaves. -/
theorem statusInv_of_leaves {i : Instr} (h : s.StatusInv) (hb : s.busy = true)
    (hl : s.Leaves i t) : t.StatusInv := by
  obtain ⟨u, hu, he⟩ := hl
  obtain ⟨w, rfl⟩ : ∃ w, u = s.withWork w := ⟨u, hu.same⟩
  obtain ⟨hdone, hcode⟩ := h.busy_clear hb
  cases he with
  | goes q =>
    exact {
      err_iff := h.err_iff
      done_of_err := h.done_of_err
      busy_clear := fun _ => ⟨hdone, hcode⟩
      errinfo_clear := h.errinfo_clear
      perr_of_code := h.perr_of_code }
  | finishes =>
    exact {
      err_iff := rfl
      done_of_err := nofun
      busy_clear := nofun
      errinfo_clear := fun _ => h.errinfo_clear hcode
      perr_of_code := nofun }
  | raises e x data =>
    exact {
      err_iff := rfl
      done_of_err := fun _ => rfl
      busy_clear := nofun
      errinfo_clear := nofun
      perr_of_code := by
        rintro _ ⟨⟩ he
        simp [he] }

/-- No way to leave clears `PERR`. -/
theorem perr_of_leaves {i : Instr} (h : s.perr = true) (hl : s.Leaves i t) : t.perr = true := by
  obtain ⟨u, hu, he⟩ := hl
  have hp : u.perr = true := by
    rw [hu.same]
    exact h
  cases he with
  | goes q => exact hp
  | finishes => exact hp
  | raises e x data => simp [hp]

/-! ### The sequencer -/

/-- A block on a step of its command is not off it. -/
theorem not_offStep {i : Instr} (h : s.OnStep) (hd : decode s.lcmd = .ok i) : ¬ s.OffStep i := by
  rintro ⟨p, hs, hf⟩
  have hp : p ≠ .decode := by
    rintro rfl
    cases hf
  obtain ⟨j, hj, hfj⟩ := h p hs hp
  rw [hd] at hj
  injection hj with hj
  rw [hj, hfj] at hf
  cases hf

/-- A running command on one of its steps meets no fault. -/
theorem runCommand_ne_fault (h : s.OnStep) (f : Fault) : runCommand s ≠ .fault f := by
  intro hx
  unfold runCommand at hx
  split at hx
  case h_1 i hd =>
    rcases exec_cases i s with ⟨t, ht, -⟩ | ⟨-, ho⟩
    · rw [ht] at hx
      cases hx
    · exact not_offStep h hd ho
  case h_2 => cases hx

/-- A running command stays on its steps. -/
theorem onStep_of_runCommand (hx : runCommand s = .next t) : t.OnStep := by
  rcases leaves_of_runCommand hx with ⟨i, hd, u, hu, he⟩ | ⟨-, rfl⟩
  · cases he with
    | goes q hq =>
      rintro p ⟨⟩ -
      refine ⟨i, ?_, hq⟩
      rw [← hd]
      exact congrArg decode hu.sameHostSide.lcmd
    | finishes => exact nofun
    | raises e x data => exact nofun
  · exact nofun

/-! ### The bus -/

/-- The base address and the number of bytes of every register. -/
def registerRows (p : Params) : List (Byte × Nat) :=
  [(p.sreg.chipId, 1), (p.sreg.status, 1), (p.sreg.ctrlMeas, 1), (p.sreg.config, 1),
   (p.sreg.data, 6), (p.sreg.calibration, 24)]

/-- Every register is a row of the table. -/
theorem mem_registerRows (p : Params) (r : RegId) : (r.base p, r.bytes) ∈ registerRows p := by
  cases r <;> simp [registerRows, RegId.base, RegId.bytes]

/-- The sequencer's turn comes with the bus and the selection of the state before, and in a session
the address is selected before any step that makes a transaction. -/
structure State.SameBusSide (s u : State) : Prop where
  history : u.history = s.history
  selA7 : u.selA7 = s.selA7
  params : u.params = s.params
  selected : s.SessionInv → ∀ p, u.seq = .run p → p ≠ .decode → s.addrSel = true

/-- A way to leave does not write the bus history. -/
theorem history_of_stepEnd {i : Instr} (h : StepEnd i u t) : t.history = u.history := by
  cases h <;> rfl

end Moves

/-! ### The statements on what every step keeps -/

/-- Settles O47: reset is a block reset. -/
theorem resetSatisfiesTheInvariant : Obligations.ResetSatisfiesTheInvariant :=
  inv_blockReset State.reset

/-- Settles O48, from the commands' steps; the other moves keep the whole invariant. -/
theorem everyStepKeepsTheSessionInvariant : Obligations.EveryStepKeepsTheSessionInvariant := by
  intro s t h hx
  rcases inv_step h hx with ht | ⟨u, hu, hb, hx⟩
  · exact ht.session
  · exact sessionInv_of_runCommand hu.session hu.onStep hb hx

/-- Settles O49, from the three ways a step can leave. -/
theorem everyStepKeepsTheStatusInvariant : Obligations.EveryStepKeepsTheStatusInvariant := by
  intro s t h hx
  rcases inv_step h hx with ht | ⟨u, hu, hb, hx⟩
  · exact ht.status
  · obtain ⟨i, hl⟩ := exists_leaves_of_runCommand hx
    exact statusInv_of_leaves hu.status hb hl

/-- Settles O50: a command strays only off its steps, and goes on only to its steps. -/
theorem sequencerStaysOnItsCommand : Obligations.SequencerStaysOnItsCommand := by
  intro s h
  refine ⟨fun f hx => ?_, fun t hx => ?_⟩
  · unfold step at hx
    cases hm : nextMove s with
    | made t => simp [hm] at hx
    | refused r => simp [hm] at hx
    | command u =>
      rw [hm] at hx
      obtain ⟨hu, -⟩ := command_of_moves h (fun _ h => h) (fun v w _ _ _ => onStep_accept v w) hm
      exact runCommand_ne_fault hu f hx
  · rcases step_of_moves h (fun _ h => h) (fun v w _ _ _ => onStep_accept v w)
      (fun _ rest => (inv_blockReset _).onStep) hx with ht | ⟨u, -, -, hx⟩
    · exact ht
    · exact onStep_of_runCommand hx

/-- Settles O51: neither the host nor a command clears the flag. -/
theorem perrIsSticky : Obligations.PerrIsSticky := by
  intro s t hr hx hp
  rcases step_of_moves (P := fun u => u.perr = true) hp (fun _ h => h) (fun _ _ h _ _ => h)
    (fun hr' => by simp [hr] at hr') hx with ht | ⟨u, hu, -, hx⟩
  · exact ht
  · obtain ⟨i, hl⟩ := exists_leaves_of_runCommand hx
    exact perr_of_leaves hu hl

/-- Settles O54: only the sequencer makes transactions, at most one in a step, past the command's
first step. -/
theorem atMostOneTransactionPerStep : Obligations.AtMostOneTransactionPerStep := by
  refine ⟨fun s t hr hx => ?_, readAnswer_ok_length⟩
  have hs : s.SameBusSide s := ⟨rfl, rfl, rfl, fun h => h.bus_selected⟩
  rcases step_of_moves (P := s.SameBusSide) hs (fun _ _ => { hs with })
    (fun v w hv _ _ => ⟨hv.history, hv.selA7, hv.params, by rintro - p ⟨⟩ hp; exact absurd rfl hp⟩)
    (fun hr' => by simp [hr] at hr') hx with ht | ⟨u, hu, -, hx⟩
  · exact .inl ht.history
  · obtain ⟨i, v, hv, he⟩ := exists_leaves_of_runCommand hx
    rw [history_of_stepEnd he, ← hu.history, ← hu.selA7, ← hu.params]
    rcases hv.bus with hb | ⟨⟨p, hp, hd⟩, txn, a, ha, hb⟩
    · exact .inl hb
    · refine .inr ⟨⟨txn, a⟩, hb, fun h => hu.selected h p hp hd, ?_⟩
      rcases ha with ⟨r, rfl, hlen⟩ | ⟨r, b, rfl, hlen⟩
      · exact .inl ⟨_, _, rfl, mem_registerRows u.params r, hlen⟩
      · exact .inr ⟨_, _, rfl, hlen ▸ mem_registerRows u.params r⟩

/-- Settles O56: a step's work is off the host's side, and only an error writes the error record. -/
theorem everyCommandKeepsTheHostSide : Obligations.EveryCommandKeepsTheHostSide := by
  intro i s t hx
  obtain ⟨u, hu, he⟩ := leaves_of_exec hx
  obtain ⟨w, rfl⟩ : ∃ w, u = s.withWork w := ⟨u, hu.same⟩
  have host := hu.sameHostSide
  cases he with
  | goes q => exact ⟨{ host with }, fun _ => ⟨rfl, rfl⟩⟩
  | finishes => exact ⟨{ host with }, fun _ => ⟨rfl, rfl⟩⟩
  | raises e x data => exact ⟨{ host with }, fun h => by simp at h⟩

end Sys2Proof.Machine

/-!
What a command does commutes with a change of the argument registers (10_state.md rule R40,
60_exceptions.md rule R273).
-/

namespace Sys2Proof.Machine

/-! ### The argument registers while a command runs -/

/-- What a step comes to, with its state changed by `g`. -/
def Progress.map (g : State → State) (x : Progress) : Progress :=
  match x with
  | .ends t => .ends (g t)
  | .returned t => .returned (g t)
  | .stray => .stray

/-- `s` with what the registers that acceptance latches hold in `w`. -/
def State.withArgs (w s : State) : State :=
  { s with
    arg0 := w.arg0, arg1 := w.arg1, arg2 := w.arg2, arg3 := w.arg3, saddr := w.saddr
    scfg := w.scfg }

/-- The sequencer is where it was. -/
@[simp] theorem State.withArgs_seq (w s : State) : (w.withArgs s).seq = s.seq := rfl

/-- The procedure does the same whatever the argument registers hold. -/
def IgnoresArgs (f : State → Progress) : Prop :=
  ∀ w s : State, f (w.withArgs s) = (f s).map w.withArgs

/-- A choice is changed as its branches are, where its condition stays. -/
theorem ite_map {α β : Type} {c c' : Prop} [Decidable c] [Decidable c'] {g : α → β} {x y : α}
    {x' y' : β} (hc : c' ↔ c) (hx : x' = g x) (hy : y' = g y) :
    (if c' then x' else y') = g (if c then x else y) := by
  by_cases h : c
  · rw [if_pos h, if_pos (hc.2 h), hx]
  · rw [if_neg h, if_neg (mt hc.1 h), hy]

/-- A read transaction leaves the argument registers and does not depend on them. -/
theorem busRead_withArgs (w s : State) (reg : Byte) (n : Nat) :
    busRead (w.withArgs s) reg n = (w.withArgs (busRead s reg n).1, (busRead s reg n).2) := rfl

/-- So does a write transaction. -/
theorem busWrite_withArgs (w s : State) (reg : Byte) (b : List Byte) :
    busWrite (w.withArgs s) reg b = (w.withArgs (busWrite s reg b).1, (busWrite s reg b).2) := rfl

/-- A read step ignores the argument registers where its continuation does. -/
theorem memRead_withArgs {w s : State} (reg : Byte) (n : Nat) {k k' : State → Raw → Progress}
    (hk : ∀ u raw, k' (w.withArgs u) raw = (k u raw).map w.withArgs) :
    memRead (w.withArgs s) reg n k' = (memRead s reg n k).map w.withArgs := by
  unfold memRead
  rw [busRead_withArgs]
  cases busRead s reg n with
  | mk u a =>
    cases a with
    | nack => rfl
    | ok b => exact hk u _

/-- A write step ignores the argument registers where its continuation does. -/
theorem memWrite_withArgs {w s : State} (reg : Byte) (b : List Byte) {k k' : State → Progress}
    (hk : ∀ u, k' (w.withArgs u) = (k u).map w.withArgs) :
    memWrite (w.withArgs s) reg b k' = (memWrite s reg b k).map w.withArgs := by
  unfold memWrite
  rw [busWrite_withArgs]
  cases busWrite s reg b with
  | mk u a =>
    cases a with
    | nack => rfl
    | ok c => exact hk u

/-- The first step of a setup reads the latched copies. -/
theorem setupStart_ignoresArgs : IgnoresArgs setupStart := by
  intro w s
  refine ite_map Iff.rfl (ite_map Iff.rfl ?_ rfl) rfl
  have hc : setupCodes (w.withArgs s).params (w.withArgs s).lscfg =
    setupCodes s.params s.lscfg := rfl
  rw [hc]
  cases setupCodes s.params s.lscfg with
  | none => rfl
  | some c => exact ite_map Iff.rfl rfl rfl

/-- A setup reads no argument but the latched copies. -/
theorem setupStep_ignoresArgs : IgnoresArgs setupStep := by
  intro w s
  unfold setupStep
  rw [State.withArgs_seq]
  cases s.seq with
  | idle => exact setupStart_ignoresArgs w s
  | run p =>
    cases p with
    | decode => exact setupStart_ignoresArgs w s
    | setupChipId c =>
      unfold setupChipId
      exact memRead_withArgs _ 1 fun u raw =>
        ite_map (x := Progress.ends (u.goto _)) Iff.rfl rfl rfl
    | setupCtrlRead c => exact memRead_withArgs _ 1 fun _ _ => rfl
    | setupCtrlWrite c v => exact memWrite_withArgs _ [v] fun _ => rfl
    | setupConfigRead c => exact memRead_withArgs _ 1 fun _ _ => rfl
    | setupConfigWrite c v => exact memWrite_withArgs _ [v] fun _ => rfl
    | setupCal c => exact memRead_withArgs _ 24 fun _ _ => rfl
    | _ => rfl

/-- An update goes on past its setup without an argument. -/
theorem updateStart_withArgs (w s : State) :
    updateStart (w.withArgs s) = w.withArgs (updateStart s) := by
  simp only [updateStart_eq]
  rfl

/-- The head of the poll loop reads no argument. -/
theorem pollHead_withArgs (w s : State) : pollHead (w.withArgs s) = w.withArgs (pollHead s) := by
  exact ite_map Iff.rfl rfl rfl

/-- A status read reads no argument. -/
theorem pollStep_ignoresArgs : IgnoresArgs pollStep := by
  intro w s
  have hreg : RegId.status.base (w.withArgs s).params = RegId.status.base s.params := rfl
  unfold pollStep
  dsimp only
  rw [hreg, busRead_withArgs]
  cases busRead s (RegId.status.base s.params) 1 with
  | mk u a =>
    cases a with
    | nack => rfl
    | ok b =>
      exact ite_map Iff.rfl
        (congrArg Progress.ends (pollHead_withArgs w { u with pollcnt := u.pollcnt + 1 })) rfl

/-- The steps of an update's setup read no argument but the latched copies. -/
theorem updateSetup_ignoresArgs : IgnoresArgs updateSetup := by
  intro w s
  unfold updateSetup
  rw [setupStep_ignoresArgs w s]
  cases setupStep s with
  | ends t => rfl
  | returned t => exact congrArg Progress.ends (updateStart_withArgs w t)
  | stray => rfl

/-- An update reads no argument but its setup's latched copies. -/
theorem updateStep_ignoresArgs : IgnoresArgs updateStep := by
  intro w s
  unfold updateStep
  rw [State.withArgs_seq]
  cases s.seq with
  | idle => exact updateSetup_ignoresArgs w s
  | run p =>
    cases p with
    | triggerRead => exact memRead_withArgs _ 1 fun _ _ => rfl
    | triggerWrite v =>
      exact memWrite_withArgs _ [v] fun u =>
        congrArg Progress.ends (pollHead_withArgs w { u with sstate := .converting })
    | poll => exact pollStep_ignoresArgs w s
    | dataRead => exact memRead_withArgs _ 6 fun _ _ => rfl
    | regRead => rfl
    | regWrite => rfl
    | fieldRead => rfl
    | fieldModify code => rfl
    | fieldWriteBack new => rfl
    | _ => exact updateSetup_ignoresArgs w s

/-- `REG_READ` reads no argument. -/
theorem regReadStep_ignoresArgs (reg : BitVec 3) : IgnoresArgs (regReadStep reg) := by
  intro w s
  have start : regReadStart (w.withArgs s) = (regReadStart s).map w.withArgs :=
    ite_map Iff.rfl rfl rfl
  unfold regReadStep
  rw [State.withArgs_seq]
  cases regAt reg with
  | none => rfl
  | some r =>
    dsimp only
    split
    · exact start
    · exact start
    · exact memRead_withArgs _ _ fun _ _ => rfl
    · rfl

/-- `REG_WRITE` reads `LARG0`. -/
theorem regWriteStep_ignoresArgs (reg : BitVec 3) : IgnoresArgs (regWriteStep reg) := by
  intro w s
  have start (r : RegId) : regWriteStart r (w.withArgs s) = (regWriteStart r s).map w.withArgs := 
    ite_map Iff.rfl (ite_map Iff.rfl (ite_map Iff.rfl rfl rfl) rfl) rfl
  unfold regWriteStep
  rw [State.withArgs_seq]
  cases regAt reg with
  | none => rfl
  | some r =>
    dsimp only
    split
    · exact start r
    · exact start r
    · exact memWrite_withArgs _ _ fun _ => rfl
    · rfl

/-- `FIELD_READ` reads no argument. -/
theorem fieldReadStep_ignoresArgs (fld : BitVec 5) : IgnoresArgs (fieldReadStep fld) := by
  intro w s
  have start : fieldReadStart (w.withArgs s) = (fieldReadStart s).map w.withArgs :=
    ite_map Iff.rfl rfl rfl
  have result (d : Field) (u : State) (raw : Raw) :
      fieldReadResult d (w.withArgs u) raw = (fieldReadResult d u raw).map w.withArgs := by
    have hc : decodeField (w.withArgs u).params d.codec (extractField d.mask raw) =
      decodeField u.params d.codec (extractField d.mask raw) := rfl
    unfold fieldReadResult
    rw [hc]
    cases decodeField u.params d.codec (extractField d.mask raw) <;> rfl
  unfold fieldReadStep
  rw [State.withArgs_seq]
  cases fieldAt fld with
  | none => rfl
  | some d =>
    dsimp only
    split
    · exact start
    · exact start
    · exact memRead_withArgs _ _ (result d)
    · rfl

/-- `FIELD_WRITE` reads `LARG0`. -/
theorem fieldWriteStep_ignoresArgs (fld : BitVec 5) : IgnoresArgs (fieldWriteStep fld) := by
  intro w s
  have start (d : Field) :
      fieldWriteStart d (w.withArgs s) = (fieldWriteStart d s).map w.withArgs := by
    refine ite_map Iff.rfl (ite_map Iff.rfl rfl ?_) rfl
    have hc : encodeField (w.withArgs s).params d (w.withArgs s).larg0 =
      encodeField s.params d s.larg0 := rfl
    rw [hc]
    cases encodeField s.params d s.larg0 <;> rfl
  unfold fieldWriteStep
  rw [State.withArgs_seq]
  cases fieldAt fld with
  | none => rfl
  | some d =>
    dsimp only
    split
    · exact start d
    · exact start d
    · exact memRead_withArgs _ _ fun _ _ => rfl
    · exact memWrite_withArgs _ _ fun _ => rfl
    · rfl

/-- A procedure of one step ignores the argument registers where its step does. -/
theorem oneStep_ignoresArgs {f : State → Progress} (hf : IgnoresArgs f) :
    IgnoresArgs (oneStep f) := by
  intro w s
  unfold oneStep
  rw [State.withArgs_seq]
  split
  · exact hf w s
  · exact hf w s
  · rfl

/-- `SELECT_ADDRESS` has its operand in the command word. -/
theorem selectStep_ignoresArgs (a7 : Addr7) : IgnoresArgs (selectStep a7) := by
  intro w s
  exact ite_map Iff.rfl (ite_map Iff.rfl (ite_map Iff.rfl rfl rfl) rfl) rfl

/-- `COMP_T` reads `LARG0`. -/
theorem compTStep_ignoresArgs : IgnoresArgs compTStep := by
  intro w s
  exact ite_map Iff.rfl rfl rfl

/-- `COMP_P` reads `LARG0`. -/
theorem compPStep_ignoresArgs : IgnoresArgs compPStep := by
  intro w s
  exact ite_map Iff.rfl rfl rfl

/-- No command reads an argument register. -/
theorem progressOf_ignoresArgs (i : Instr) : IgnoresArgs (progressOf i) := by
  cases i with
  | selectAddress a7 => exact oneStep_ignoresArgs (selectStep_ignoresArgs a7)
  | regRead reg => exact regReadStep_ignoresArgs reg
  | regWrite reg => exact regWriteStep_ignoresArgs reg
  | fieldRead fld => exact fieldReadStep_ignoresArgs fld
  | fieldWrite fld => exact fieldWriteStep_ignoresArgs fld
  | setup => exact setupStep_ignoresArgs
  | compT => exact oneStep_ignoresArgs compTStep_ignoresArgs
  | compP => exact oneStep_ignoresArgs compPStep_ignoresArgs
  | _ => exact updateStep_ignoresArgs

/-- The results of a command are those of the latched copies. -/
theorem resultOf_withArgs (i : Instr) (w s : State) :
    resultOf i (w.withArgs s) = w.withArgs (resultOf i s) := by
  cases i <;> rfl

/-- A command completes with the same argument registers as its procedure. -/
theorem complete_map {i : Instr} {x : Progress} {t : State} (w : State)
    (h : x.complete (resultOf i) = .next t) :
    (x.map w.withArgs).complete (resultOf i) = .next (w.withArgs t) := by
  rcases complete_next x _ t h with rfl | ⟨u, rfl, rfl⟩
  · rfl
  · show Host.Outcome.next (resultOf i (w.withArgs u)).finish = _
    rw [resultOf_withArgs]
    rfl

/-- Settles O55: no procedure and no result reads an argument register. -/
theorem commandsReadTheLatchedCopies : Obligations.CommandsReadTheLatchedCopies := by
  intro i s t a0 a1 a2 a3 sa sc h
  rw [exec_eq] at h
  have hw := complete_map
    { s with arg0 := a0, arg1 := a1, arg2 := a2, arg3 := a3, saddr := sa, scfg := sc } h
  rw [← progressOf_ignoresArgs, ← exec_eq] at hw
  exact hw

end Sys2Proof.Machine

/-!
The views of the CSR window and the host's accesses (10_state.md rules R21 to R34, 60_exceptions.md
rule R266).
-/

namespace Sys2Proof.Machine

/-! ### The views -/

/-- The fields of `STATUS` of one bit (10_state.md rule R23). -/
theorem status_bits (s : State) :
    s.status.getLsbD 0 = s.busy ∧ s.status.getLsbD 1 = s.done ∧ s.status.getLsbD 2 = s.err ∧
    s.status.getLsbD 3 = s.perr ∧ s.status.getLsbD 10 = s.addrSel ∧
    s.status.getLsbD 11 = s.calValid ∧ s.status.getLsbD 12 = s.tfineValid ∧
    s.status.getLsbD 13 = s.measValid ∧ s.status.getLsbD 14 = s.altValid ∧
    s.status.getLsbD 15 = false ∧ s.status.getLsbD 23 = false := by
  simp only [State.status, BitVec.getLsbD_append, BitVec.getLsbD_ofBool, Nat.reduceLT,
    Nat.reduceSub, if_true, if_false]
  simp

/-- The wider fields of `STATUS` (10_state.md rule R23). -/
theorem status_fields (s : State) :
    s.status.extractLsb' 4 4 = errcodeBits s.errcode ∧
    s.status.extractLsb' 8 2 = s.sstate.bits ∧
    s.status.extractLsb' 16 7 = s.selA7View ∧ s.status.extractLsb' 24 2 = s.smodeView ∧
    s.status.extractLsb' 26 6 = 0 := by
  refine ⟨?_, ?_, ?_, ?_, ?_⟩ <;>
    simp (disch := decide) only [State.status, BitVec.extractLsb'_append_eq_of_le,
      BitVec.extractLsb'_append_eq_of_add_le, BitVec.extractLsb'_eq_self, Nat.reduceSub]

/-- The numbers of the error codes (60_exceptions.md rule R261). -/
theorem code_of_mem (e : Err) (n : BitVec 4) (h : (e, n) ∈
    [(Err.busError, (1 : BitVec 4)), (.unsupportedChip, 2), (.unknownSymbol, 3),
     (.fieldOverflow, 4), (.conversionTimeout, 5), (.illegalCommand, 6), (.sequenceError, 7),
     (.readOnly, 8)]) : e.code = n := by
  cases e <;> simp_all [Err.code]

/-- In a session `STATUS` shows the mode. -/
theorem smodeView_of_session {s : State} (h : s.sstate ≠ .uninitialized) :
    s.smodeView = s.smode.bits := by
  unfold State.smodeView
  split
  · contradiction
  · rfl
  · rfl

/-- Settles O13, field by field. -/
theorem statusFields : Obligations.StatusFields := by
  intro s
  obtain ⟨hbusy, hdone, herr, hperr, haddr, hcal, htfine, hmeas, halt, h15, h23⟩ := status_bits s
  obtain ⟨hcode, hsstate, hsel, hsmode, hreserved⟩ := status_fields s
  refine ⟨?_, hdone, herr, hperr, ?_, ?_, ?_, ?_, ?_, haddr, hcal, htfine, hmeas, halt, h15, hsel,
    h23, ?_, ?_, hreserved, rfl⟩
  · rw [hbusy]
    exact s.busy_iff
  · intro h
    rw [hcode, h]
    rfl
  · intro e n h he
    rw [hcode, h]
    exact code_of_mem e n he
  · intro h
    rw [hsstate, h]
    rfl
  · intro h
    rw [hsstate, h]
    rfl
  · intro h
    rw [hsstate, h]
    rfl
  · intro h
    rw [hsmode, State.smodeView, h]
  · intro h
    rw [hsmode, smodeView_of_session h]
    refine ⟨fun hm => ?_, fun hm => ?_, fun hm => ?_⟩ <;> rw [hm] <;> rfl

/-! ### Steps and the host's side -/

section Host

variable {s : State} {rest : List HostOp}

/-- An idle sequencer does nothing in its turn. -/
theorem sequencerTurn_of_idle (hs : s.seq = .idle) : sequencerTurn s = .made s := by
  simp [sequencerTurn, State.busy, hs]

/-- A running sequencer takes its turn. -/
theorem sequencerTurn_of_run {p : Phase} (hs : s.seq = .run p) : sequencerTurn s = .command s := by
  simp [sequencerTurn, State.busy, hs]

/-- A step in which the next move is made. -/
theorem step_of_made {t : State} (h : nextMove s = .made t) : step s = .next t := by
  simp [step, h]

/-- A step in which the sequencer acts. -/
theorem step_of_command {u : State} (h : nextMove s = .command u) : step s = runCommand u := by
  simp [step, h]

/-- The running command is the one in `LCMD`. -/
theorem runCommand_of_ok {i : Instr} (h : decode s.lcmd = .ok i) : runCommand s = exec i s := by
  simp [runCommand, h]

/-- With nothing to come from the host the sequencer moves. -/
theorem nextMove_nil (h : s.host = []) : nextMove s = sequencerTurn s := by
  simp [nextMove, h]

/-- In a pause the sequencer moves. -/
theorem nextMove_pause (h : s.host = .pause :: rest) :
    nextMove s = sequencerTurn { s with host := rest } := by
  simp [nextMove, h]

/-- While the host waits the sequencer moves, until it is idle. -/
theorem nextMove_waitIdle (h : s.host = .waitIdle :: rest) :
    nextMove s = if s.busy then .command s else .made { s with host := rest } := by
  simp [nextMove, h]

/-- An aligned write of a word is the host's next move. -/
theorem nextMove_csrw {off : Byte} {v : Word} (ha : off.toNat % 4 = 0)
    (h : s.host = .csrw off .word v :: rest) :
    nextMove s = hostWrite { s with host := rest } off v := by
  simp [nextMove, h, accessRefusal, ha]

/-- A write of a register other than `CMD` is one step, in which no command moves. -/
theorem step_csrw {off : Byte} {v : Word} (ha : off.toNat % 4 = 0) (h0 : off ≠ 0)
    (h : s.host = .csrw off .word v :: rest) :
    step s = .next ({ s with host := rest }.writeCsr off v) :=
  step_of_made ((nextMove_csrw ha h).trans (if_neg h0))

end Host

/-- Settles O7: a pause, a wait and an empty list leave the move to the sequencer. -/
theorem stepRunsTheNextAtomicStep : Obligations.StepRunsTheNextAtomicStep := by
  refine ⟨fun s p i hs hd => ⟨fun h => ?_, fun rest h => ?_, fun rest h => ?_⟩,
    fun s hs => ⟨fun h => ?_, fun rest h => ?_⟩⟩
  · rw [step_of_command ((nextMove_nil h).trans (sequencerTurn_of_run hs)), runCommand_of_ok hd]
  · rw [step_of_command (u := { s with host := rest })
      ((nextMove_pause h).trans (sequencerTurn_of_run hs))]
    exact runCommand_of_ok hd
  · rw [step_of_command (u := s)
      ((nextMove_waitIdle h).trans (if_pos (s.busy_of_run p hs))), runCommand_of_ok hd]
  · exact step_of_made ((nextMove_nil h).trans (sequencerTurn_of_idle hs))
  · rcases h with h | h
    · exact step_of_made ((nextMove_pause h).trans (sequencerTurn_of_idle hs))
    · exact step_of_made ((nextMove_waitIdle h).trans (by simp [s.busy_of_idle hs]))

/-- Settles O8: what a write of `CMD` does goes by `BUSY`. -/
theorem commandRegister : Obligations.CommandRegister := by
  intro s w rest h
  have hm : nextMove s = hostWrite { s with host := rest } 0 w := nextMove_csrw rfl h
  rw [(status_bits s).1]
  refine ⟨fun hb => ⟨step_of_command (hm.trans ?_), rfl⟩, fun hb => step_of_made (hm.trans ?_), rfl⟩
  · have hb : { s with host := rest }.busy = false := hb
    simp [hostWrite, hb]
  · have hb : { s with host := rest }.busy = true := hb
    simp [hostWrite, hb]

/-- The low `n` bits of a word, extended again, are the word under the mask of those bits. -/
theorem setWidth_extractLsb' (n : Nat) (v m : Word)
    (hm : ∀ i < 32, m.getLsbD i = decide (i < n)) : (v.extractLsb' 0 n).setWidth 32 = v &&& m := by
  ext i hi
  have hmi := hm i hi
  rw [BitVec.getLsbD_eq_getElem hi] at hmi
  simp [hmi, hi, Bool.and_comm]

/-- Settles O11: each writable register takes its bits of the word. -/
theorem hostWriteStoresTheWritableBits : Obligations.HostWriteStoresTheWritableBits := by
  intro s v rest
  have write (off : Byte) (ha : off.toNat % 4 = 0) (h0 : off ≠ 0)
      (h : s.host = .csrw off .word v :: rest) := step_csrw ha h0 h
  refine ⟨fun h => ⟨_, write 0x08 rfl (by decide) h, rfl, ?_⟩,
    fun h => ⟨_, write 0x0C rfl (by decide) h, rfl, ?_⟩,
    fun h => ⟨_, write 0x10 rfl (by decide) h, rfl, rfl⟩,
    fun h => ⟨_, write 0x14 rfl (by decide) h, rfl, rfl⟩,
    fun h => ⟨_, write 0x18 rfl (by decide) h, rfl, rfl⟩,
    fun h => ⟨_, write 0x1C rfl (by decide) h, rfl, rfl⟩⟩
  · exact setWidth_extractLsb' 7 v _ (by decide)
  · exact setWidth_extractLsb' 25 v _ (by decide)

/-- A write of a register that is not writable is ignored. -/
theorem writeCsr_ignored (s : State) {off : Byte} (v : Word)
    (h : off.toNat = 0x04 ∨ 0x20 ≤ off.toNat) : s.writeCsr off v = s := by
  unfold State.writeCsr
  split
  case h_7 => rfl
  all_goals omega

/-- Offsets from 0xA0 on read 0. -/
theorem readCsr_reserved (s : State) {off : Byte} (h : 0xA0 ≤ off.toNat) : s.readCsr off = 0 := by
  unfold State.readCsr
  split
  case h_41 => rfl
  all_goals omega

/-- Settles O12: these offsets are none of the registers that `writeCsr` and `readCsr` list. -/
theorem otherOffsetsIgnoreWrites : Obligations.OtherOffsetsIgnoreWrites := by
  refine ⟨fun s off v rest ha hr h => ?_, fun s off => readCsr_reserved s⟩
  have h0 : off ≠ 0 := by
    rintro rfl
    simp at hr
  rw [step_csrw ha h0 h, writeCsr_ignored _ v hr]

/-- Settles O14: the words of a view, joined, are what it shows. -/
theorem resultRegistersShowTheState : Obligations.ResultRegistersShowTheState := by
  intro s
  have words (x : F64) : hiWord x ++ loWord x = x := f64OfWords_words x
  have signed (c : BitVec 16) : (c.signExtend 32).toInt = c.toInt :=
    BitVec.toInt_signExtend_of_le (by decide)
  refine ⟨words _, words _, words _, words _, words _, ?_, rfl, fun h => ?_,
    BitVec.toNat_setWidth_of_le (by decide), BitVec.toNat_setWidth_of_le (by decide),
    BitVec.toNat_setWidth_of_le (by decide), signed _, signed _,
    BitVec.toNat_setWidth_of_le (by decide), signed _, signed _, signed _, signed _, signed _,
    signed _, signed _, signed _⟩
  · show rdataWord s.rdata 5 ++ rdataWord s.rdata 4 ++ rdataWord s.rdata 3 ++
      rdataWord s.rdata 2 ++ rdataWord s.rdata 1 ++ rdataWord s.rdata 0 = s.rdata
    unfold rdataWord
    simp only [BitVec.extractLsb'_append_extractLsb'_eq_extractLsb']
    exact BitVec.extractLsb'_eq_self
  · show (pollcntView s.pollcnt).toNat = s.pollcnt
    rw [pollcntView, if_pos h, BitVec.toNat_ofNat, Nat.mod_eq_of_lt h]

end Sys2Proof.Machine

/-!
Host accesses, and the bytes of a sensor register (20_memory.md rules R61, R62, R64, R65, R68;
30_encoding.md rule R101; 60_exceptions.md rule R270).
-/

namespace Sys2Proof.Machine

/-! ### Refused accesses -/

/-- An access of another width is not admitted, at any offset. -/
theorem accessRefusal_of_ne_word (off : Byte) {width : AccessWidth} (h : width ≠ .word) :
    accessRefusal off width = some .hostAccessWidth := by
  cases width
  case word => contradiction
  all_goals rfl

/-- A 32-bit access is not admitted where its offset is no multiple of 4. -/
theorem accessRefusal_word_of_misaligned {off : Byte} (h : off.toNat % 4 ≠ 0) :
    accessRefusal off .word = some .hostAccessMisaligned :=
  if_neg h

/-- An access that is not admitted is of another width or misaligned. -/
theorem not_admitted_of_accessRefusal {off : Byte} {width : AccessWidth} {r : Refusal}
    (h : accessRefusal off width = some r) : width ≠ .word ∨ off.toNat % 4 ≠ 0 := by
  by_contra! hc
  obtain ⟨rfl, ha⟩ := hc
  simp [accessRefusal, ha] at h

/-- The host's next move is an access at `off` of that width, a read or a write. -/
def State.Access (s : State) (off : Byte) (width : AccessWidth) (rest : List HostOp) : Prop :=
  s.host = .csrr off width :: rest ∨ ∃ v, s.host = .csrw off width v :: rest

section Refused

variable {s : State} {off : Byte} {width : AccessWidth} {rest : List HostOp} {r : Refusal}

/-- An access that is not admitted is refused, and the block does nothing. -/
theorem step_of_accessRefusal (h : s.Access off width rest)
    (hr : accessRefusal off width = some r) : step s = .refused r := by
  rcases h with h | ⟨v, h⟩ <;> simp [step, nextMove, h, hr]

/-- The only move that is refused is an access that is not admitted. -/
theorem nextMove_refused (h : nextMove s = .refused r) :
    ∃ off width rest, s.Access off width rest ∧ accessRefusal off width = some r := by
  unfold nextMove sequencerTurn at h
  split at h
  case h_5 off width rest hs =>
    split at h
    · injection h with h
      subst h
      exact ⟨off, width, rest, .inl hs, by assumption⟩
    · cases h
  case h_6 off width v rest hs =>
    split at h
    · injection h with h
      subst h
      exact ⟨off, width, rest, .inr ⟨v, hs⟩, by assumption⟩
    · unfold hostWrite at h
      split at h
      · split at h <;> cases h
      · cases h
  case h_4 => cases h
  all_goals split at h <;> cases h

/-- A running command is never refused. -/
theorem runCommand_ne_refused (s : State) (r : Refusal) : runCommand s ≠ .refused r := by
  unfold runCommand
  split
  case h_1 i hd =>
    rcases exec_cases i s with ⟨t, ht, -⟩ | ⟨hf, -⟩
    · rw [ht]
      nofun
    · rw [hf]
      nofun
  case h_2 => nofun

/-- A step is refused only where its move is. -/
theorem nextMove_of_step_refused (h : step s = .refused r) : nextMove s = .refused r := by
  unfold step at h
  split at h
  case h_1 => cases h
  case h_2 => exact absurd h (runCommand_ne_refused _ r)
  case h_3 hm =>
    injection h with h
    rw [hm, h]

end Refused

/-- Settles O9: the machine refuses the host's move alone, and only by `accessRefusal`. -/
theorem onlyUnadmittedAccessesAreRefused : Obligations.OnlyUnadmittedAccessesAreRefused := by
  refine ⟨fun s off width rest h => ⟨fun hw => ?_, fun hw ha => ?_⟩, fun s r h => ?_⟩
  · exact step_of_accessRefusal h (accessRefusal_of_ne_word off hw)
  · subst hw
    exact step_of_accessRefusal h (accessRefusal_word_of_misaligned ha)
  · obtain ⟨off, width, rest, hs, hr⟩ := nextMove_refused (nextMove_of_step_refused h)
    exact ⟨off, width, rest, hs, not_admitted_of_accessRefusal hr⟩

/-! ### Admitted reads -/

section Read

variable {s : State} {off : Byte} {rest : List HostOp}

/-- An aligned read of a word is one step, and only the read log takes it. -/
theorem step_csrr (ha : off.toNat % 4 = 0) (h : s.host = .csrr off .word :: rest) :
    step s = .next (hostRead { s with host := rest } off) :=
  step_of_made (by simp [nextMove, h, accessRefusal, ha])

/-- Two steps of the machine. -/
theorem core_run_two {t u : State} (ht : step s = .next t) (hu : step t = .next u) :
    Host.Core.run Sys2Proof.core 2 s = .next u := by
  have ht : Sys2Proof.core.step s = .next t := ht
  have hu : Sys2Proof.core.step t = .next u := hu
  simp only [Host.Core.run, ht, hu]

/-- The two reads of `read64` record the words that the pair shows before the first of them: what a
register shows does not depend on the host's list or on what the host has read. -/
theorem run_read64Op {lo : Byte} (hlo : lo.toNat % 4 = 0) (hhi : (lo + 4).toNat % 4 = 0)
    (h : s.host = read64Op lo ++ rest) : Host.Core.run Sys2Proof.core 2 s = .next { s with
      host := rest
      readLog := (lo + 4, s.readCsr (lo + 4)) :: (lo, s.readCsr lo) :: s.readLog } :=
  core_run_two (step_csrr hlo h) (step_csrr hhi rfl)

/-- The words of a binary64 value, read in the order of `read64`, give the value. -/
theorem read64Value_words (lo : Byte) (x : F64) (log : List (Byte × Word)) :
    read64Value lo ((lo + 4, hiWord x) :: (lo, loWord x) :: log) = some x := by
  simp [read64Value]

/-- The result registers are aligned pairs, each showing the two words of its value
(10_state.md rule R21, 20_memory.md rule R64). -/
theorem readCsr_pair {lo : Byte} {x : F64} (h : (lo, x) ∈ [((0x48 : Byte), s.temp),
    (0x50, s.pres), (0x58, s.alt), (0x60, s.res), (0x68, s.tfine)]) :
    lo.toNat % 4 = 0 ∧ (lo + 4).toNat % 4 = 0 ∧
      s.readCsr lo = loWord x ∧ s.readCsr (lo + 4) = hiWord x := by
  simp only [List.mem_cons, List.not_mem_nil, or_false, Prod.mk.injEq] at h
  rcases h with ⟨rfl, rfl⟩ | ⟨rfl, rfl⟩ | ⟨rfl, rfl⟩ | ⟨rfl, rfl⟩ | ⟨rfl, rfl⟩ <;>
    exact ⟨rfl, rfl, rfl, rfl⟩

end Read

/-- Settles O10: a read changes the host's side alone, so the second read of a pair meets the state
of the first. -/
theorem hostReadHasNoSideEffect : Obligations.HostReadHasNoSideEffect := by
  refine ⟨fun s off rest ha h => step_csrr ha h, fun s lo x rest hx h => ?_⟩
  obtain ⟨hlo, hhi, hl, hh⟩ := readCsr_pair hx
  refine ⟨_, run_read64Op hlo hhi h, ?_, rfl⟩
  rw [hl, hh]
  exact read64Value_words lo x _

/-! ### Byte order -/

/-- The last byte of a register enters below the others. -/
theorem assemble_concat (b : List Byte) (x : Byte) :
    assemble (b ++ [x]) = (assemble b <<< 8) ||| x.setWidth 192 := by
  simp [assemble]

/-- The last byte sent is the low byte. -/
theorem bytesOf_succ (n : Nat) (raw : Raw) :
    bytesOf (n + 1) raw = bytesOf n (raw >>> 8) ++ [byte0 raw] := by
  simp only [bytesOf, List.range_succ, List.map_append, List.map_singleton]
  congr 1
  · refine List.map_congr_left fun i hi => ?_
    have hi := List.mem_range.1 hi
    ext j hj
    simp only [BitVec.getElem_extractLsb', BitVec.getLsbD_ushiftRight]
    congr 1
    omega
  · simp [byte0]

/-- The last byte is the low byte of the value. -/
theorem byte0_assemble_concat (b : List Byte) (x : Byte) : byte0 (assemble (b ++ [x])) = x := by
  rw [assemble_concat]
  ext j hj
  have : j < 192 := by omega
  simp [byte0, hj, this]

/-- The bytes before the last one are each one place higher than without it. -/
theorem extractLsb'_assemble_concat (b : List Byte) (x : Byte) {k : Nat} (hk : k + 1 < 24) :
    (assemble (b ++ [x])).extractLsb' (8 * (k + 1)) 8 = (assemble b).extractLsb' (8 * k) 8 := by
  rw [assemble_concat]
  ext j hj
  have hlt : 8 * (k + 1) + j < 192 := by omega
  have hge : ¬ 8 * (k + 1) + j < 8 := by omega
  have hsub : 8 * (k + 1) + j - 8 = 8 * k + j := by omega
  have hx : x.getLsbD (8 * (k + 1) + j) = false := BitVec.getLsbD_of_ge _ _ (by omega)
  simp [hlt, hge, hsub, hx, BitVec.getLsbD_eq_getElem (show 8 * k + j < 192 by omega)]

/-- The byte with `k` bytes after it is byte `k` of the value, counted from its low end. -/
theorem extractLsb'_assemble (b : List Byte) (hb : b.length ≤ 24) {i k : Nat}
    (h : i + k + 1 = b.length) : (assemble b).extractLsb' (8 * k) 8 = b[i] := by
  induction b using List.reverseRecOn generalizing k with
  | nil => simp at h
  | append_singleton b x ih =>
    rw [List.length_append, List.length_singleton] at hb h
    cases k with
    | zero =>
      obtain rfl : i = b.length := by omega
      rw [List.getElem_concat_length rfl]
      exact byte0_assemble_concat b x
    | succ k =>
      rw [extractLsb'_assemble_concat b x (by omega), List.getElem_append_left (by omega)]
      exact ih (by omega) (by omega)

/-- The value of `n` bytes has `8n` bits. -/
theorem assemble_toNat_lt (b : List Byte) : (assemble b).toNat < 2 ^ (8 * b.length) := by
  induction b using List.reverseRecOn with
  | nil => decide
  | append_singleton b x ih =>
    rw [assemble_concat, BitVec.toNat_or, List.length_append, List.length_singleton]
    have hpow : 2 ^ (8 * (b.length + 1)) = 2 ^ (8 * b.length) * 2 ^ 8 := pow_add 2 (8 * b.length) 8
    refine Nat.or_lt_two_pow ?_ ?_
    · calc (assemble b <<< 8).toNat
          ≤ (assemble b).toNat * 256 := by
            rw [BitVec.toNat_shiftLeft, Nat.shiftLeft_eq]
            exact Nat.mod_le _ _
        _ < 2 ^ (8 * (b.length + 1)) := by omega
    · calc (x.setWidth 192).toNat
          ≤ x.toNat := by
            rw [BitVec.toNat_setWidth]
            exact Nat.mod_le _ _
        _ < 2 ^ (8 * (b.length + 1)) :=
          x.isLt.trans_le (Nat.pow_le_pow_right (by decide) (by omega))

/-- The bytes of a register value, from the first one sent. -/
theorem getElem?_bytesOf (n : Nat) (raw : Raw) {i : Nat} (h : i < n) :
    (bytesOf n raw)[i]? = some (raw.extractLsb' (8 * (n - 1 - i)) 8) := by
  simp [bytesOf, h]

/-- Bytes are sent as they were assembled. -/
theorem bytesOf_assemble (b : List Byte) (hb : b.length ≤ 24) :
    bytesOf b.length (assemble b) = b := by
  refine List.ext_getElem (bytesOf_length _ _) fun i _ h => ?_
  rw [← extractLsb'_assemble b hb (k := b.length - 1 - i) (by omega)]
  simp [bytesOf]

/-- A value is its other bytes above its low one. -/
theorem shiftLeft_or_byte0 (raw : Raw) :
    ((raw >>> 8) <<< 8) ||| (byte0 raw).setWidth 192 = raw := by
  ext j hj
  by_cases h : j < 8
  · simp [byte0, h, BitVec.getLsbD_eq_getElem hj]
  · have hsub : 8 + (j - 8) = j := by omega
    simp [byte0, h, hsub, BitVec.getLsbD_eq_getElem hj]

/-- A value is assembled as its bytes were sent. -/
theorem assemble_bytesOf (n : Nat) (raw : Raw) (h : raw.toNat < 2 ^ (8 * n)) :
    assemble (bytesOf n raw) = raw := by
  induction n generalizing raw with
  | zero =>
    have h0 : raw = 0 := BitVec.eq_of_toNat_eq (by simpa using h)
    rw [h0]
    rfl
  | succ n ih =>
    have hn : (raw >>> 8).toNat < 2 ^ (8 * n) := by
      rw [BitVec.toNat_ushiftRight, Nat.shiftRight_eq_div_pow]
      have hpow : 2 ^ (8 * (n + 1)) = 2 ^ (8 * n) * 2 ^ 8 := pow_add 2 (8 * n) 8
      omega
    rw [bytesOf_succ, assemble_concat, ih _ hn, shiftLeft_or_byte0]

/-- Settles O26, by adding the bytes at the low end. -/
theorem registerByteOrder : Obligations.RegisterByteOrder :=
  ⟨fun b hb => ⟨fun _ _ => extractLsb'_assemble b hb (by omega), assemble_toNat_lt b,
    bytesOf_assemble b hb⟩, fun n raw _ => getElem?_bytesOf n raw,
    fun n raw _ => assemble_bytesOf n raw⟩

end Sys2Proof.Machine

/-!
The opcode map, its decoder and its encoder (30_encoding.md rules R90 to R99), and the step that
decodes an illegal word (60_exceptions.md rule R262).
-/

namespace Sys2Proof

/-! ### The rows of the opcode map -/

/-- The list of the rows holds every row. -/
theorem Opcode.mem_all (op : Opcode) : op ∈ Opcode.all := by cases op <;> decide

/-- A row selects a word by the mask and the pattern of the map. -/
theorem Opcode.selects_iff {op : Opcode} {w : Word} :
    op.selects w = true ↔ w &&& op.mask = op.pattern := beq_iff_eq

/-- Every mask covers `OPC`, so a row selects words of its own opcode only. -/
theorem opcOf_of_selects {op : Opcode} {w : Word} (h : op.selects w = true) :
    opcOf w = opcOf op.pattern := by
  have hmask : opcOf op.mask = BitVec.allOnes 8 := by cases op <;> rfl
  calc opcOf w
      = opcOf w &&& opcOf op.mask := by rw [hmask, BitVec.and_allOnes]
    _ = opcOf (w &&& op.mask) := BitVec.extractLsb'_and.symm
    _ = opcOf op.pattern := by rw [Opcode.selects_iff.mp h]

/-- No two rows have the same opcode. -/
theorem opcOf_pattern_injective : Function.Injective fun op : Opcode => opcOf op.pattern := by
  have hrows : ∀ a ∈ Opcode.all, ∀ b ∈ Opcode.all,
      opcOf a.pattern = opcOf b.pattern → a = b := by decide
  exact fun a b h => hrows a a.mem_all b b.mem_all h

/-- Settles O3: the opcode of the word names the row. -/
theorem opcodeRowsAreDisjoint : Obligations.OpcodeRowsAreDisjoint := fun _ _ _ ha hb =>
  opcOf_pattern_injective ((opcOf_of_selects ha).symm.trans (opcOf_of_selects hb))

/-! ### The decoder -/

/-- The decoder reads the operand of the row that selects the word, whichever comes first. -/
theorem decode_of_selects {op : Opcode} {w : Word} (h : op.selects w = true) :
    decode w = op.operands w := by
  unfold decode
  split
  case h_1 op' hf =>
    have hsel : op'.selects w = true := by simpa using List.find?_some hf
    rw [opcodeRowsAreDisjoint w op' op hsel h]
  case h_2 hf => exact absurd h (List.find?_eq_none.mp hf op op.mem_all)

/-- A word that no row selects is illegal. -/
theorem decode_of_unmatched {w : Word} (h : ∀ op : Opcode, op.selects w = false) :
    decode w = .error (rejectUnmatched w) := by
  have hf : Opcode.all.find? (fun op => op.selects w) = none :=
    List.find?_eq_none.mpr fun op _ => by simp [h op]
  rw [decode, hf]

/-- Either no row selects a word or one does. -/
theorem unmatched_or_selects (w : Word) :
    (∀ op : Opcode, op.selects w = false) ∨ ∃ op : Opcode, op.selects w = true := by
  by_cases h : ∃ op : Opcode, op.selects w = true
  · exact .inr h
  · exact .inl fun op => Bool.eq_false_iff.mpr fun hop => h ⟨op, hop⟩

/-- A legal word is selected by a row, which reads its operand. -/
theorem selects_of_decode_ok {w : Word} {i : Instr} (h : decode w = .ok i) :
    ∃ op : Opcode, op.selects w = true ∧ op.operands w = .ok i := by
  rcases unmatched_or_selects w with hn | ⟨op, hop⟩
  · rw [decode_of_unmatched hn] at h
    cases h
  · exact ⟨op, hop, (decode_of_selects hop).symm.trans h⟩

/-! ### From a command to its word and back -/

/-- A value put below the bits of a pattern is read back. -/
theorem extractLsb'_or_setWidth {n : Nat} (hn : n ≤ 32) {p : Word} (x : BitVec n)
    (hp : p.extractLsb' 0 n = 0) : (p ||| x.setWidth 32).extractLsb' 0 n = x := by
  rw [BitVec.extractLsb'_or, hp, BitVec.extractLsb'_setWidth_of_le (by omega),
    BitVec.extractLsb'_eq_self]
  exact BitVec.zero_or

/-- The row of a command selects the command's word. -/
theorem selects_encode {i : Instr} (h : i.wf = true) : i.opcode.selects (encode i) = true := by
  cases i with
  | selectAddress a7 => exact Laws.EncodeSelectsRow.selectAddress a7 h
  | regRead reg => exact Laws.EncodeSelectsRow.regRead reg h
  | regWrite reg => exact Laws.EncodeSelectsRow.regWrite reg h
  | fieldRead fld => exact Laws.EncodeSelectsRow.fieldRead fld h
  | fieldWrite fld => exact Laws.EncodeSelectsRow.fieldWrite fld h
  | setup => exact Laws.EncodeSelectsRow.setup h
  | update => exact Laws.EncodeSelectsRow.update h
  | getTemperature => exact Laws.EncodeSelectsRow.getTemperature h
  | getPressure => exact Laws.EncodeSelectsRow.getPressure h
  | getAltitude manual => exact Laws.EncodeSelectsRow.getAltitude manual h
  | compT => exact Laws.EncodeSelectsRow.compT h
  | compP => exact Laws.EncodeSelectsRow.compP h

/-- The row of a command reads the command's operand from its word. -/
theorem operands_encode {i : Instr} (h : i.wf = true) :
    i.opcode.operands (encode i) = .ok i := by
  have reg (p : Word) (r : BitVec 3) (hp : p.extractLsb' 0 3 = 0) :=
    extractLsb'_or_setWidth (by decide) r hp
  have fld (p : Word) (f : BitVec 5) (hp : p.extractLsb' 0 5 = 0) :=
    extractLsb'_or_setWidth (by decide) f hp
  cases i with
  | selectAddress a7 =>
    have a := extractLsb'_or_setWidth (p := Opcode.pattern .selectAddress) (by decide) a7 rfl
    exact congrArg (fun a => Except.ok (Instr.selectAddress a)) a
  | regRead r | regWrite r =>
    have h : regOperandOk r = true := h
    simp [Instr.opcode, Opcode.operands, encode, Instr.operandWord, Opcode.pattern, reg, h]
  | fieldRead f | fieldWrite f =>
    have h : fldOperandOk f = true := h
    simp [Instr.opcode, Opcode.operands, encode, Instr.operandWord, Opcode.pattern, fld, h]
  | getAltitude manual => cases manual <;> rfl
  | setup | update | getTemperature | getPressure | compT | compP => rfl

/-- Settles O1: the row of the command selects its word and reads its operand. -/
theorem encodeThenDecode : Obligations.EncodeThenDecode := fun _ h =>
  (decode_of_selects (selects_encode h)).trans (operands_encode h)

/-- What a row reads from a word is a well-formed command of that row, whose operand is all the
bits of the word outside the row's mask. -/
theorem of_operands_ok {op : Opcode} {w : Word} {i : Instr} (h : op.operands w = .ok i) :
    i.opcode = op ∧ i.operandWord = w &&& ~~~op.mask ∧ i.wf = true := by
  have bits (n : Nat) (m : Word) := Machine.setWidth_extractLsb' n w m
  cases op with
  | selectAddress =>
    cases h
    exact ⟨rfl, bits 7 _ (by decide), rfl⟩
  | regRead | regWrite =>
    simp only [Opcode.operands] at h
    split at h
    case isTrue hok =>
      cases h
      exact ⟨rfl, bits 3 _ (by decide), hok⟩
    case isFalse => cases h
  | fieldRead | fieldWrite =>
    simp only [Opcode.operands] at h
    split at h
    case isTrue hok =>
      cases h
      exact ⟨rfl, bits 5 _ (by decide), hok⟩
    case isFalse => cases h
  | getAltitude =>
    cases h
    refine ⟨rfl, ?_, rfl⟩
    have hbit : w &&& ~~~Opcode.mask .getAltitude = (BitVec.ofBool (w.getLsbD 0)).setWidth 32 :=
      BitVec.and_one_eq_setWidth_ofBool_getLsbD
    rw [hbit]
    cases w.getLsbD 0 <;> rfl
  | setup | update | getTemperature | getPressure | compT | compP =>
    cases h
    exact ⟨rfl, BitVec.and_zero.symm, rfl⟩

/-- Settles O2: the bits of the mask come back from the row, and the others from the operand. -/
theorem decodeThenEncode : Obligations.DecodeThenEncode := by
  intro w i h
  obtain ⟨op, hsel, hops⟩ := selects_of_decode_ok h
  obtain ⟨rfl, hword, hwf⟩ := of_operands_ok hops
  refine ⟨?_, hwf⟩
  calc encode i
      = w &&& i.opcode.mask ||| w &&& ~~~i.opcode.mask := by
        rw [Opcode.selects_iff.mp hsel, ← hword, encode]
    _ = w := by rw [← BitVec.and_or_distrib_left, BitVec.or_not_self, BitVec.and_allOnes]

/-- Settles O4: each of these words is the encoding of its command. -/
theorem specWordsDecode : Obligations.SpecWordsDecode :=
  ⟨encodeThenDecode (.selectAddress 0x76) rfl, encodeThenDecode (.regRead 4) rfl,
    encodeThenDecode (.regWrite 2) rfl, encodeThenDecode (.fieldRead 22) rfl,
    encodeThenDecode (.fieldWrite 7) rfl, encodeThenDecode .setup rfl, encodeThenDecode .update rfl,
    encodeThenDecode .getTemperature rfl, encodeThenDecode .getPressure rfl,
    encodeThenDecode (.getAltitude false) rfl, encodeThenDecode (.getAltitude true) rfl,
    encodeThenDecode .compT rfl, encodeThenDecode .compP rfl⟩

/-! ### Illegal words -/

/-- A `REG` operand is refused from 6 on. -/
theorem regOperandOk_eq_false {reg : BitVec 3} : regOperandOk reg = false ↔ 5 < reg.toNat := by
  simp [regOperandOk, BitVec.lt_def]

/-- An `FLD` operand is refused from 23 on. -/
theorem fldOperandOk_eq_false {fld : BitVec 5} : fldOperandOk fld = false ↔ 22 < fld.toNat := by
  simp [fldOperandOk, BitVec.lt_def]

/-- The row reads an operand of the word that names no table entry (30_encoding.md rule R95). -/
def Opcode.RefusesOperand (op : Opcode) (w : Word) : Prop :=
  ((op = .regRead ∨ op = .regWrite) ∧ 5 < (w.extractLsb' 0 3).toNat) ∨
  ((op = .fieldRead ∨ op = .fieldWrite) ∧ 22 < (w.extractLsb' 0 5).toNat)

/-- A row refuses the operands that name no table entry and no others. -/
theorem operands_error_iff {op : Opcode} {w : Word} :
    (∃ e, op.operands w = .error e) ↔ op.RefusesOperand w := by
  cases op with
  | regRead | regWrite =>
    simp [Opcode.operands, Opcode.RefusesOperand, ← regOperandOk_eq_false, ite_eq_iff,
      -BitVec.extractLsb'_toNat]
  | fieldRead | fieldWrite =>
    simp [Opcode.operands, Opcode.RefusesOperand, ← fldOperandOk_eq_false, ite_eq_iff,
      -BitVec.extractLsb'_toNat]
  | selectAddress | setup | update | getTemperature | getPressure | getAltitude | compT | compP =>
    simp [Opcode.operands, Opcode.RefusesOperand]

/-- A word is illegal where no row selects it, or the one that does refuses its operand. -/
theorem decode_error_iff {w : Word} :
    (∃ e, decode w = .error e) ↔ (∀ op : Opcode, op.selects w = false) ∨
      ∃ op : Opcode, op.selects w = true ∧ op.RefusesOperand w := by
  constructor
  · intro h
    refine (unmatched_or_selects w).imp_right fun ⟨op, hop⟩ => ⟨op, hop, ?_⟩
    rwa [decode_of_selects hop, operands_error_iff] at h
  · rintro (hn | ⟨op, hop, hr⟩)
    · exact ⟨_, decode_of_unmatched hn⟩
    · rwa [decode_of_selects hop, operands_error_iff]

end Sys2Proof

namespace Sys2Proof.Machine

/-- The `ERRINFO` record of an error that concerns no transaction holds the opcode alone. -/
theorem errinfoOf_none (opc : Byte) : errinfoOf opc 0 none = opc ++ (0 : BitVec 24) := by
  apply BitVec.eq_of_toNat_eq
  simp only [errinfoOf, BitVec.toNat_append]
  simp [← Nat.shiftLeft_add]

/-- What `raise ILLEGAL_COMMAND` writes. -/
theorem raise_illegalCommand (s : State) :
    s.raise .illegalCommand =
      { s with
        errinfo := s.lcmd.extractLsb' 24 8 ++ (0 : BitVec 24)
        errcode := some .illegalCommand
        err := true
        done := true
        perr := true
        seq := .idle } := by
  simp only [State.raise, State.raiseWith, errinfoOf_none, Err.setsPerr, Bool.or_true]

/-- An illegal word raises `ILLEGAL_COMMAND`. -/
theorem runCommand_of_error {s : State} {e : DecodeError} (h : decode s.lcmd = .error e) :
    runCommand s = .next (s.raise .illegalCommand) := by
  simp [runCommand, h]

/-- A write of `CMD` starts a command in an idle block. -/
theorem nextMove_csrw_cmd {s : State} {w : Word} {rest : List HostOp} (hs : s.seq = .idle)
    (h : s.host = .csrw 0x00 .word w :: rest) :
    nextMove s = .command ({ s with host := rest }.accept w) := by
  have hidle : { s with host := rest }.busy = false := s.busy_of_idle hs
  simp [nextMove_csrw rfl h, hostWrite, hidle]

/-- Settles O5: the rows refuse the operands that R95 names, and acceptance and the raise write all
that the step writes. -/
theorem illegalWordRaisesIllegalCommand : Obligations.IllegalWordRaisesIllegalCommand := by
  refine ⟨fun w => ?_, fun w i h => (decodeThenEncode w i h).2, fun s w e rest hh hs hd => ?_⟩
  · rw [decode_error_iff]
    simp [Opcode.RefusesOperand, and_or_left, or_and_right, exists_or]
  · rw [step_of_command (nextMove_csrw_cmd hs hh), runCommand_of_error (e := e) hd,
      raise_illegalCommand]
    rfl

end Sys2Proof.Machine

/-!
The codecs and the field commands (40_register_map_codec.md rules R121 to R136).
-/

namespace Sys2Proof.Machine

/-! ### `SignedFromUnsigned` -/

/-- The signed value of a code is its two's complement. -/
theorem signed16_eq_toInt (c : BitVec 16) : signed16 c = c.toInt := by
  rw [BitVec.toInt_eq_msb_cond, BitVec.msb_eq_getLsbD_last]
  rfl

/-- A value in range encodes to its two's complement. -/
theorem encodeSigned16_of_mem {v : Int} (h : -32768 ≤ v ∧ v ≤ 32767) :
    encodeSigned16 v = .ok (BitVec.ofInt 16 v) := by
  have hbits : BitVec.ofNat 16 (v % 65536).toNat = BitVec.ofInt 16 v := by
    apply BitVec.eq_of_toNat_eq
    rw [BitVec.toNat_ofNat, BitVec.toNat_ofInt]
    omega
  rw [encodeSigned16, if_pos h, hbits]

/-- Settles O28: decode and encode are the two's complement of the library. -/
theorem signedFromUnsignedCodec : Obligations.SignedFromUnsignedCodec := by
  refine ⟨rfl, rfl, rfl, rfl, signed16_eq_toInt, fun c => ?_, fun v hlo hhi => ?_, fun v h => ?_⟩
  · have hlo : -32768 ≤ c.toInt := BitVec.le_toInt c
    have hhi : c.toInt < 32768 := BitVec.toInt_lt
    rw [signed16_eq_toInt, encodeSigned16_of_mem (by omega), BitVec.ofInt_toInt]
  · refine ⟨_, encodeSigned16_of_mem ⟨hlo, hhi⟩, ?_⟩
    rw [BitVec.toNat_ofInt]
    omega
  · exact if_neg (by omega)

/-! ### `RawUnsigned` and the fit check -/

/-- A code below `2^width` fits. -/
theorem fitCheck_of_lt {mask : Raw} {code : Nat} (h : code < 2 ^ maskWidth mask) :
    fitCheck mask code = .ok code := if_pos h

/-- A code from `2^width` on does not fit. -/
theorem fitCheck_of_le {mask : Raw} {code : Nat} (h : 2 ^ maskWidth mask ≤ code) :
    fitCheck mask code = .error .fieldOverflow := if_neg (by omega)

/-- A `RawUnsigned` value is its own code. -/
theorem encodeField_rawUnsigned (p : Params) {d : Field} (v : Word) (h : d.codec = .rawUnsigned) :
    encodeField p d v = fitCheck d.mask v.toNat := by
  rw [encodeField, h]

/-- Settles O24: a `RawUnsigned` field encodes by the fit check, and 32 bits hold a code below
`2^32`. -/
theorem rawFieldFitCheck : Obligations.RawFieldFitCheck := by
  refine ⟨fun mask code => ⟨fitCheck_of_lt, fitCheck_of_le⟩, fun p c hc => ⟨_, rfl, ?_⟩,
    fun p d v hd => ?_⟩
  · rw [BitVec.toNat_setWidth, Nat.mod_eq_of_lt hc]
  · rw [encodeField_rawUnsigned p v hd]
    exact ⟨fitCheck_of_lt, fitCheck_of_le⟩

/-! ### `Lookup` -/

/-- Where no two rows have the same key, a search by the key of a row finds that row. -/
theorem find?_key_of_nodup {rows : List (Nat × Nat)} {key : Nat × Nat → Nat} {r : Nat × Nat}
    (hn : (rows.map key).Nodup) (hr : r ∈ rows) :
    rows.find? (fun x => key x == key r) = some r := by
  obtain ⟨x, hx⟩ := Option.isSome_iff_exists.1
    (List.find?_isSome (p := fun x => key x == key r).2 ⟨r, hr, beq_self_eq_true _⟩)
  have hkey : key x = key r := by simpa using List.find?_some hx
  rw [hx, List.inj_on_of_nodup_map hn (List.mem_of_find?_eq_some hx) hr hkey]

/-- No two rows of a table have the same symbol. -/
theorem nodup_symbols (l : Lookup) (t : Table) : ((t.rows l).map Prod.fst).Nodup := by
  cases t with
  | mode => exact (by decide : [0, 1, 2].Nodup)
  | osrs => exact (by decide : [1, 2, 4, 8, 16].Nodup)
  | tsb => exact (by decide : [1, 125, 250, 500, 1000, 2000, 4000, 8000].Nodup)

/-- No two rows of a table of the admissible parameters have the same code. -/
theorem nodup_codes {l : Lookup} (h : l.wf = true) (t : Table) :
    ((t.rows l).map Prod.snd).Nodup := by
  simp only [Lookup.wf, Bool.and_eq_true, decide_eq_true_eq] at h
  obtain ⟨⟨hmode, hosrs⟩, htsb⟩ := h
  cases t with
  | mode => exact hmode
  | osrs => exact hosrs
  | tsb => exact htsb

/-- A symbol of a table encodes to its code. -/
theorem lookupEncode_of_mem {l : Lookup} {t : Table} {r : Nat × Nat} (hr : r ∈ t.rows l) :
    lookupEncode (t.rows l) r.1 = some r.2 := by
  rw [lookupEncode, find?_key_of_nodup (key := Prod.fst) (nodup_symbols l t) hr, Option.map_some]

/-- A listed code decodes to its symbol. -/
theorem lookupDecode_of_mem {l : Lookup} (h : l.wf = true) {t : Table} {r : Nat × Nat}
    (hr : r ∈ t.rows l) : lookupDecode (t.rows l) r.2 = some r.1 := by
  rw [lookupDecode, find?_key_of_nodup (key := Prod.snd) (nodup_codes h t) hr, Option.map_some]

/-- A value that is no symbol has no code. -/
theorem lookupEncode_eq_none {rows : List (Nat × Nat)} {v : Nat} (h : ∀ r ∈ rows, r.1 ≠ v) :
    lookupEncode rows v = none := by
  simpa [lookupEncode] using h

/-- An unlisted code has no symbol. -/
theorem lookupDecode_eq_none {rows : List (Nat × Nat)} {c : Nat} (h : ∀ r ∈ rows, r.2 ≠ c) :
    lookupDecode rows c = none := by
  simpa [lookupDecode] using h

/-- The bits of a code of the table (40_register_map_codec.md rule R127). -/
def Table.codeWidth : Table → Nat
  | .mode => 2
  | .osrs => 3
  | .tsb => 3

/-- Every listed code has the bits of its table. -/
theorem code_lt_of_mem {l : Lookup} {t : Table} {r : Nat × Nat} (hr : r ∈ t.rows l) :
    r.2 < 2 ^ t.codeWidth := by
  cases t
  all_goals
    simp only [Table.rows, Lookup.modeRows, Lookup.osrsRows, Lookup.tsbRows, List.mem_cons,
      List.not_mem_nil, or_false] at hr
    rcases hr with rfl | rfl | rfl | rfl | rfl | rfl | rfl | rfl <;> exact BitVec.isLt _

/-- A field of a table is as wide as the codes of the table. -/
theorem maskWidth_of_lookup {d : Field} {t : Table} (hd : d ∈ fieldTable)
    (h : d.codec = .lookup t) : maskWidth d.mask = t.codeWidth := by
  revert d
  cases t with
  | mode => decide
  | osrs => decide
  | tsb => decide

/-- Settles O23: symbols and listed codes are keys of their rows, and no code is wider than the
fields of its table. -/
theorem lookupRoundTrip : Obligations.LookupRoundTrip := by
  intro p t h
  refine ⟨fun r hr => ⟨lookupEncode_of_mem hr, lookupDecode_of_mem h hr⟩, fun c r hr hc => ?_,
    fun c hc => ?_, fun d v hd hv => ?_, fun d v code hmem hd hr => ?_⟩
  · simp only [decodeField, ← hc, lookupDecode_of_mem h hr]
  · simp only [decodeField, lookupDecode_eq_none hc]
  · simp only [encodeField, hd, lookupEncode_eq_none hv]
  · have hcode : code < 2 ^ maskWidth d.mask := by
      rw [maskWidth_of_lookup hmem hd]
      exact code_lt_of_mem hr
    simp only [encodeField, hd, lookupEncode_of_mem hr, fitCheck_of_lt hcode]

/-! ### The field table and merging -/

/-- Every mask of the field table is one run of ones inside its register. -/
theorem mask_of_mem_fieldTable : ∀ d ∈ fieldTable, d.mask.toNat < 2 ^ d.reg.width ∧
    d.mask.toNat = (2 ^ maskWidth d.mask - 1) * 2 ^ maskLsb d.mask := by
  decide +kernel

/-- No two fields of a register share a bit. -/
theorem pairwise_disjoint_masks :
    fieldTable.Pairwise fun a b => a.reg = b.reg → a.mask &&& b.mask = 0 := by
  decide

/-- Every field of the table is named by an `FLD` operand. -/
theorem exists_fieldAt_of_mem {d : Field} (h : d ∈ fieldTable) : ∃ fld, fieldAt fld = some d := by
  obtain ⟨i, hi, rfl⟩ := List.mem_iff_getElem.1 h
  have hlt : i < 23 := hi
  refine ⟨BitVec.ofNat 5 i, ?_⟩
  rw [fieldAt, BitVec.toNat_ofNat, Nat.mod_eq_of_lt (by omega)]
  exact List.getElem?_eq_getElem hi

/-- Where the mask is a run of ones, a code that fits has no bit whose place in the register is
outside the mask. -/
theorem testBit_eq_false_of_outside {m : Raw} {l w code j : Nat}
    (h : m.toNat = (2 ^ w - 1) * 2 ^ l) (hc : code < 2 ^ w) (hj : m.getLsbD (l + j) = false) :
    code.testBit j = false := by
  have hw : w ≤ j := by
    rw [← BitVec.testBit_toNat, h, Nat.testBit_mul_two_pow, Nat.testBit_two_pow_sub_one] at hj
    simpa using hj
  exact Nat.testBit_lt_two_pow (hc.trans_le (Nat.pow_le_pow_right (by decide) hw))

/-- The bits of a merged register: the old ones outside the mask, and those of the code from the
lowest bit of the mask on. -/
theorem getLsbD_mergeField (m old : Raw) (code : Nat) {i : Nat} (hi : i < 192) :
    (mergeField m old code).getLsbD i =
      (old.getLsbD i && !m.getLsbD i ||
        decide (maskLsb m ≤ i) && code.testBit (i - maskLsb m)) := by
  have hsub : i - maskLsb m < 192 := by omega
  simp only [mergeField, BitVec.getLsbD_or, BitVec.getLsbD_and, BitVec.getLsbD_not,
    BitVec.getLsbD_shiftLeft, BitVec.getLsbD_ofNat, hi, hsub, decide_true, Bool.true_and,
    ← decide_not, not_lt]

section Merge

variable {m old : Raw} {code : Nat} (hm : m.toNat = (2 ^ maskWidth m - 1) * 2 ^ maskLsb m)
  (hc : code < 2 ^ maskWidth m)

include hm hc

/-- A merge keeps every bit outside the mask. -/
theorem getLsbD_mergeField_outside {i : Nat} (hi : m.getLsbD i = false) :
    (mergeField m old code).getLsbD i = old.getLsbD i := by
  by_cases h192 : i < 192
  · rw [getLsbD_mergeField m old code h192, hi]
    by_cases hl : maskLsb m ≤ i
    · obtain ⟨j, rfl⟩ := Nat.exists_eq_add_of_le hl
      simp [testBit_eq_false_of_outside hm hc hi]
    · simp [hl]
  · rw [BitVec.getLsbD_of_ge _ _ (by omega), BitVec.getLsbD_of_ge _ _ (by omega)]

/-- A merge puts the code into the field. -/
theorem extractField_mergeField :
    extractField m (mergeField m old code) = BitVec.ofNat 192 code := by
  apply BitVec.eq_of_getLsbD_eq
  intro j hj
  rw [extractField, BitVec.getLsbD_ushiftRight, BitVec.getLsbD_and, BitVec.getLsbD_ofNat]
  cases hi : m.getLsbD (maskLsb m + j) with
  | false => simp [testBit_eq_false_of_outside hm hc hi]
  | true => simp [getLsbD_mergeField m old code (BitVec.lt_of_getLsbD hi), hi, hj]

end Merge

/-- Settles O25: the rows are those of the table, and every mask of it is a run of ones. -/
theorem mergeKeepsOtherFields : Obligations.MergeKeepsOtherFields := by
  refine ⟨by decide, fun p r => ?_, fun d => exists_fieldAt_of_mem, rfl, pairwise_disjoint_masks,
    mask_of_mem_fieldTable, fun d old code hd hc => ?_⟩
  · cases r <;> simp [RegId.base, RegId.bytes]
  · obtain ⟨-, hrun⟩ := mask_of_mem_fieldTable d hd
    exact ⟨extractField_mergeField hrun hc, fun i => getLsbD_mergeField_outside hrun hc⟩

/-! ### The field commands -/

section FieldCommands

variable {s : State} {fld : BitVec 5} {d : Field}

/-- `FIELD_READ` of no field is illegal. -/
theorem exec_fieldRead_none (h : fieldAt fld = none) :
    exec (.fieldRead fld) s = .next (s.raise .illegalCommand) := by
  simp only [exec_eq, progressOf, fieldReadStep, h, Progress.complete]

/-- The first step of `FIELD_READ`. -/
theorem exec_fieldRead_decode (hd : fieldAt fld = some d) (hs : s.seq = .run .decode) :
    exec (.fieldRead fld) s = (fieldReadStart s).complete id := by
  simp only [exec_eq, progressOf, resultOf, fieldReadStep, hd, hs]

/-- The second step of `FIELD_READ`. -/
theorem exec_fieldRead_fieldRead (hd : fieldAt fld = some d) (hs : s.seq = .run .fieldRead) :
    exec (.fieldRead fld) s =
      (memRead s (d.reg.base s.params) d.reg.bytes (fieldReadResult d)).complete id := by
  simp only [exec_eq, progressOf, resultOf, fieldReadStep, hd, hs]

/-- A code that does not decode ends `FIELD_READ` in the error. -/
theorem fieldReadResult_of_error {raw : Raw} {e : Err}
    (h : decodeField s.params d.codec (extractField d.mask raw) = .error e) :
    fieldReadResult d s raw = .ends (s.raise e) := by
  simp only [fieldReadResult, h]

/-- A decoded value goes to the data window. -/
theorem fieldReadResult_of_ok {raw : Raw} {v : Word}
    (h : decodeField s.params d.codec (extractField d.mask raw) = .ok v) :
    fieldReadResult d s raw = .returned { s with rdata := v.setWidth 192 } := by
  simp only [fieldReadResult, h]

/-- `FIELD_WRITE` of no field is illegal. -/
theorem exec_fieldWrite_none (h : fieldAt fld = none) :
    exec (.fieldWrite fld) s = .next (s.raise .illegalCommand) := by
  simp only [exec_eq, progressOf, fieldWriteStep, h, Progress.complete]

/-- The first step of `FIELD_WRITE`. -/
theorem exec_fieldWrite_decode (hd : fieldAt fld = some d) (hs : s.seq = .run .decode) :
    exec (.fieldWrite fld) s = (fieldWriteStart d s).complete id := by
  simp only [exec_eq, progressOf, resultOf, fieldWriteStep, hd, hs]

/-- The second step of `FIELD_WRITE`. -/
theorem exec_fieldWrite_fieldModify (hd : fieldAt fld = some d) {code : Nat}
    (hs : s.seq = .run (.fieldModify code)) :
    exec (.fieldWrite fld) s = (memRead s (d.reg.base s.params) d.reg.bytes fun s raw =>
      .ends (s.goto (.fieldWriteBack (mergeField d.mask raw code)))).complete id := by
  simp only [exec_eq, progressOf, resultOf, fieldWriteStep, hd, hs]

/-- The third step of `FIELD_WRITE`. -/
theorem exec_fieldWrite_fieldWriteBack (hd : fieldAt fld = some d) {new : Raw}
    (hs : s.seq = .run (.fieldWriteBack new)) :
    exec (.fieldWrite fld) s =
      (memWrite s (d.reg.base s.params) (bytesOf d.reg.bytes new) .returned).complete id := by
  simp only [exec_eq, progressOf, resultOf, fieldWriteStep, hd, hs]

end FieldCommands

/-- Settles O21: the procedure's two steps, at each answer of the sensor and of the decode. -/
theorem fieldReadResult_spec : Obligations.FieldReadResult := by
  intro s fld
  refine ⟨fun h => ?_, fun d hd => ⟨fun hs hsel => ?_, fun hs hsel => ?_, fun hs => ?_⟩⟩
  · exact exec_fieldRead_none (fieldAt_none fld h)
  · rw [exec_fieldRead_decode hd hs, fieldReadStart, if_neg (by simp [hsel])]
    rfl
  · rw [exec_fieldRead_decode hd hs, fieldReadStart, if_pos hsel]
    rfl
  · rw [exec_fieldRead_fieldRead hd hs]
    refine ⟨fun ha => ?_, fun b ha => ⟨fun e hc => ?_, fun v hc => ?_⟩⟩
    · rw [memRead_nack _ _ _ _ ha]
      rfl
    · rw [memRead_ok _ _ _ _ b ha]
      exact congrArg (·.complete id) (fieldReadResult_of_error (s := s.record _ _) hc)
    · rw [memRead_ok _ _ _ _ b ha]
      exact congrArg (·.complete id) (fieldReadResult_of_ok (s := s.record _ _) hc)

/-- Settles O22: the procedure's three steps, at each answer of the encode and of the sensor. -/
theorem fieldWriteResult : Obligations.FieldWriteResult := by
  intro s fld
  refine ⟨fun h => ?_, fun d hd => ⟨fun hs hsel => ?_, fun hs hsel hro => ?_,
    fun hs hsel hro => ⟨fun e he => ?_, fun code hcode => ?_⟩,
    fun code hs => ⟨fun ha => ?_, fun b ha => ?_⟩, fun new hs => ⟨fun ha => ?_, fun b ha => ?_⟩⟩⟩
  · exact exec_fieldWrite_none (fieldAt_none fld h)
  · rw [exec_fieldWrite_decode hd hs, fieldWriteStart, if_neg (by simp [hsel])]
    rfl
  · rw [exec_fieldWrite_decode hd hs, fieldWriteStart, if_pos hsel, if_pos hro]
    rfl
  · rw [exec_fieldWrite_decode hd hs, fieldWriteStart, if_pos hsel,
      if_neg (by simp [hro]), he]
    rfl
  · rw [exec_fieldWrite_decode hd hs, fieldWriteStart, if_pos hsel,
      if_neg (by simp [hro]), hcode]
    rfl
  · rw [exec_fieldWrite_fieldModify hd hs, memRead_nack _ _ _ _ ha]
    rfl
  · rw [exec_fieldWrite_fieldModify hd hs, memRead_ok _ _ _ _ b ha]
    rfl
  · rw [exec_fieldWrite_fieldWriteBack hd hs, memWrite_nack _ _ _ _ ha]
    rfl
  · rw [exec_fieldWrite_fieldWriteBack hd hs, memWrite_ok _ _ _ b _ ha]
    rfl

end Sys2Proof.Machine

/-!
The device transport (41_transport.md rules R155, R160, R161).
-/

namespace Sys2Proof.Machine

/-! ### The selection -/

/-- The address `a7` is selected. -/
def State.Selects (s : State) (a7 : Addr7) : Prop := s.addrSel = true ∧ s.selA7 = a7

/-- What a step comes to, ended or returned, still selects `a7`. -/
def StepSelects (a7 : Addr7) (x : Progress) : Prop :=
  x.Meets (State.Selects · a7) (State.Selects · a7) True

section Selection

variable {i : Instr} {s t u : State} {a7 : Addr7} {x : Progress}

/-- An error of a transaction keeps the selection. -/
theorem stepSelects_of_raisesBus (hu : u.Selects a7) (h : RaisesBus u x) : StepSelects a7 x := by
  obtain ⟨e, reg, dir, data, -, rfl⟩ := h
  exact hu

/-- The first step of a setup selects no other address than the selected one: where they differ it
raises. -/
theorem setupStart_selects (h : s.Selects a7) : StepSelects a7 (setupStart s) := by
  rcases setupStart_cases s with ⟨-, hx⟩ | ⟨-, e, hx⟩ | ⟨-, -, hsame, c, hx⟩ <;> rw [hx]
  · exact h
  · exact h
  · obtain ⟨hsel, ha⟩ := h
    exact ⟨rfl, (hsame hsel).symm.trans ha⟩

/-- A setup keeps the selection. -/
theorem setupStep_selects (h : s.Selects a7) : StepSelects a7 (setupStep s) := by
  cases hs : s.seq with
  | idle => exact setupStep_start (.inl hs) ▸ setupStart_selects h
  | run p =>
    by_cases hd : p = .decode
    · exact setupStep_start (.inr (hd ▸ hs)) ▸ setupStart_selects h
    · cases hp : p.inSetup with
      | true =>
        obtain ⟨txn, a, -, hx⟩ := setupStep_bus s p hs hp
        have hu : (s.record txn a).Selects a7 := h
        rcases hx with hx | ⟨q, -, hx⟩ | ⟨cal, m, hx⟩
        · exact stepSelects_of_raisesBus hu hx
        · exact hx ▸ hu
        · exact hx ▸ hu
      | false =>
        rw [setupStep_stray hs hd hp]
        trivial

/-- The head of the poll loop keeps the selection. -/
theorem pollHead_selects (h : u.Selects a7) : (pollHead u).Selects a7 := by
  rcases pollHead_cases u with ⟨reg, hx⟩ | hx <;> rw [hx] <;> exact h

/-- An update keeps the selection. -/
theorem updateStep_selects (h : s.Selects a7) : StepSelects a7 (updateStep s) := by
  have start (hs : (s.seq = .idle ∨ s.seq = .run .decode) ∨
      ∃ p, s.seq = .run p ∧ p.inSetup = true) : StepSelects a7 (updateStep s) := by
    rw [updateStep_setup s (or_assoc.1 hs)]
    refine updateSetup_meets (setupStep_selects h) fun t ht => ?_
    rw [updateStart_eq]
    exact ht
  cases hs : s.seq with
  | idle => exact start (.inl (.inl hs))
  | run p =>
    rcases phase_cases p with rfl | hp | hp | ⟨hd, hp, hq⟩
    · exact start (.inl (.inr hs))
    · exact start (.inr ⟨p, hs, hp⟩)
    · obtain ⟨txn, a, -, hx⟩ := updateStep_bus s p hs hp
      have hu : (s.record txn a).Selects a7 := h
      rcases hx with ⟨-, hx⟩ | ⟨-, v, hx⟩ | ⟨-, hx⟩ | ⟨-, hx | hx | hx⟩ | ⟨-, raw, hx⟩
      · exact stepSelects_of_raisesBus hu hx
      · exact hx ▸ hu
      · exact hx ▸ pollHead_selects (u := { s.record txn a with sstate := .converting }) hu
      · exact stepSelects_of_raisesBus (u := { s.record txn a with sstate := .idle }) hu hx
      · exact hx ▸ pollHead_selects (u := { s.record txn a with pollcnt := s.pollcnt + 1 }) hu
      · exact hx ▸ hu
      · exact hx ▸ hu
    · rw [updateStep_stray hs hd hp hq]
      trivial

/-- A register command keeps the selection. -/
theorem registerStep_selects {reads : Bool} (h : s.Selects a7) (hx : RegisterStep i reads s x) :
    StepSelects a7 x := by
  rcases hx with ⟨e, rfl⟩ | ⟨-, q, -, -, -, -, rfl⟩ | ⟨-, txn, a, -, hx⟩ | ⟨-, rfl⟩
  · exact h
  · exact h
  · have hu : (s.record txn a).Selects a7 := h
    rcases hx with hx | ⟨e, rfl⟩ | ⟨q, -, -, -, -, rfl⟩ | ⟨r, -, rfl⟩
    · exact stepSelects_of_raisesBus hu hx
    · exact hu
    · exact hu
    · exact hu
  · trivial

/-- `SELECT_ADDRESS` selects only where nothing is selected. -/
theorem selectStep_selects (b7 : Addr7) (h : s.Selects a7) : StepSelects a7 (selectStep b7 s) := by
  rcases selectStep_cases b7 s with ⟨e, hx⟩ | hx | ⟨hn, -, -⟩
  · exact hx ▸ h
  · exact hx ▸ h
  · obtain ⟨hsel, -⟩ := h
    simp [hsel] at hn

/-- `COMP_T` keeps the selection. -/
theorem compTStep_selects (h : s.Selects a7) : StepSelects a7 (compTStep s) := by
  unfold compTStep
  split <;> exact h

/-- `COMP_P` keeps the selection. -/
theorem compPStep_selects (h : s.Selects a7) : StepSelects a7 (compPStep s) := by
  unfold compPStep
  split <;> exact h

/-- A procedure of one step keeps the selection where its step does. -/
theorem oneStep_selects {f : State → Progress} (hx : StepSelects a7 (f s)) :
    StepSelects a7 (oneStep f s) := by
  unfold oneStep
  split
  · exact hx
  · exact hx
  · trivial

/-- Every step of every command keeps the selection. -/
theorem progressOf_selects (i : Instr) (h : s.Selects a7) :
    StepSelects a7 (progressOf i s) := by
  cases i with
  | selectAddress b7 => exact oneStep_selects (selectStep_selects b7 h)
  | regRead reg => exact registerStep_selects h (regReadStep_cases reg s)
  | regWrite reg => exact registerStep_selects h (regWriteStep_cases reg s)
  | fieldRead fld => exact registerStep_selects h (fieldReadStep_cases fld s)
  | fieldWrite fld => exact registerStep_selects h (fieldWriteStep_cases fld s)
  | setup => exact setupStep_selects h
  | compT => exact oneStep_selects (compTStep_selects h)
  | compP => exact oneStep_selects (compPStep_selects h)
  | _ => exact updateStep_selects h

/-- The results a command writes keep the selection. -/
theorem resultOf_finish_selects (i : Instr) (h : s.Selects a7) :
    (resultOf i s).finish.Selects a7 := by
  cases i <;> exact h

/-- A step of a command keeps the selection. -/
theorem selects_of_exec (h : s.Selects a7) (hx : exec i s = .next t) : t.Selects a7 := by
  rw [exec_eq] at hx
  have hsel := progressOf_selects i h
  rcases complete_next _ _ _ hx with hp | ⟨u, hp, rfl⟩ <;> rw [hp] at hsel
  · exact hsel
  · exact resultOf_finish_selects i hsel

/-- A step of the running command keeps the selection. -/
theorem selects_of_runCommand (h : s.Selects a7) (hx : runCommand s = .next t) :
    t.Selects a7 := by
  unfold runCommand at hx
  split at hx
  · exact selects_of_exec h hx
  · injection hx with hx
    exact hx ▸ h

end Selection

/-- Settles O53: the host does not write the selection, and a command selects only where nothing is
selected. -/
theorem selectionIsFinal : Obligations.SelectionIsFinal := by
  intro s t hr hx hsel
  rcases step_of_moves (P := (State.Selects · s.selA7)) ⟨hsel, rfl⟩ (fun _ h => h)
    (fun _ _ h _ _ => h) (fun hr' => by simp [hr] at hr') hx with ht | ⟨u, hu, -, hx⟩
  · exact ht
  · exact selects_of_runCommand hu hx

/-! ### SELECT_ADDRESS -/

/-- The one step of `SELECT_ADDRESS`. -/
theorem exec_selectAddress_decode {s : State} (a7 : Addr7) (hs : s.seq = .run .decode) :
    exec (.selectAddress a7) s = (selectStep a7 s).complete id := by
  simp only [exec_eq, progressOf, resultOf, oneStep, hs]

/-- The candidates are the two of the parameters. -/
theorem candidate_iff (p : Params) (a7 : Addr7) :
    p.candidate a7 = true ↔ a7 = p.a0 ∨ a7 = p.a1 := decide_eq_true_iff

/-- Settles O18, at each outcome of the procedure's three tests. -/
theorem selectAddressResult : Obligations.SelectAddressResult := by
  intro s a7 hs
  rw [exec_selectAddress_decode a7 hs, selectStep]
  refine ⟨fun h0 h1 => ?_, fun hc => ⟨fun hsel ha => ?_, fun hsel ha => ?_, fun hsel => ?_⟩⟩
  · rw [if_neg (by simp [candidate_iff, h0, h1])]
    rfl
  · rw [if_pos ((candidate_iff _ _).2 hc), if_pos hsel, if_pos ha]
    rfl
  · rw [if_pos ((candidate_iff _ _).2 hc), if_pos hsel, if_neg ha]
    rfl
  · rw [if_pos ((candidate_iff _ _).2 hc), if_neg (by simp [hsel])]
    rfl

/-! ### The registers of the operand -/

section Registers

variable {reg : BitVec 3} {r : RegId}

/-- The register of each row of the table. -/
theorem regAt_of_row {p : Params} {base : Byte} {n : Nat}
    (h : (reg.toNat, base, n) ∈
      [(0, p.sreg.chipId, 1), (1, p.sreg.status, 1), (2, p.sreg.ctrlMeas, 1),
       (3, p.sreg.config, 1), (4, p.sreg.data, 6), (5, p.sreg.calibration, 24)]) :
    ∃ r, regAt reg = some r ∧ r.base p = base ∧ r.bytes = n := by
  simp only [List.mem_cons, Prod.mk.injEq, List.not_mem_nil, or_false] at h
  rcases h with ⟨h, rfl, rfl⟩ | ⟨h, rfl, rfl⟩ | ⟨h, rfl, rfl⟩ | ⟨h, rfl, rfl⟩ | ⟨h, rfl, rfl⟩ |
    ⟨h, rfl, rfl⟩ <;> exact ⟨_, by rw [regAt, h]; rfl, rfl, rfl⟩

/-- An operand up to 5 names a register. -/
theorem exists_regAt (h : reg.toNat ≤ 5) : ∃ r, regAt reg = some r :=
  ⟨_, List.getElem?_eq_getElem (Nat.lt_succ_of_le h)⟩

/-- The four registers that have no writable field. -/
theorem regAt_of_readOnly (h : reg.toNat ∈ [0, 1, 4, 5]) :
    ∃ r, regAt reg = some r ∧ r.writable = false := by
  simp only [List.mem_cons, List.not_mem_nil, or_false] at h
  rcases h with h | h | h | h <;>
    exact ⟨_, by rw [regAt, h]; rfl, Bool.eq_false_iff.2 (by simp [writable_iff])⟩

/-- The two registers that have a writable field. -/
theorem regAt_of_writable {p : Params} {base : Byte}
    (h : (reg.toNat, base) ∈ [(2, p.sreg.ctrlMeas), (3, p.sreg.config)]) :
    ∃ r, regAt reg = some r ∧ r.base p = base ∧ r.writable = true := by
  simp only [List.mem_cons, Prod.mk.injEq, List.not_mem_nil, or_false] at h
  rcases h with ⟨h, rfl⟩ | ⟨h, rfl⟩ <;>
    exact ⟨_, by rw [regAt, h]; rfl, rfl, by simp [writable_iff]⟩

/-- A register with a writable field has one byte. -/
theorem bytes_of_writable (h : r.writable = true) : r.bytes = 1 := by
  rcases (writable_iff r).1 h with rfl | rfl <;> rfl

/-- The one byte of a word's low bits. -/
theorem bytesOf_one_setWidth (v : Word) : bytesOf 1 (v.setWidth 192) = [v.extractLsb' 0 8] := by
  simp [bytesOf, BitVec.extractLsb'_setWidth_of_le]

end Registers

/-! ### REG_READ and REG_WRITE -/

section RegisterCommands

variable {s : State} {reg : BitVec 3} {r : RegId}

/-- `REG_READ` of no register is illegal. -/
theorem exec_regRead_none (h : regAt reg = none) :
    exec (.regRead reg) s = .next (s.raise .illegalCommand) := by
  simp only [exec_eq, progressOf, regReadStep, h, Progress.complete]

/-- The first step of `REG_READ`. -/
theorem exec_regRead_decode (hr : regAt reg = some r) (hs : s.seq = .run .decode) :
    exec (.regRead reg) s = (regReadStart s).complete id := by
  simp only [exec_eq, progressOf, resultOf, regReadStep, hr, hs]

/-- The second step of `REG_READ`. -/
theorem exec_regRead_regRead (hr : regAt reg = some r) (hs : s.seq = .run .regRead) :
    exec (.regRead reg) s = (memRead s (r.base s.params) r.bytes fun s raw =>
      .returned { s with rdata := raw }).complete id := by
  simp only [exec_eq, progressOf, resultOf, regReadStep, hr, hs]

/-- `REG_WRITE` of no register is illegal. -/
theorem exec_regWrite_none (h : regAt reg = none) :
    exec (.regWrite reg) s = .next (s.raise .illegalCommand) := by
  simp only [exec_eq, progressOf, regWriteStep, h, Progress.complete]

/-- The first step of `REG_WRITE`. -/
theorem exec_regWrite_decode (hr : regAt reg = some r) (hs : s.seq = .run .decode) :
    exec (.regWrite reg) s = (regWriteStart r s).complete id := by
  simp only [exec_eq, progressOf, resultOf, regWriteStep, hr, hs]

/-- The second step of `REG_WRITE`, where the register has a writable field. -/
theorem exec_regWrite_regWrite (hr : regAt reg = some r) (hw : r.writable = true)
    (hs : s.seq = .run .regWrite) :
    exec (.regWrite reg) s =
      (memWrite s (r.base s.params) [s.larg0.extractLsb' 0 8] .returned).complete id := by
  simp only [exec_eq, progressOf, resultOf, regWriteStep, hr, hs, bytes_of_writable hw,
    bytesOf_one_setWidth]

/-- The checks of `REG_WRITE`, in their order, where the register has a writable field: its value
has 8 bits. -/
theorem regWriteStart_of_writable (hw : r.writable = true) (hsel : s.addrSel = true) :
    regWriteStart r s = if s.larg0.toNat < 256 then .ends (s.goto .regWrite)
      else .ends (s.raise .fieldOverflow) := by
  rw [regWriteStart, if_pos hsel, if_pos hw, RegId.width, bytes_of_writable hw]
  rfl

end RegisterCommands

/-- Settles O19: the procedure's two steps, at each answer of the sensor. -/
theorem regReadResult : Obligations.RegReadResult := by
  intro s reg
  refine ⟨fun h => exec_regRead_none (regAt_none reg h), fun base n hrow => ?_⟩
  obtain ⟨r, hr, rfl, rfl⟩ := regAt_of_row hrow
  refine ⟨fun hs hsel => ?_, fun hs hsel => ?_, fun hs => ⟨fun ha => ?_, fun b ha => ?_⟩⟩
  · rw [exec_regRead_decode hr hs, regReadStart, if_neg (by simp [hsel])]
    rfl
  · rw [exec_regRead_decode hr hs, regReadStart, if_pos hsel]
    rfl
  · rw [exec_regRead_regRead hr hs, memRead_nack _ _ _ _ ha]
    rfl
  · rw [exec_regRead_regRead hr hs, memRead_ok _ _ _ _ b ha]
    rfl

/-- Settles O20: the procedure's two steps, at each outcome of its checks and at each answer of the
sensor. -/
theorem regWriteResult : Obligations.RegWriteResult := by
  intro s reg
  refine ⟨fun h => exec_regWrite_none (regAt_none reg h), fun h hs hsel => ?_,
    fun h hs hsel => ?_, fun base hrow => ?_⟩
  · obtain ⟨r, hr⟩ := exists_regAt h
    rw [exec_regWrite_decode hr hs, regWriteStart, if_neg (by simp [hsel])]
    rfl
  · obtain ⟨r, hr, hro⟩ := regAt_of_readOnly h
    rw [exec_regWrite_decode hr hs, regWriteStart, if_pos hsel, if_neg (by simp [hro])]
    rfl
  · obtain ⟨r, hr, rfl, hw⟩ := regAt_of_writable hrow
    refine ⟨fun hs hsel => ⟨fun hv => ?_, fun hv => ?_⟩, fun hs => ⟨fun ha => ?_, fun b ha => ?_⟩⟩
    · rw [exec_regWrite_decode hr hs, regWriteStart_of_writable hw hsel, if_neg (Nat.not_lt.2 hv)]
      rfl
    · rw [exec_regWrite_decode hr hs, regWriteStart_of_writable hw hsel, if_pos hv]
      rfl
    · rw [exec_regWrite_regWrite hr hw hs, memWrite_nack _ _ _ _ ha]
      rfl
    · rw [exec_regWrite_regWrite hr hw hs, memWrite_ok _ _ _ b _ ha]
      rfl

end Sys2Proof.Machine

/-!
The compensation engine: its coefficients, its two commands and what keeps the calibration
(42_compensation.md rules R180 to R189).
-/

namespace Sys2Proof.Machine

/-! ### The coefficients -/

/-- Sixteen bits are their high byte above their low one. -/
theorem extractLsb'_sixteen (raw : Raw) (i : Nat) :
    raw.extractLsb' i 16 = raw.extractLsb' (i + 8) 8 ++ raw.extractLsb' i 8 := by
  ext j hj
  rw [BitVec.getElem_append]
  split
  · simp
  · simp [show i + 8 + (j - 8) = i + j by omega]

/-- Coefficient `k` is bytes `2k` and `2k+1`, in the order of the parameter. -/
theorem calWord_assemble (p : Params) {b : List Byte} {k : Nat} (hb : b.length = 24)
    (hk : k < 12) :
    calWord p (assemble b) k = coeffWord p.coeffOrder (b[2 * k] ++ b[2 * k + 1]) := by
  have hhi : (assemble b).extractLsb' (8 * (23 - 2 * k)) 8 = b[2 * k] :=
    extractLsb'_assemble b hb.le (by omega)
  have hlo : (assemble b).extractLsb' (8 * (22 - 2 * k)) 8 = b[2 * k + 1] :=
    extractLsb'_assemble b hb.le (by omega)
  rw [calWord, extractLsb'_sixteen, ← hhi, ← hlo]
  congr 3 <;> omega

/-- A coefficient field's code is its two bytes. -/
theorem setWidth_sixteen (hi lo : Byte) : ((hi ++ lo).setWidth 192).setWidth 16 = hi ++ lo := by
  rw [BitVec.setWidth_setWidth_of_le _ (by decide), BitVec.setWidth_eq]

/-- A coefficient field reads as the ordered word, extended as its codec says. -/
theorem decodeField_coefficient (p : Params) {hi lo : Byte} {w : BitVec 16}
    (hw : coeffWord p.coeffOrder (hi ++ lo) = w) :
    (∃ v, decodeField p .u16c ((hi ++ lo).setWidth 192) = .ok v ∧ v.toNat = w.toNat) ∧
    (∃ v, decodeField p .s16c ((hi ++ lo).setWidth 192) = .ok v ∧ v.toInt = w.toInt) := by
  simp only [decodeField, setWidth_sixteen, hw]
  exact ⟨⟨_, rfl, BitVec.toNat_setWidth_of_le (by decide)⟩,
    ⟨_, rfl, BitVec.toInt_signExtend_of_le (by decide)⟩⟩

/-- Settles O27: the order of a coefficient's two bytes is that of `coeffWord`. -/
theorem coefficientByteOrder : Obligations.CoefficientByteOrder := by
  refine ⟨fun p b k hb hk => ?_, fun p raw => rfl, ?_⟩
  · rw [calWord_assemble p hb hk]
    refine ⟨fun ho => ?_, fun ho => ?_⟩ <;> rw [ho]
    · exact coeffWord_lsbFirst _ _
    · rfl
  · rintro p _ hi lo rfl
    refine ⟨fun ho => decodeField_coefficient p ?_, fun ho => decodeField_coefficient p ?_⟩ <;>
      rw [ho]
    · exact coeffWord_lsbFirst hi lo
    · rfl

/-! ### The pressure's guard -/

/-- `fl(0)` is `+0.0` in every direction. -/
theorem fl_zero (n : Rounding) : fl n 0 = 0 := rfl

/-- A zero of either sign equals `+0.0`. -/
theorem feq_zero {x : F64} (h : x = 0 ∨ x = 0x8000000000000000) : feq x 0 = true := by
  rcases h with rfl | rfl <;> decide

/-- A zero denominator of either sign is guarded. -/
theorem compP_of_zero_denominator {n : Rounding} {c : Coeffs} {tf : F64} (raw : BitVec 20)
    (h : compPDenominator n c tf = 0 ∨ compPDenominator n c tf = 0x8000000000000000) :
    compP n c raw tf = 0 := by
  rw [compP, fl_zero]
  exact if_pos (feq_zero h)

/-- A finite number times `+0.0` is a zero, whose sign is the number's. -/
theorem fmul_zero_right (n : Rounding) {x : F64} (h : isFinite x = true) :
    fmul n x 0 = signedZero (signOf x) := by
  obtain ⟨m, e, hx, -⟩ := unpack_finite x h
  have h0 : unpack 0 = .fin false 0 (-1074) := by decide
  rw [fmul, hx, h0, mulVal, roundPack, if_pos (Nat.mul_zero m), zeroOf_eq_signedZero,
    Bool.xor_false]

/-- Settles O43: `feq` finds both zeros, and a finite factor times `dig_p1 = 0` is one of them. -/
theorem zeroDenominatorGivesZero : Obligations.ZeroDenominatorGivesZero := by
  refine ⟨fun n c raw tf => compP_of_zero_denominator raw, fun n c raw tf hp hfin => ?_⟩
  refine compP_of_zero_denominator raw ?_
  have hden : compPDenominator n c tf = signedZero (signOf (compPScale n c tf)) := by
    rw [compPDenominator, hp]
    exact fmul_zero_right n hfin
  rw [hden]
  cases signOf (compPScale n c tf)
  · exact .inl rfl
  · exact .inr rfl

/-! ### COMP_T and COMP_P -/

/-- A signed coefficient's number is that of its two's complement. -/
theorem flS_eq (n : Rounding) (c : BitVec 16) : flS n c = fl n c.toInt := by
  rw [flS, signed16_eq_toInt]

/-- What `COMP_T` writes (42_compensation.md rule R188). -/
def State.withCompT (s : State) : State :=
  let tf := compTFine s.params.num s.cal s.rawOperand
  { s with
    tfine := tf, tfineValid := true, res := tempOfFine s.params.num tf, rawT := s.rawOperand }

/-- What `COMP_P` writes (42_compensation.md rule R189). -/
def State.withCompP (s : State) : State :=
  { s with
    res := compP s.params.num s.cal s.rawOperand s.tfine, rawP := s.rawOperand }

section Commands

variable {s t : State}

/-- `COMP_T` with a calibration. -/
theorem compTStep_of_valid (h : s.calValid = true) : compTStep s = .returned s.withCompT := if_pos h

/-- `COMP_T` without a calibration. -/
theorem compTStep_of_invalid (h : ¬ s.calValid = true) :
    compTStep s = .ends (s.raise .sequenceError) := if_neg h

/-- `COMP_P` with a calibration and a carry. -/
theorem compPStep_of_valid (h : s.calValid = true ∧ s.tfineValid = true) :
    compPStep s = .returned s.withCompP := if_pos h

/-- `COMP_P` without a calibration or without a carry. -/
theorem compPStep_of_invalid (h : ¬ (s.calValid = true ∧ s.tfineValid = true)) :
    compPStep s = .ends (s.raise .sequenceError) := if_neg h

/-- The one step of `COMP_T`. -/
theorem exec_compT_decode (hs : s.seq = .run .decode) :
    exec .compT s = (compTStep s).complete id := by
  simp only [exec_eq, progressOf, resultOf, oneStep, hs]

/-- The one step of `COMP_P`. -/
theorem exec_compP_decode (hs : s.seq = .run .decode) :
    exec .compP s = (compPStep s).complete id := by
  simp only [exec_eq, progressOf, resultOf, oneStep, hs]

/-- A procedure of one step that answers a next state made its step. -/
theorem oneStep_next {f : State → Progress} {g : State → State}
    (h : (oneStep f s).complete g = .next t) : (f s).complete g = .next t := by
  unfold oneStep at h
  split at h
  · exact h
  · exact h
  · cases h

/-- Everything `COMP_T` can do. -/
theorem exec_compT_cases (h : exec .compT s = .next t) :
    t = s.raise .sequenceError ∨ t = s.withCompT.finish := by
  rw [exec_eq] at h
  have h := oneStep_next h
  by_cases hcal : s.calValid = true
  · rw [compTStep_of_valid hcal] at h
    injection h with h
    exact .inr h.symm
  · rw [compTStep_of_invalid hcal] at h
    injection h with h
    exact .inl h.symm

/-- Everything `COMP_P` can do. -/
theorem exec_compP_cases (h : exec .compP s = .next t) :
    t = s.raise .sequenceError ∨ t = s.withCompP.finish := by
  rw [exec_eq] at h
  have h := oneStep_next h
  by_cases hv : s.calValid = true ∧ s.tfineValid = true
  · rw [compPStep_of_valid hv] at h
    injection h with h
    exact .inr h.symm
  · rw [compPStep_of_invalid hv] at h
    injection h with h
    exact .inl h.symm

end Commands

/-- Settles O41: the procedure's two outcomes, with the signed coefficients as integers. -/
theorem compTResult : Obligations.CompTResult := by
  intro s hs
  rw [exec_compT_decode hs]
  refine ⟨fun hcal => ?_, fun hcal => ?_⟩
  · rw [compTStep_of_invalid (by simp [hcal])]
    rfl
  · rw [compTStep_of_valid hcal]
    simp only [State.withCompT, compTFine, flS_eq]
    rfl

/-- Settles O42: the procedure's two outcomes, with the signed coefficients as integers. -/
theorem compPResult : Obligations.CompPResult := by
  intro s hs
  rw [exec_compP_decode hs]
  refine ⟨fun hn => ?_, fun hcal hcarry => ?_⟩
  · rw [compPStep_of_invalid (by rcases hn with hn | hn <;> simp [hn])]
    rfl
  · rw [compPStep_of_valid ⟨hcal, hcarry⟩]
    simp only [State.withCompP, compP, compPDenominator, compPScale, compPVar2, compPFinish, flS_eq]
    rfl

/-- Settles O60: the raise and the command's writes leave every other field. -/
theorem compensationCommandsFrame : Obligations.CompensationCommandsFrame := by
  refine fun s t => ⟨fun h => ?_, fun h => ?_⟩
  · rcases exec_compT_cases h with rfl | rfl <;>
      exact ⟨⟨rfl, rfl, rfl, rfl⟩, ⟨rfl, rfl⟩, ⟨rfl, rfl, rfl⟩, by simp [State.withCompT]⟩
  · rcases exec_compP_cases h with rfl | rfl <;>
      exact ⟨⟨rfl, rfl, rfl, rfl⟩, ⟨rfl, rfl⟩, ⟨rfl, rfl, rfl⟩, by simp [State.withCompP]⟩

/-! ### The calibration -/

/-- The calibration is valid and its store is `c`. -/
def State.Calibrated (s : State) (c : Coeffs) : Prop := s.calValid = true ∧ s.cal = c

/-- The sequencer is on no step of a setup. -/
def State.OutsideSetup (s : State) : Prop := ∀ p, s.seq = .run p → p.inSetup = false

/-- What a step comes to, ended or returned, still has the calibration `c`. -/
def StepCalibrated (c : Coeffs) (x : Progress) : Prop :=
  x.Meets (State.Calibrated · c) (State.Calibrated · c) True

section Calibration

variable {i : Instr} {s t u : State} {c : Coeffs} {x : Progress}

/-- A calibrated block of the session invariant is on no step of a setup: those come before the
session. -/
theorem State.SessionInv.outsideSetup (h : s.SessionInv) (hcal : s.calValid = true) :
    s.OutsideSetup := fun p hs => Bool.eq_false_iff.2 fun hp =>
  h.calValid_iff.1 hcal (h.in_setup p hs hp).1

/-- An error of a transaction keeps the calibration. -/
theorem stepCalibrated_of_raisesBus (hu : u.Calibrated c) (h : RaisesBus u x) :
    StepCalibrated c x := by
  obtain ⟨e, reg, dir, data, -, rfl⟩ := h
  exact hu

/-- A setup writes the calibration on none of its first steps. -/
theorem setupStep_calibrated (h : s.Calibrated c) (ho : s.OutsideSetup) :
    StepCalibrated c (setupStep s) := by
  have start (hs : s.seq = .idle ∨ s.seq = .run .decode) : StepCalibrated c (setupStep s) := by
    rw [setupStep_start hs]
    rcases setupStart_cases s with ⟨-, hx⟩ | ⟨-, e, hx⟩ | ⟨-, -, -, d, hx⟩ <;> rw [hx] <;> exact h
  cases hs : s.seq with
  | idle => exact start (.inl hs)
  | run p =>
    by_cases hd : p = .decode
    · exact start (.inr (hd ▸ hs))
    · rw [setupStep_stray hs hd (ho p hs)]
      trivial

/-- The head of the poll loop keeps the calibration. -/
theorem pollHead_calibrated (h : u.Calibrated c) : (pollHead u).Calibrated c := by
  rcases pollHead_cases u with ⟨reg, hx⟩ | hx <;> rw [hx] <;> exact h

/-- An update outside its setup keeps the calibration. -/
theorem updateStep_calibrated (h : s.Calibrated c) (ho : s.OutsideSetup) :
    StepCalibrated c (updateStep s) := by
  have start (hs : s.seq = .idle ∨ s.seq = .run .decode) : StepCalibrated c (updateStep s) := by
    rw [updateStep_setup s (or_assoc.1 (.inl hs))]
    refine updateSetup_meets (setupStep_calibrated h ho) fun t ht => ?_
    rw [updateStart_eq]
    exact ht
  cases hs : s.seq with
  | idle => exact start (.inl hs)
  | run p =>
    rcases phase_cases p with rfl | hp | hp | ⟨hd, hp, hq⟩
    · exact start (.inr hs)
    · simp [ho p hs] at hp
    · obtain ⟨txn, a, -, hx⟩ := updateStep_bus s p hs hp
      have hu : (s.record txn a).Calibrated c := h
      rcases hx with ⟨-, hx⟩ | ⟨-, v, hx⟩ | ⟨-, hx⟩ | ⟨-, hx | hx | hx⟩ | ⟨-, raw, hx⟩
      · exact stepCalibrated_of_raisesBus hu hx
      · exact hx ▸ hu
      · exact hx ▸ pollHead_calibrated (u := { s.record txn a with sstate := .converting }) hu
      · exact stepCalibrated_of_raisesBus (u := { s.record txn a with sstate := .idle }) hu hx
      · exact hx ▸ pollHead_calibrated (u := { s.record txn a with pollcnt := s.pollcnt + 1 }) hu
      · exact hx ▸ hu
      · exact hx ▸ hu
    · rw [updateStep_stray hs hd hp hq]
      trivial

/-- A register command keeps the calibration. -/
theorem registerStep_calibrated {reads : Bool} (h : s.Calibrated c)
    (hx : RegisterStep i reads s x) : StepCalibrated c x := by
  rcases hx with ⟨e, rfl⟩ | ⟨-, q, -, -, -, -, rfl⟩ | ⟨-, txn, a, -, hx⟩ | ⟨-, rfl⟩
  · exact h
  · exact h
  · have hu : (s.record txn a).Calibrated c := h
    rcases hx with hx | ⟨e, rfl⟩ | ⟨q, -, -, -, -, rfl⟩ | ⟨r, -, rfl⟩
    · exact stepCalibrated_of_raisesBus hu hx
    · exact hu
    · exact hu
    · exact hu
  · trivial

/-- `SELECT_ADDRESS` keeps the calibration. -/
theorem selectStep_calibrated (a7 : Addr7) (h : s.Calibrated c) :
    StepCalibrated c (selectStep a7 s) := by
  rcases selectStep_cases a7 s with ⟨e, hx⟩ | hx | ⟨-, -, hx⟩ <;> rw [hx] <;> exact h

/-- `COMP_T` keeps the calibration. -/
theorem compTStep_calibrated (h : s.Calibrated c) : StepCalibrated c (compTStep s) :=
  compTStep_of_valid h.1 ▸ h

/-- `COMP_P` keeps the calibration. -/
theorem compPStep_calibrated (h : s.Calibrated c) : StepCalibrated c (compPStep s) := by
  by_cases hv : s.calValid = true ∧ s.tfineValid = true
  · exact compPStep_of_valid hv ▸ h
  · exact compPStep_of_invalid hv ▸ h

/-- A procedure of one step meets what its step meets, or strays. -/
theorem oneStep_meets {f : State → Progress} {E R : State → Prop}
    (h : (f s).Meets E R True) : (oneStep f s).Meets E R True := by
  unfold oneStep
  split
  · exact h
  · exact h
  · trivial

/-- Every command's step outside a setup keeps the calibration. -/
theorem progressOf_calibrated (i : Instr) (h : s.Calibrated c) (ho : s.OutsideSetup) :
    StepCalibrated c (progressOf i s) := by
  cases i with
  | selectAddress a7 => exact oneStep_meets (selectStep_calibrated a7 h)
  | regRead reg => exact registerStep_calibrated h (regReadStep_cases reg s)
  | regWrite reg => exact registerStep_calibrated h (regWriteStep_cases reg s)
  | fieldRead fld => exact registerStep_calibrated h (fieldReadStep_cases fld s)
  | fieldWrite fld => exact registerStep_calibrated h (fieldWriteStep_cases fld s)
  | setup => exact setupStep_calibrated h ho
  | compT => exact oneStep_meets (compTStep_calibrated h)
  | compP => exact oneStep_meets (compPStep_calibrated h)
  | _ => exact updateStep_calibrated h ho

/-- The results a command writes keep the calibration. -/
theorem resultOf_finish_calibrated (i : Instr) (h : s.Calibrated c) :
    (resultOf i s).finish.Calibrated c := by
  cases i <;> exact h

/-- A step of a command outside a setup keeps the calibration. -/
theorem calibrated_of_exec (h : s.Calibrated c) (ho : s.OutsideSetup)
    (hx : exec i s = .next t) : t.Calibrated c := by
  rw [exec_eq] at hx
  have hcal := progressOf_calibrated i h ho
  rcases complete_next _ _ _ hx with hp | ⟨u, hp, rfl⟩ <;> rw [hp] at hcal
  · exact hcal
  · exact resultOf_finish_calibrated i hcal

/-- A step of the running command outside a setup keeps the calibration. -/
theorem calibrated_of_runCommand (h : s.Calibrated c) (ho : s.OutsideSetup)
    (hx : runCommand s = .next t) : t.Calibrated c := by
  unfold runCommand at hx
  split at hx
  · exact calibrated_of_exec h ho hx
  · injection hx with hx
    exact hx ▸ h

end Calibration

/-- Settles O52: a calibrated block is outside a setup, acceptance leaves it there, and only the last
step of a setup writes the calibration. -/
theorem calibrationIsLoadedOnce : Obligations.CalibrationIsLoadedOnce := by
  intro s t hinv hr hx hcal
  rcases step_of_moves (P := fun u => u.Calibrated s.cal ∧ u.OutsideSetup)
    ⟨⟨hcal, rfl⟩, hinv.outsideSetup hcal⟩ (fun _ h => h)
    (fun _ _ h _ _ => ⟨h.1, by rintro p ⟨⟩; rfl⟩) (fun hr' => by simp [hr] at hr') hx with
    ⟨ht, -⟩ | ⟨u, ⟨hu, ho⟩, -, hx⟩
  · exact ht
  · exact calibrated_of_runCommand hu ho hx

end Sys2Proof.Machine

/-!
The controller's setup: what each of its steps does, in `SETUP` and inside the measuring commands
(43_controller.md rules R221 to R225, R235).
-/

namespace Sys2Proof.Machine

/-! ### The arguments -/

/-- Step S4 takes the four arguments where each of them is a symbol of its table. -/
theorem setupCodes_eq_some {p : Params} {cfg : BitVec 25} {c : SetupCodes} :
    setupCodes p cfg = some c ↔ modeAt (cfgMode cfg) = some c.m ∧
      lookupEncode p.lookup.modeRows c.m.wire.symbol = some c.cm ∧
      lookupEncode p.lookup.osrsRows (cfgOsrsT cfg).toNat = some c.ct ∧
      lookupEncode p.lookup.osrsRows (cfgOsrsP cfg).toNat = some c.cp ∧
      lookupEncode p.lookup.tsbRows (cfgTsb cfg).toNat = some c.cs := by
  unfold setupCodes
  constructor
  · intro h
    split at h
    · cases h
    · split at h
      · injection h with h
        subst h
        exact ⟨‹_›, ‹_›, ‹_›, ‹_›, ‹_›⟩
      · cases h
  · rintro ⟨hm, hcm, hct, hcp, hcs⟩
    simp only [hm, hcm, hct, hcp, hcs]

/-- A table gives a symbol the code of its row, and no other value a code. -/
theorem lookupEncode_eq_some {l : Lookup} {t : Table} {v k : Nat} :
    lookupEncode (t.rows l) v = some k ↔ (v, k) ∈ t.rows l := by
  refine ⟨fun h => ?_, fun h => lookupEncode_of_mem (r := (v, k)) h⟩
  obtain ⟨⟨v', k'⟩, hr, rfl⟩ := Option.map_eq_some_iff.1 h
  obtain rfl : v' = v := by simpa using List.find?_some hr
  exact List.mem_of_find?_eq_some hr

/-- The mode symbols are 0, 1 and 2. -/
theorem modeAt_eq_some {b : BitVec 2} {m : Mode} : modeAt b = some m ↔ m.symbol = b.toNat := by
  revert b
  cases m <;> decide

/-- Every mode has a wire code. -/
theorem exists_wireCode (l : Lookup) (m : Mode) : ∃ k, (m.wire.symbol, k) ∈ Table.mode.rows l := by
  cases m <;> simp [Table.rows, Lookup.modeRows, Mode.wire, Mode.symbol]

/-- A setup accepts an `SCFG` whose fields are symbols, whatever the codes are. -/
theorem setupCodes_isSome {p : Params} {cfg : BitVec 25} :
    (setupCodes p cfg).isSome = true ↔ (∃ m : Mode, m.symbol = (cfgMode cfg).toNat) ∧
      (∃ k, ((cfgOsrsT cfg).toNat, k) ∈ Table.osrs.rows p.lookup) ∧
      (∃ k, ((cfgOsrsP cfg).toNat, k) ∈ Table.osrs.rows p.lookup) ∧
      (∃ k, ((cfgTsb cfg).toNat, k) ∈ Table.tsb.rows p.lookup) := by
  rw [Option.isSome_iff_exists]
  constructor
  · rintro ⟨c, h⟩
    obtain ⟨hm, -, hct, hcp, hcs⟩ := setupCodes_eq_some.1 h
    exact ⟨⟨_, modeAt_eq_some.1 hm⟩, ⟨_, lookupEncode_eq_some.1 hct⟩,
      ⟨_, lookupEncode_eq_some.1 hcp⟩, ⟨_, lookupEncode_eq_some.1 hcs⟩⟩
  · rintro ⟨⟨m, hm⟩, ⟨ct, hct⟩, ⟨cp, hcp⟩, ⟨cs, hcs⟩⟩
    obtain ⟨cm, hcm⟩ := exists_wireCode p.lookup m
    exact ⟨⟨m, cm, ct, cp, cs⟩, setupCodes_eq_some.2 ⟨modeAt_eq_some.2 hm,
      lookupEncode_eq_some.2 hcm, lookupEncode_eq_some.2 hct, lookupEncode_eq_some.2 hcp,
      lookupEncode_eq_some.2 hcs⟩⟩

/-- The rows of the default oversampling table. -/
theorem mem_osrsRows_default {v k : Nat} : (v, k) ∈ Table.osrs.rows defaultLookup ↔
    (k, v) ∈ [(1, 1), (2, 2), (3, 4), (4, 8), (5, 16)] := by
  simp [Table.rows, Lookup.osrsRows, defaultLookup, and_comm]

/-- The rows of the default standby table. -/
theorem mem_tsbRows_default {v k : Nat} : (v, k) ∈ Table.tsb.rows defaultLookup ↔
    (k, v) ∈ [(0, 1), (1, 125), (2, 250), (3, 500), (4, 1000), (5, 2000), (6, 4000),
      (7, 8000)] := by
  simp [Table.rows, Lookup.tsbRows, defaultLookup, and_comm]

/-- The default wire codes: `forced` goes as `sleep`. -/
theorem wireCode_default {m : Mode} {k : Nat}
    (h : (m.wire.symbol, k) ∈ Table.mode.rows defaultLookup) :
    (m = .normal → k = 0b11) ∧ (m ≠ .normal → k = 0b00) := by
  cases m <;> simpa [Table.rows, Lookup.modeRows, defaultLookup, Mode.wire, Mode.symbol] using h

/-- Settles O31: a setup accepts what the tables list, with the rows of the default tables. -/
theorem setupAcceptsExactlyTheSymbols : Obligations.SetupAcceptsExactlyTheSymbols := by
  intro p cfg hl
  refine ⟨?_, fun c h => ?_⟩
  · have hmode (b : BitVec 2) : (∃ m : Mode, m.symbol = b.toNat) ↔ b.toNat ≤ 2 := by
      refine ⟨?_, fun h => ?_⟩
      · rintro ⟨m, hm⟩
        cases m <;> simp [Mode.symbol] at hm <;> omega
      · interval_cases b.toNat
        exacts [⟨.sleep, rfl⟩, ⟨.forced, rfl⟩, ⟨.normal, rfl⟩]
    rw [setupCodes_isSome, hl]
    simp only [hmode, mem_osrsRows_default, mem_tsbRows_default]
    simp [cfgMode, cfgOsrsT, cfgOsrsP, cfgTsb, exists_or]
  · obtain ⟨hm, hcm, hct, hcp, hcs⟩ := setupCodes_eq_some.1 h
    rw [hl] at hcm hct hcp hcs
    obtain ⟨hnormal, hother⟩ := wireCode_default (lookupEncode_eq_some.1 hcm)
    exact ⟨modeAt_eq_some.1 hm, hnormal, hother,
      mem_osrsRows_default.1 (lookupEncode_eq_some.1 hct),
      mem_osrsRows_default.1 (lookupEncode_eq_some.1 hcp),
      mem_tsbRows_default.1 (lookupEncode_eq_some.1 hcs)⟩

/-! ### A setup's step as a command's -/

/-- The sequencer is before a setup or inside it. -/
def State.AtSetup (s : State) : Prop :=
  s.seq = .idle ∨ s.seq = .run .decode ∨ ∃ p, s.seq = .run p ∧ p.inSetup = true

section Setup

variable {i : Instr} {s t : State} {c : SetupCodes}

/-- Where a setup's step ends, so does the command's, explicit or implicit. -/
theorem exec_of_setupStep_ends (hi : i = .setup ∨ measures i = true) (hs : s.AtSetup)
    (hx : setupStep s = .ends t) : exec i s = .next t := by
  have hp : progressOf i s = .ends t := by
    rcases hi with rfl | hi
    · exact hx
    · rw [progressOf_measures hi, updateStep_setup s hs, updateSetup, hx]
  rw [exec_eq, hp]
  rfl

/-- Where a setup returns, `SETUP` finishes. -/
theorem exec_setup_of_returned (hx : setupStep s = .returned t) : exec .setup s = .next t.finish :=
  congrArg (·.complete id) hx

/-- Where a setup returns, a measuring command goes on with its update. -/
theorem exec_of_setupStep_returned (hi : measures i = true) (hs : s.AtSetup)
    (hx : setupStep s = .returned t) : exec i s = .next { t with
      pollcnt := 0, seq := .run (if t.smode = .forced then .triggerRead else .dataRead) } := by
  rw [exec_eq, progressOf_measures hi, updateStep_setup s hs, updateSetup, hx, ← updateStart_eq]
  rfl

/-- A setup's step past the first one is in the setup. -/
theorem atSetup_of_run {p : Phase} (hs : s.seq = .run p) (hp : p.inSetup = true) : s.AtSetup :=
  .inr (.inr ⟨p, hs, hp⟩)

/-! ### The steps: which one the sequencer makes, and what it does -/

/-- In a session a setup returns at once. -/
theorem setupStart_of_session (h : s.sstate ≠ .uninitialized) : setupStart s = .returned s :=
  if_neg h

/-- Step S6. -/
theorem setupStep_chipId (hs : s.seq = .run (.setupChipId c)) :
    setupStep s = setupChipId s c := by simp only [setupStep, hs]

/-- Step S7, the read. -/
theorem setupStep_ctrlRead (hs : s.seq = .run (.setupCtrlRead c)) :
    setupStep s = setupCtrlRead s c := by simp only [setupStep, hs]

/-- Step S7, the write. -/
theorem setupStep_ctrlWrite {v : Byte} (hs : s.seq = .run (.setupCtrlWrite c v)) :
    setupStep s = setupCtrlWrite s c v := by simp only [setupStep, hs]

/-- Step S8, the read. -/
theorem setupStep_configRead (hs : s.seq = .run (.setupConfigRead c)) :
    setupStep s = setupConfigRead s c := by simp only [setupStep, hs]

/-- Step S8, the write. -/
theorem setupStep_configWrite {v : Byte} (hs : s.seq = .run (.setupConfigWrite c v)) :
    setupStep s = setupConfigWrite s c v := by simp only [setupStep, hs]

/-- Step S9. -/
theorem setupStep_cal (hs : s.seq = .run (.setupCal c)) :
    setupStep s = setupCal s c := by simp only [setupStep, hs]

/-- Step S6, answered: the identifier decides. -/
theorem setupChipId_ok {id : Byte}
    (ha : readAnswer s (.read s.selA7 s.params.sreg.chipId 1) 1 = .ok [id]) :
    setupChipId s c =
      let u := s.record (.read s.selA7 s.params.sreg.chipId 1) (.ok [id])
      if s.params.supportedChip id then .ends (u.goto (.setupCtrlRead c))
      else .ends (u.raiseBus .unsupportedChip s.params.sreg.chipId false id) := by
  unfold setupChipId
  refine (memRead_ok _ _ _ _ _ ha).trans ?_
  rw [byte0_assemble_one]
  rfl

/-- Step S7 writes the whole byte: nothing of the byte read is kept. -/
theorem ctrlMeasByte_eq (c : SetupCodes) (b : Byte) : ctrlMeasByte c b =
    BitVec.ofNat 8 c.ct <<< 5 ||| BitVec.ofNat 8 c.cp <<< 2 ||| BitVec.ofNat 8 c.cm := by
  simp [ctrlMeasByte]

end Setup

/-- Settles O29: the setup returns at once, and the update goes on from the state it found. -/
theorem setupIsIdempotent : Obligations.SetupIsIdempotent := by
  intro s hs hn
  have hx : setupStep s = .returned s :=
    (setupStep_start (.inr hs)).trans (setupStart_of_session hn)
  refine ⟨exec_setup_of_returned hx, fun i hi hm => ?_, fun i hi hm => ?_⟩ <;>
    rw [exec_of_setupStep_returned hi (.inr (.inl hs)) hx]
  · rw [if_pos hm]
  · rw [if_neg hm]

/-- Settles O30: the four ways through the first step of a setup outside a session. -/
theorem setupChecksItsArgumentsFirst : Obligations.SetupChecksItsArgumentsFirst := by
  intro s i hs hu hi
  have ends {t : State} (hx : setupStart s = .ends t) : exec i s = .next t :=
    exec_of_setupStep_ends hi (.inr (.inl hs)) ((setupStep_start (.inr hs)).trans hx)
  refine ⟨fun h0 h1 => ends ?_, fun ha => ?_⟩
  · simp [setupStart, hu, Params.candidate, h0, h1]
  · have ha : s.params.candidate s.lsaddr = true := decide_eq_true ha
    refine ⟨fun hc => ends ?_, fun c hc => ⟨fun hsel hne => ends ?_, fun hsel => ends ?_⟩⟩
    · simp [setupStart, hu, ha, hc]
    · simp [setupStart, hu, ha, hc, hsel, hne]
    · have hn : ¬ (s.addrSel = true ∧ s.selA7 ≠ s.lsaddr) := by
        rcases hsel with h | h <;> simp [h]
      simp only [setupStart, hu, ha, hc, if_neg hn, ↓reduceIte]
      rfl

/-- Settles O32: the identity read, answered or not, and the check of the identifier. -/
theorem setupChecksTheChipIdentity : Obligations.SetupChecksTheChipIdentity := by
  intro s i c hs hi
  have ends {t : State} (hx : setupChipId s c = .ends t) : exec i s = .next t :=
    exec_of_setupStep_ends hi (atSetup_of_run hs rfl) ((setupStep_chipId hs).trans hx)
  refine ⟨fun ha => ends ?_, fun id ha => ⟨fun hid => ends ?_, fun h1 h2 => ends ?_⟩⟩
  · unfold setupChipId
    exact memRead_nack _ _ _ _ ha
  · rw [setupChipId_ok ha]
    exact if_pos (decide_eq_true hid)
  · rw [setupChipId_ok ha]
    exact if_neg fun h => (of_decide_eq_true h).elim h1 h2

/-- Settles O33: the four transactions, each answered or not. -/
theorem setupProgramsTheSensor : Obligations.SetupProgramsTheSensor := by
  intro s i c hi
  refine ⟨fun hs => ?_, fun v hs => ?_, fun hs => ?_, fun v hs => ?_⟩
  · have ends {t : State} (hx : setupCtrlRead s c = .ends t) : exec i s = .next t :=
      exec_of_setupStep_ends hi (atSetup_of_run hs rfl) ((setupStep_ctrlRead hs).trans hx)
    refine ⟨fun ha => ends (memRead_nack _ _ _ _ ha), fun b ha => ends ?_⟩
    refine (memRead_ok _ _ _ _ _ ha).trans ?_
    rw [ctrlMeasByte_eq]
    rfl
  · have ends {t : State} (hx : setupCtrlWrite s c v = .ends t) : exec i s = .next t :=
      exec_of_setupStep_ends hi (atSetup_of_run hs rfl) ((setupStep_ctrlWrite hs).trans hx)
    exact ⟨fun ha => ends (memWrite_nack _ _ _ _ ha), fun a ha => ends (memWrite_ok _ _ _ _ _ ha)⟩
  · have ends {t : State} (hx : setupConfigRead s c = .ends t) : exec i s = .next t :=
      exec_of_setupStep_ends hi (atSetup_of_run hs rfl) ((setupStep_configRead hs).trans hx)
    refine ⟨fun ha => ends (memRead_nack _ _ _ _ ha), fun b ha => ends ?_⟩
    refine (memRead_ok _ _ _ _ _ ha).trans ?_
    rw [byte0_assemble_one]
    rfl
  · have ends {t : State} (hx : setupConfigWrite s c v = .ends t) : exec i s = .next t :=
      exec_of_setupStep_ends hi (atSetup_of_run hs rfl) ((setupStep_configWrite hs).trans hx)
    exact ⟨fun ha => ends (memWrite_nack _ _ _ _ ha), fun a ha => ends (memWrite_ok _ _ _ _ _ ha)⟩

/-- Settles O34: the calibration read raises, or the setup returns configured. -/
theorem setupLoadsTheCalibration : Obligations.SetupLoadsTheCalibration := by
  intro s c hs
  have hat : s.AtSetup := atSetup_of_run hs rfl
  refine ⟨fun ha i hi => exec_of_setupStep_ends hi hat
    ((setupStep_cal hs).trans (memRead_nack _ _ _ _ ha)), fun b ha => ?_⟩
  have hx := (setupStep_cal hs).trans (memRead_ok _ _ _ _ _ ha)
  refine ⟨exec_setup_of_returned hx, fun i hi => ?_⟩
  rw [exec_of_setupStep_returned hi hat hx, State.configured_smode, apply_ite Seq.run]
  rfl

/-! ### A whole `SETUP` -/

/-- `SETUP`, begun in `s`, has come to its step `p` in the state `t`: the transactions `h` are made,
and the sensor's answers `rest` are still to come. -/
structure State.SetupReaches (s t : State) (p : Phase) (h : List BusEvent) (rest : List Answer) :
    Prop where
  seq : t.seq = .run p
  host : t.host = []
  lcmd : t.lcmd = 0x10000000
  params : t.params = s.params
  addrSel : t.addrSel = true
  selA7 : t.selA7 = s.saddr
  history : t.history = h ++ s.history
  script : t.script = rest

section Run

variable {s t : State} {p q : Phase} {h : List BusEvent} {a : Answer} {rest : List Answer}

/-- A run makes its first step and goes on. -/
theorem core_run_succ (k : Nat) (hx : step s = .next t) :
    Host.Core.run Sys2Proof.core (k + 1) s = Host.Core.run Sys2Proof.core k t := by
  have hx : Sys2Proof.core.step s = .next t := hx
  simp only [Host.Core.run, hx]

/-- With no host move to come the machine's step is that of the running command. -/
theorem step_of_running {i : Instr} (hh : s.host = []) (hs : s.seq = .run p)
    (hd : decode s.lcmd = .ok i) : step s = exec i s :=
  (step_of_command ((nextMove_nil hh).trans (sequencerTurn_of_run hs))).trans (runCommand_of_ok hd)

/-- The word of `SETUP`. -/
theorem decode_setup : decode 0x10000000 = .ok .setup := by decide

/-- A running `SETUP` makes its own step. -/
theorem State.SetupReaches.step_eq (r : s.SetupReaches t p h rest) : step t = exec .setup t :=
  step_of_running r.host r.seq (r.lcmd ▸ decode_setup)

/-- Acceptance of `SETUP` with good arguments comes to the identity read. -/
theorem setupReaches_chipId {c : SetupCodes} (hs : s.seq = .idle)
    (hh : s.host = [.csrw 0x00 .word 0x10000000]) (hu : s.sstate = .uninitialized)
    (ha : s.saddr = s.params.a0 ∨ s.saddr = s.params.a1)
    (hc : setupCodes s.params s.scfg = some c) (hsel : s.addrSel = false ∨ s.selA7 = s.saddr) :
    ∃ t, step s = .next t ∧ s.SetupReaches t (.setupChipId c) [] s.script := by
  let u := { s with host := [] }.accept 0x10000000
  refine ⟨{ u with addrSel := true, selA7 := u.lsaddr, seq := .run (.setupChipId c) }, ?_,
    ⟨rfl, rfl, rfl, rfl, rfl, rfl, rfl, rfl⟩⟩
  rw [step_of_command (nextMove_csrw_cmd hs hh), runCommand_of_ok (i := .setup) decode_setup]
  obtain ⟨-, hgood⟩ := setupChecksItsArgumentsFirst u .setup rfl hu (.inl rfl)
  exact ((hgood ha).2 c hc).2 hsel

/-- A step of `SETUP` that makes a transaction and goes on. -/
theorem State.SetupReaches.next {txn : Txn} {b : Answer} (r : s.SetupReaches t p h (a :: rest))
    (hx : exec .setup t = .next { t.record txn b with seq := .run q }) :
    ∃ u, step t = .next u ∧ s.SetupReaches u q (⟨txn, b⟩ :: h) rest :=
  ⟨_, r.step_eq.trans hx, rfl, r.host, r.lcmd, r.params, r.addrSel, r.selA7,
    congrArg (_ :: ·) r.history, congrArg List.tail r.script⟩

end Run

/-- Settles O35: acceptance, then the five steps that go on and the one that configures. -/
theorem setupMakesItsSixTransactions : Obligations.SetupMakesItsSixTransactions := by
  intro s c id b₁ b₂ cal hs hh hu ha hc hsel hid hcal hscript
  obtain ⟨t₁, h₁, r₁⟩ := setupReaches_chipId hs hh hu ha hc hsel
  rw [hscript] at r₁
  have given {t : State} {p : Phase} {h : List BusEvent} {b : List Byte} {rest : List Answer}
      (r : s.SetupReaches t p h (.ok b :: rest)) (txn : Txn) :
      readAnswer t txn b.length = .ok b := readAnswer_given _ _ _ _ _ r.script rfl
  have taken {t : State} {p : Phase} {h : List BusEvent} {b : List Byte} {rest : List Answer}
      (r : s.SetupReaches t p h (.ok b :: rest)) (txn : Txn) :
      writeAnswer t txn = .ok [] := writeAnswer_given _ _ _ _ r.script
  obtain ⟨t₂, h₂, r₂⟩ := r₁.next <|
    ((setupChecksTheChipIdentity t₁ .setup c r₁.seq (.inl rfl)).2 id (given r₁ _)).1
      (r₁.params ▸ hid)
  obtain ⟨t₃, h₃, r₃⟩ := r₂.next <|
    ((setupProgramsTheSensor t₂ .setup c (.inl rfl)).1 r₂.seq).2 b₁ (given r₂ _)
  obtain ⟨t₄, h₄, r₄⟩ := r₃.next <|
    ((setupProgramsTheSensor t₃ .setup c (.inl rfl)).2.1 _ r₃.seq).2 [] (taken r₃ _)
  obtain ⟨t₅, h₅, r₅⟩ := r₄.next <|
    ((setupProgramsTheSensor t₄ .setup c (.inl rfl)).2.2.1 r₄.seq).2 b₂ (given r₄ _)
  obtain ⟨t₆, h₆, r₆⟩ := r₅.next <|
    ((setupProgramsTheSensor t₅ .setup c (.inl rfl)).2.2.2 _ r₅.seq).2 [] (taken r₅ _)
  have h₇ := r₆.step_eq.trans
    ((setupLoadsTheCalibration t₆ c r₆.seq).2 cal (hcal ▸ given r₆ _)).1
  have hrun := (core_run_succ 6 h₁).trans <| (core_run_succ 5 h₂).trans <|
    (core_run_succ 4 h₃).trans <| (core_run_succ 3 h₄).trans <| (core_run_succ 2 h₅).trans <|
    (core_run_succ 1 h₆).trans <| core_run_succ 0 h₇
  refine ⟨_, hrun, ?_, rfl, rfl, rfl, rfl, rfl, r₆.addrSel, r₆.selA7, rfl, ?_⟩
  · simp [r₁.selA7, r₂.selA7, r₃.selA7, r₄.selA7, r₅.selA7, r₆.selA7, r₁.params, r₂.params,
      r₃.params, r₄.params, r₅.params, r₆.params, r₆.history]
  · exact congrArg (loadCal · _) r₆.params

end Sys2Proof.Machine

/-!
The controller's update cycle: the trigger, the poll and the data read of the measuring commands
(43_controller.md rules R226 to R233).
-/

namespace Sys2Proof.Machine

section Update

variable {i : Instr} {s t : State}

/-- Where an update's step ends, so does the measuring command's. -/
theorem exec_of_updateStep_ends (hi : measures i = true) (hx : updateStep s = .ends t) :
    exec i s = .next t := by
  rw [exec_eq, progressOf_measures hi, hx]
  rfl

/-- Where an update returns, the measuring command writes its result and finishes. -/
theorem exec_of_updateStep_returned (hi : measures i = true) (hx : updateStep s = .returned t) :
    exec i s = .next (resultOf i t).finish := by
  rw [exec_eq, progressOf_measures hi, hx]
  rfl

/-! ### The steps: which one the sequencer makes, and what it does -/

/-- Step U3, the read. -/
theorem updateStep_triggerRead (hs : s.seq = .run .triggerRead) :
    updateStep s = triggerRead s := by simp only [updateStep, hs]

/-- Step U3, the write. -/
theorem updateStep_triggerWrite {v : Byte} (hs : s.seq = .run (.triggerWrite v)) :
    updateStep s = triggerWrite s v := by simp only [updateStep, hs]

/-- Step U4. -/
theorem updateStep_poll (hs : s.seq = .run .poll) :
    updateStep s = pollStep s := by simp only [updateStep, hs]

/-- Step U5. -/
theorem updateStep_dataRead (hs : s.seq = .run .dataRead) :
    updateStep s = dataRead s := by simp only [updateStep, hs]

/-- Below the limit the head of the poll loop goes on. -/
theorem pollHead_of_ne (h : s.params.pollLimit ≠ some s.pollcnt) : pollHead s = s.goto .poll :=
  if_neg h

/-- At the limit the head of the poll loop raises the timeout. -/
theorem pollHead_of_eq (h : s.params.pollLimit = some s.pollcnt) : pollHead s =
    { s with sstate := .idle }.raiseBus .conversionTimeout s.params.sreg.status false 0 := if_pos h

/-- A status read that fails. -/
theorem pollStep_nack (ha : readAnswer s (.read s.selA7 s.params.sreg.status 1) 1 = .nack) :
    pollStep s = .ends
      ({ s.record (.read s.selA7 s.params.sreg.status 1) .nack with sstate := .idle }.raiseBus
        .busError s.params.sreg.status false 0) := by
  simp only [pollStep, busRead, State.readTxn, RegId.base, ha]

/-- A status read that is answered: the measuring bit decides. -/
theorem pollStep_ok {b : Byte}
    (ha : readAnswer s (.read s.selA7 s.params.sreg.status 1) 1 = .ok [b]) :
    pollStep s =
      let u := { s.record (.read s.selA7 s.params.sreg.status 1) (.ok [b]) with
        pollcnt := s.pollcnt + 1 }
      if b.getLsbD 3 then .ends (pollHead u)
      else .ends ({ u with sstate := .idle }.goto .dataRead) := by
  simp only [pollStep, busRead, State.readTxn, RegId.base, ha, measuringBit_assemble_one,
    State.record_pollcnt]

end Update

/-- Settles O36: the trigger's read and write, each answered or not. -/
theorem forcedTrigger : Obligations.ForcedTrigger := by
  intro s i hi
  refine ⟨fun hs => ?_, fun v hs => ?_⟩
  · have ends {t : State} (hx : triggerRead s = .ends t) : exec i s = .next t :=
      exec_of_updateStep_ends hi ((updateStep_triggerRead hs).trans hx)
    refine ⟨fun ha => ends (memRead_nack _ _ _ _ ha), fun b ha => ends ?_⟩
    refine (memRead_ok _ _ _ _ _ ha).trans ?_
    rw [byte0_assemble_one]
    rfl
  · have ends {t : State} (hx : triggerWrite s v = .ends t) : exec i s = .next t :=
      exec_of_updateStep_ends hi ((updateStep_triggerWrite hs).trans hx)
    refine ⟨fun ha => ends (memWrite_nack _ _ _ _ ha), fun a ha h0 hn => ends ?_⟩
    refine (memWrite_ok _ _ _ _ _ ha).trans (congrArg _ (pollHead_of_ne ?_))
    exact h0 ▸ hn

/-- Settles O37: the failed read, the clear bit, and the two ways through the head of the loop. -/
theorem conversionPoll : Obligations.ConversionPoll := by
  intro s i hi hs
  have ends {t : State} (hx : pollStep s = .ends t) : exec i s = .next t :=
    exec_of_updateStep_ends hi ((updateStep_poll hs).trans hx)
  refine ⟨fun ha => ends (pollStep_nack ha), fun b ha => ⟨fun hb => ends ?_,
    fun hb hl => ends ?_, fun hb hl => ends ?_⟩⟩ <;> rw [pollStep_ok ha, hb]
  · rfl
  · exact congrArg Progress.ends (pollHead_of_eq hl)
  · exact congrArg Progress.ends (pollHead_of_ne hl)

/-- The three constants of the altitude formula (43_controller.md rule R236). -/
theorem altitude_constants : c5_257 = 0x4015072B020C49BA ∧ c273_15 = 0x4071126666666666 ∧
    c0_0065 = 0x3F7A9FBE76C8B439 := by decide

/-- Settles O38: the data read raises, or the update returns with its results. -/
theorem measurementCompletes : Obligations.MeasurementCompletes := by
  intro s hs
  refine ⟨fun ha i hi => exec_of_updateStep_ends hi
    ((updateStep_dataRead hs).trans (memRead_nack _ _ _ _ ha)), fun b ha => ?_⟩
  have returns {i : Instr} (hi : measures i = true) := exec_of_updateStep_returned hi
    ((updateStep_dataRead hs).trans (memRead_ok _ _ _ _ _ ha))
  obtain ⟨h₁, h₂, h₃⟩ := altitude_constants
  rw [← h₁, ← h₂, ← h₃]
  exact ⟨returns rfl, returns rfl, returns rfl, returns rfl, returns rfl⟩

/-! ### The poll ends -/

/-- An answer to a read of one byte is one byte. -/
theorem readAnswer_one {s : State} {txn : Txn} {b : List Byte} (h : readAnswer s txn 1 = .ok b) :
    ∃ x, b = [x] := List.length_eq_one_iff.1 (readAnswer_ok_length _ _ _ _ h)

/-- One status read of a limited poll: the loop is left within the limit, or it goes on below it. -/
theorem step_of_limited_poll {s : State} {i : Instr} {n : Nat} (hs : s.seq = .run .poll)
    (hh : s.host = []) (hd : decode s.lcmd = .ok i) (hi : measures i = true)
    (hl : s.params.pollLimit = some n) (hn : s.pollcnt < n) : ∃ t, step s = .next t ∧
      ((t.seq ≠ .run .poll ∧ t.sstate = .idle ∧ t.pollcnt ≤ n) ∨
        (t.seq = .run .poll ∧ t.host = [] ∧ t.lcmd = s.lcmd ∧ t.params = s.params ∧
          t.pollcnt = s.pollcnt + 1 ∧ t.pollcnt < n)) := by
  rw [step_of_running hh hs hd]
  obtain ⟨hnack, hok⟩ := conversionPoll s i hi hs
  cases ha : readAnswer s (.read s.selA7 s.params.sreg.status 1) 1 with
  | nack => exact ⟨_, hnack ha, .inl ⟨by simp, rfl, hn.le⟩⟩
  | ok b =>
    obtain ⟨x, rfl⟩ := readAnswer_one ha
    obtain ⟨hclear, htimeout, hon⟩ := hok x ha
    cases hx : x.getLsbD 3 with
    | false => exact ⟨_, hclear hx, .inl ⟨by simp, rfl, hn⟩⟩
    | true =>
      by_cases hlim : s.params.pollLimit = some (s.pollcnt + 1)
      · exact ⟨_, htimeout hx hlim, .inl ⟨by simp, rfl, hn⟩⟩
      · have hne : n ≠ s.pollcnt + 1 := fun h => hlim (h ▸ hl)
        exact ⟨_, hon hx hlim, .inr ⟨rfl, hh, rfl, rfl, rfl, Nat.lt_of_le_of_ne hn hne.symm⟩⟩

/-- Settles O39, by induction on the reads that the limit still allows. -/
theorem finiteLimitBoundsThePoll : Obligations.FiniteLimitBoundsThePoll := by
  intro s i n hs hh hd hi hl hn
  induction hm : n - s.pollcnt generalizing s with
  | zero => omega
  | succ m ih =>
    obtain ⟨t, hstep, hleft | ⟨hs', hh', hd', hp', hc', hn'⟩⟩ :=
      step_of_limited_poll hs hh hd hi hl hn
    · exact ⟨1, t, by omega, core_run_succ 0 hstep, hleft⟩
    · obtain ⟨k, u, hk, hrun, hu⟩ := ih t hs' hh' (hd' ▸ hd) (hp' ▸ hl) hn' (by omega)
      exact ⟨k + 1, u, by omega, (core_run_succ k hstep).trans hrun, hu⟩

end Sys2Proof.Machine

/-!
What the controller's commands leave unchanged (43_controller.md rules R221, R226, R231 to R235).
-/

namespace Sys2Proof.Machine

/-! ### What a frame keeps -/

/-- `RDATA`, `RES` and the altitude: no step of an update writes them. -/
def State.reported (s : State) : Raw × F64 × F64 × Bool := (s.rdata, s.res, s.alt, s.altValid)

/-- The selection, the calibration store and the mode: no step past a setup writes them. -/
def State.settings (s : State) : Bool × Addr7 × Coeffs × Bool × Mode :=
  (s.addrSel, s.selA7, s.cal, s.calValid, s.smode)

/-- Every result and `RDATA`: no step of a setup writes them. -/
def State.outputs (s : State) :
    (Raw × F64 × F64 × Bool) × F64 × Bool × F64 × F64 × Bool × BitVec 20 × BitVec 20 × Nat :=
  (s.reported, s.tfine, s.tfineValid, s.temp, s.pres, s.measValid, s.rawT, s.rawP, s.pollcnt)

section Frames

variable {i : Instr} {s t u : State} {p : Phase}

/-- What is reported is the same where each of its fields is. -/
theorem reported_eq : t.reported = s.reported ↔
    t.rdata = s.rdata ∧ t.res = s.res ∧ t.alt = s.alt ∧ t.altValid = s.altValid := by
  simp [State.reported]

/-- The settings are the same where each of them is. -/
theorem settings_eq : t.settings = s.settings ↔ t.addrSel = s.addrSel ∧ t.selA7 = s.selA7 ∧
    t.cal = s.cal ∧ t.calValid = s.calValid ∧ t.smode = s.smode := by
  simp [State.settings]

/-- Outputs that are the same are the same one by one. -/
theorem sameResults_of_outputs (h : t.outputs = s.outputs) :
    s.SameResults t ∧ t.reported = s.reported := by
  simp only [State.outputs, Prod.mk.injEq] at h
  obtain ⟨hrep, htfine, htv, htemp, hpres, hmeas, hrt, hrp, hpoll⟩ := h
  obtain ⟨-, hres, halt, hav⟩ := reported_eq.1 hrep
  exact ⟨⟨htfine, htv, htemp, hpres, hmeas, halt, hav, hres, hrt, hrp, hpoll⟩, hrep⟩

/-- A step that does not stray comes to a state of `P`, ended or returned. -/
def Progress.Keeps (x : Progress) (P : State → Prop) : Prop := x.Meets P P True

/-- A step keeps what follows from what it keeps. -/
theorem Progress.Keeps.mono {x : Progress} {P Q : State → Prop} (h : x.Keeps P)
    (hPQ : ∀ t, P t → Q t) : x.Keeps Q := by
  cases x with
  | ends t => exact hPQ t h
  | returned t => exact hPQ t h
  | stray => trivial

/-! ### Setup() -/

/-- No step of a setup writes a result or `RDATA`. -/
theorem setupStep_outputs (s : State) : (setupStep s).Keeps fun t => t.outputs = s.outputs := by
  have start (hs : s.seq = .idle ∨ s.seq = .run .decode) : (setupStep s).Keeps
      fun t => t.outputs = s.outputs := by
    rw [setupStep_start hs]
    rcases setupStart_cases s with ⟨-, hx⟩ | ⟨-, e, hx⟩ | ⟨-, -, -, c, hx⟩ <;> rw [hx] <;> rfl
  cases hs : s.seq with
  | idle => exact start (.inl hs)
  | run p =>
    by_cases hd : p = .decode
    · exact start (.inr (hd ▸ hs))
    · cases hp : p.inSetup with
      | false =>
        rw [setupStep_stray hs hd hp]
        trivial
      | true =>
        obtain ⟨txn, a, -, ⟨e, reg, dir, data, -, hx⟩ | ⟨q, -, hx⟩ | ⟨cal, m, hx⟩⟩ :=
          setupStep_bus s p hs hp <;> rw [hx] <;> rfl

/-! ### Update() -/

/-- The head of the poll loop writes no result that is reported, and no setting. -/
theorem pollHead_frame (u : State) :
    (pollHead u).reported = u.reported ∧ (pollHead u).settings = u.settings := by
  rcases pollHead_cases u with ⟨reg, hx⟩ | hx <;> rw [hx] <;> exact ⟨rfl, rfl⟩

/-- A step of an update past its setup writes no result that is reported, and no setting. -/
theorem updateStep_frame (hs : s.seq = .run p) (hp : p.inUpdate = true) : (updateStep s).Keeps
    fun t => t.reported = s.reported ∧ t.settings = s.settings := by
  obtain ⟨txn, a, -, ⟨-, _, _, _, _, -, hx⟩ | ⟨-, v, hx⟩ | ⟨-, hx⟩ |
    ⟨-, ⟨_, _, _, _, -, hx⟩ | hx | hx⟩ | ⟨-, raw, hx⟩⟩ := updateStep_bus s p hs hp <;> rw [hx]
  · exact ⟨rfl, rfl⟩
  · exact ⟨rfl, rfl⟩
  · exact pollHead_frame _
  · exact ⟨rfl, rfl⟩
  · exact pollHead_frame _
  · exact ⟨rfl, rfl⟩
  · exact ⟨rfl, rfl⟩

/-- No step of an update, its setup's included, writes a result that is reported. -/
theorem updateStep_reported (s : State) :
    (updateStep s).Keeps fun t => t.reported = s.reported := by
  have start (hs : s.AtSetup) : (updateStep s).Keeps fun t => t.reported = s.reported := by
    rw [updateStep_setup s hs]
    have hset := (setupStep_outputs s).mono fun t ht => (sameResults_of_outputs ht).2
    exact updateSetup_meets hset fun t ht => by rw [updateStart_eq]; exact ht
  cases hs : s.seq with
  | idle => exact start (.inl hs)
  | run p =>
    rcases phase_cases p with rfl | hp | hp | ⟨hd, hp, hq⟩
    · exact start (.inr (.inl hs))
    · exact start (atSetup_of_run hs hp)
    · exact (updateStep_frame hs hp).mono fun t ht => ht.1
    · rw [updateStep_stray hs hd hp hq]
      trivial

/-! ### The commands -/

/-- What a command's procedure keeps, its next state has, up to the result and the finish. -/
theorem exec_of_keeps {P : State → Prop} (h : (progressOf i s).Keeps P)
    (hx : exec i s = .next t) : ∃ u, P u ∧ (t = u ∨ t = (resultOf i u).finish) := by
  rw [exec_eq] at hx
  rcases complete_next _ _ _ hx with hp | ⟨u, hp, rfl⟩ <;> rw [hp] at h
  · exact ⟨t, h, .inl rfl⟩
  · exact ⟨u, h, .inr rfl⟩

/-- The result a command writes is neither in `RDATA` nor a setting. -/
theorem resultOf_finish_frame (i : Instr) (u : State) : (resultOf i u).finish.rdata = u.rdata ∧
    (resultOf i u).finish.settings = u.settings := by
  cases i <;> exact ⟨rfl, rfl⟩

end Frames

/-- Settles O58: no step of a setup writes an output, and in a session `SETUP` only finishes. -/
theorem setupFrame : Obligations.SetupFrame := by
  intro s t hx
  have hout : t.outputs = s.outputs := by
    obtain ⟨u, hu, rfl | rfl⟩ := exec_of_keeps (i := .setup) (setupStep_outputs s) hx
    · exact hu
    · exact hu
  obtain ⟨hres, hrep⟩ := sameResults_of_outputs hout
  refine ⟨hres, (reported_eq.1 hrep).1, fun hs hn => ?_⟩
  rw [(setupIsIdempotent s hs hn).1] at hx
  injection hx with hx
  subst hx
  exact ⟨⟨rfl, rfl, rfl, rfl⟩, ⟨rfl, rfl⟩, ⟨rfl, rfl, rfl⟩⟩

/-- Settles O59: an update writes nothing that is reported, and past its setup no setting; only the
command's own result is written after it. -/
theorem measuringCommandsFrame : Obligations.MeasuringCommandsFrame := by
  intro i s t hi hx
  have hkeeps : (progressOf i s).Keeps fun u => u.reported = s.reported :=
    progressOf_measures hi s ▸ updateStep_reported s
  obtain ⟨u, hu, ht⟩ := exec_of_keeps hkeeps hx
  obtain ⟨hrdata, hres, halt, hav⟩ := reported_eq.1 hu
  refine ⟨?_, ?_, ?_, fun p hs hp => ?_⟩
  · rcases ht with rfl | rfl
    · exact hrdata
    · exact (resultOf_finish_frame i u).1.trans hrdata
  · rintro rfl
    rcases ht with rfl | rfl <;> exact ⟨hres, halt, hav⟩
  · rintro (rfl | rfl) <;> rcases ht with rfl | rfl <;> exact ⟨halt, hav⟩
  · have hkeeps : (progressOf i s).Keeps _ := progressOf_measures hi s ▸ updateStep_frame hs hp
    obtain ⟨v, ⟨-, hv⟩, ht⟩ := exec_of_keeps hkeeps hx
    have hset : t.settings = s.settings := by
      rcases ht with rfl | rfl
      · exact hv
      · exact (resultOf_finish_frame i v).2.trans hv
    obtain ⟨hsel, ha7, hcal, hcv, hmode⟩ := settings_eq.1 hset
    exact ⟨⟨hsel, ha7⟩, hcal, hcv, hmode⟩

end Sys2Proof.Machine

/-!
The altitude of special operands (43_controller.md rule R236): how zeros, infinities and NaNs go
through the formula, in every direction of `NUM` and for every power function.
-/

namespace Sys2Proof.Machine

/-! ### Zeros and the values of a rounding -/

/-- The zeros as `unpack` reads them. -/
theorem unpack_signedZero (s : Bool) : unpack (signedZero s) = .fin s 0 (-1074) := by
  cases s <;> decide

/-- The zeros are finite. -/
theorem isFinite_signedZero (s : Bool) : isFinite (signedZero s) = true := by cases s <;> decide

/-- A zero's number is 0. -/
theorem ratOf_signedZero (s : Bool) : ratOf (signedZero s) = 0 := by
  obtain ⟨m, e, hu, -, -, hz⟩ := unpack_number _ (isFinite_signedZero s)
  rw [unpack_signedZero] at hu
  injection hu with _ hm
  exact hz.2 hm.symm

/-- Only the two zeros have the number 0. -/
theorem eq_signedZero_of_ratOf {x : F64} (h : ratOf x = 0) : x = signedZero (signOf x) := by
  have hmag : magOf x = 0 := by
    rw [ratOf_eq, signF_mul_zpow_eq_zero] at h
    exact magVal_strictMono.injective (h.trans (by simp [magVal]))
  have hsign := signOf_iff x
  have hlt := x.isLt
  unfold magOf at hmag
  apply BitVec.eq_of_toNat_eq
  cases hs : signOf x
  · have : ¬ 2 ^ 63 ≤ x.toNat := fun h => by rw [hsign.2 h] at hs; cases hs
    show x.toNat = 0
    omega
  · have := hsign.1 hs
    show x.toNat = 0x8000000000000000
    omega

/-- The sign of an infinity. -/
theorem signOf_infinity (s : Bool) : signOf (infinity s) = s := by cases s <;> decide

/-- A rounding of an exact number is a number or an infinity. -/
theorem RoundsTo.finite_or_infinity {num : Rounding} {v : ℚ} {f : F64} (h : RoundsTo num v f) :
    isFinite f = true ∨ ∃ s, f = infinity s := by
  have down (h : RoundsDown v f) : isFinite f = true ∨ ∃ s, f = infinity s :=
    h.imp (·.1) fun h => ⟨_, h.1⟩
  have up (h : RoundsUp v f) : isFinite f = true ∨ ∃ s, f = infinity s :=
    h.imp (·.1) fun h => ⟨_, h.1⟩
  have nearest {tie : F64 → F64 → Prop} (h : RoundsToNearest tie v f) :
      isFinite f = true ∨ ∃ s, f = infinity s := by
    unfold RoundsToNearest at h
    split at h
    · exact .inl h.1
    · exact .inr ⟨_, h⟩
  obtain ⟨-, h⟩ := h
  cases num with
  | nearestEven => exact nearest h
  | nearestAway => exact nearest h
  | towardZero =>
    simp only at h
    split at h
    · exact down h
    · exact up h
  | towardPositive => exact up h
  | towardNegative => exact down h

section Operations

variable (n : Rounding) {x y : F64}

/-- A finite number times a zero is a zero. -/
theorem fmul_signedZero (hx : isFinite x = true) (s : Bool) :
    fmul n x (signedZero s) = signedZero (signOf x ^^ s) := by
  obtain ⟨m, e, hu, -⟩ := unpack_number x hx
  rw [fmul, hu, unpack_signedZero, mulVal, roundPack, if_pos (Nat.mul_zero m), zeroOf_eq_signedZero]

/-- A zero over a number other than 0 is a zero. -/
theorem fdiv_signedZero (hy : isFinite y = true) (hne : ratOf y ≠ 0) (s : Bool) :
    fdiv n (signedZero s) y = signedZero (s ^^ signOf y) := by
  obtain ⟨m, e, hu, -, -, hz⟩ := unpack_number y hy
  rw [fdiv, hu, unpack_signedZero, divVal, if_neg (mt hz.2 hne)]
  simp [divFin, roundPack, zeroOf_eq_signedZero]

end Operations

/-! ### The power -/

section Power

variable (pow : F64 → F64 → F64) (e : F64) {r : F64}

/-- `+inf` to a positive power. -/
theorem powWith_infinity : powWith pow (infinity false) e = infinity false := by
  simp [powWith, unpack_infinity, infinity_eq]

/-- `-inf`: the open function says whether the power is NaN. -/
theorem powWith_negative_infinity :
    (isNaN (pow (infinity true) e) = true → isNaN (powWith pow (infinity true) e) = true) ∧
    (isNaN (pow (infinity true) e) = false → powWith pow (infinity true) e = infinity false) := by
  constructor <;> intro h <;> simp [powWith, unpack_infinity, infinity_eq, h, isNaN_nanOf]

/-- NaN to any power. -/
theorem powWith_nan (h : isNaN r = true) : isNaN (powWith pow r e) = true := by
  simp [powWith, (isNaN_iff r).1 h, isNaN_nanOf]

/-- A finite negative base. -/
theorem powWith_negative (hf : isFinite r = true) (hs : signOf r = true) (hne : ratOf r ≠ 0) :
    isNaN (powWith pow r e) = true := by
  obtain ⟨m, k, hu, -, -, hz⟩ := unpack_number r hf
  simp [powWith, hu, hs, mt hz.2 hne, isNaN_nanOf]

end Power

/-! ### The formula -/

/-- `273.15` is a finite number. -/
theorem isFinite_c273_15 : isFinite c273_15 = true := by
  rw [altitude_constants.2.1]; decide

/-- `0.0065` is a positive finite number. -/
theorem c0_0065_positive :
    isFinite c0_0065 = true ∧ signOf c0_0065 = false ∧ ratOf c0_0065 ≠ 0 := by
  rw [altitude_constants.2.2]
  exact ⟨by decide, by decide, fun h => absurd (eq_signedZero_of_ratOf h) (by decide)⟩

section Altitude

variable (pow : F64 → F64 → F64) (n : Rounding) {q p t : F64}

/-- A NaN as the power goes through to the altitude. -/
theorem altitudeWith_nan (t : F64)
    (h : isNaN (powWith pow (fdiv n q p) (fdiv n (fl n 1) c5_257)) = true) :
    isNaN (altitudeWith pow n q p t) = true := by
  have hx := (operations_nan n _ (fl n 1) (.inl h)).2.1
  have hxy := (operations_nan n _ (fadd n t c273_15) (.inl hx)).2.2.1
  exact (operations_nan n _ c0_0065 (.inl hxy)).2.2.2.1

/-- An infinite power over a warm temperature gives an infinite altitude. -/
theorem altitudeWith_infinity
    (h : powWith pow (fdiv n q p) (fdiv n (fl n 1) c5_257) = infinity false)
    (ht : isFinite t = true) (hs : signOf (fadd n t c273_15) = false)
    (hne : fadd n t c273_15 ≠ 0) : altitudeWith pow n q p t = infinity false := by
  have hx : fsub n (infinity false) (fl n 1) = infinity false :=
    (fsub_infinity n false (fl_exact n 1 (by decide)).1).2
  have hxy : fmul n (infinity false) (fadd n t c273_15) = infinity false := by
    rcases (fadd_finite n ht isFinite_c273_15).1.finite_or_infinity with hf | ⟨s, hi⟩
    · have hy : ratOf (fadd n t c273_15) ≠ 0 := fun h0 =>
        hne (by rw [eq_signedZero_of_ratOf h0, hs]; rfl)
      rw [(fmul_infinity_of_ne n false hf hy).2, hs]
      rfl
    · rw [hi, signOf_infinity] at hs
      rw [hi, hs, fmul_infinity_infinity]
      rfl
  obtain ⟨hc, hcs, -⟩ := c0_0065_positive
  simp only [altitudeWith]
  rw [h, hx, hxy, (fdiv_infinity n false hc).2, hcs]
  rfl

/-- `T = -273.15` is cancelled exactly. -/
theorem fadd_absolute_zero : fadd n 0xC071126666666666 c273_15 =
    signedZero (decide (n = .towardNegative)) := by
  rw [altitude_constants.2.1]
  cases n <;> decide

/-- Finite `x` over `T = -273.15` gives a zero. -/
theorem altitudeWith_absolute_zero
    (hx : isFinite (fsub n (powWith pow (fdiv n q p) (fdiv n (fl n 1) c5_257)) (fl n 1)) = true) :
    ∃ s, altitudeWith pow n q p 0xC071126666666666 = signedZero s := by
  obtain ⟨hc, -, hne⟩ := c0_0065_positive
  simp only [altitudeWith]
  rw [fadd_absolute_zero, fmul_signedZero n hx, fdiv_signedZero n hc hne]
  exact ⟨_, rfl⟩

/-- Infinite `x` over `T = -273.15` gives a NaN. -/
theorem altitudeWith_absolute_zero_nan {s : Bool}
    (hx : fsub n (powWith pow (fdiv n q p) (fdiv n (fl n 1) c5_257)) (fl n 1) = infinity s) :
    isNaN (altitudeWith pow n q p 0xC071126666666666) = true := by
  simp only [altitudeWith]
  rw [hx, fadd_absolute_zero]
  exact (operations_nan n _ _ (.inl
    (fmul_infinity_of_zero n s (isFinite_signedZero _) (ratOf_signedZero _)).2)).2.2.2.1

/-- A positive `q` over a negative `p` is `-inf` or a number with the sign bit set. -/
theorem fdiv_negative (hq : isFinite q = true) (hqs : signOf q = false) (hp : isFinite p = true)
    (hps : signOf p = true) (hne : ratOf p ≠ 0) : signOf (fdiv n q p) = true ∧
      (isFinite (fdiv n q p) = true ∨ fdiv n q p = infinity true) := by
  obtain ⟨hr, hs⟩ := fdiv_finite n hq hp hne
  rw [hqs, hps] at hs
  refine ⟨hs, hr.finite_or_infinity.imp_right ?_⟩
  rintro ⟨s, hi⟩
  rw [hi, signOf_infinity] at hs
  exact hi.trans (congrArg infinity hs)

end Altitude

/-- Settles O45, by what the power makes of the quotient's special values and what the rest of the
formula makes of the power's. -/
theorem altitudeOfSpecialOperands : Obligations.AltitudeOfSpecialOperands := by
  intro pow n q p t
  refine ⟨fun hq hqs hq0 => ⟨?_, fun hp hps hp0 hr0 hrinf => ?_⟩, fun hr => ⟨fun hnan => ?_, ?_⟩,
    fun hq hp => ?_, fun hx => ?_, fun hx => ?_⟩
  · rintro ⟨ht, hs, hne⟩
    have hqne : ratOf q ≠ 0 := fun h => hq0 (by rw [eq_signedZero_of_ratOf h, hqs]; rfl)
    have hr : fdiv n q 0 = infinity false :=
      (fdiv_zero_of_ne n hq (isFinite_signedZero false) (ratOf_signedZero false) hqne).trans
        (by rw [hqs]; rfl)
    exact altitudeWith_infinity pow n (hr ▸ powWith_infinity pow _) ht hs hne
  · have hpne : ratOf p ≠ 0 := fun h => hp0 (by rw [eq_signedZero_of_ratOf h, hps]; rfl)
    obtain ⟨hs, hf | hi⟩ := fdiv_negative n hq hqs hp hps hpne
    · have hrne : ratOf (fdiv n q p) ≠ 0 := fun h =>
        hr0 (by rw [eq_signedZero_of_ratOf h, hs]; rfl)
      exact altitudeWith_nan pow n t (powWith_negative pow _ hf hs hrne)
    · exact absurd hi hrinf
  · exact altitudeWith_nan pow n t (hr ▸ (powWith_negative_infinity pow _).1 hnan)
  · rintro hnum ⟨ht, hs, hne⟩
    exact altitudeWith_infinity pow n (hr ▸ (powWith_negative_infinity pow _).2 hnum) ht hs hne
  · have zero {x : F64} (h : x = 0 ∨ x = 0x8000000000000000) :
        isFinite x = true ∧ ratOf x = 0 := by
      rcases h with rfl | rfl
      · exact ⟨isFinite_signedZero false, ratOf_signedZero false⟩
      · exact ⟨isFinite_signedZero true, ratOf_signedZero true⟩
    obtain ⟨hqf, hqz⟩ := zero hq
    obtain ⟨hpf, hpz⟩ := zero hp
    exact altitudeWith_nan pow n t (powWith_nan pow _ (fdiv_zero_zero n hqf hpf hpz hqz))
  · obtain ⟨s, hs⟩ := altitudeWith_absolute_zero pow n hx
    rw [hs]
    cases s
    · exact .inl rfl
    · exact .inr rfl
  · rcases hx with hx | hx
    · exact altitudeWith_absolute_zero_nan pow n (s := false) hx
    · exact altitudeWith_absolute_zero_nan pow n (s := true) hx

end Sys2Proof.Machine

/-!
How a command starts and ends, and how a run ends (60_exceptions.md rules R260, R261, R264, R265,
R276; 10_state.md rule R27).
-/

namespace Sys2Proof.Machine

/-! ### The end of a run -/

/-- What the end of a run asks, in terms of `STATUS`. -/
theorem runOver_iff_status (s : State) :
    s.runOver = true ↔ (∀ m ∈ s.host, m = .pause) ∧ s.status.getLsbD 0 = false := by
  rw [runOver_iff, (status_bits s).1, ← Bool.not_eq_true, s.busy_iff, not_not]

/-- The block does nothing after the end of a run: the host's list alone can change. -/
theorem step_of_over {s : State} (h : s.runOver = true) :
    ∃ rest, step s = .next { s with host := rest } := by
  obtain ⟨hpause, hs⟩ := (runOver_iff s).1 h
  obtain ⟨hnil, hcons⟩ := stepRunsTheNextAtomicStep.2 s hs
  cases hh : s.host with
  | nil => exact ⟨s.host, hnil hh⟩
  | cons m rest =>
    obtain rfl : m = .pause := hpause m (by simp [hh])
    exact ⟨rest, hcons rest (.inl hh)⟩

/-- After `j` steps the machine comes from `s` to `e`, the first point at which the run is over. -/
structure State.FirstOver (s e : State) (j : Nat) : Prop where
  run : Host.Core.run Sys2Proof.core j s = .next e
  isOver : e.runOver = true
  before : ∀ i t, i < j → Host.Core.run Sys2Proof.core i s = .next t → t.runOver = false

/-- A run that is over is at its first such point. -/
theorem State.FirstOver.refl {s : State} (h : s.runOver = true) : s.FirstOver s 0 :=
  ⟨rfl, h, fun _ _ hi => absurd hi (Nat.not_lt_zero _)⟩

/-- A step from a point that is not over puts the first end one step later. -/
theorem State.FirstOver.succ {s t e : State} {j : Nat} (hs : s.runOver = false)
    (hx : step s = .next t) (h : t.FirstOver e j) : s.FirstOver e (j + 1) := by
  refine ⟨(core_run_succ j hx).trans h.run, h.isOver, fun i u hi hu => ?_⟩
  cases i with
  | zero =>
    injection hu with hu
    exact hu ▸ hs
  | succ i => exact h.before i u (Nat.lt_of_succ_lt_succ hi) ((core_run_succ i hx).symm.trans hu)

/-- A run has one first end: of two, neither comes before the other. -/
theorem State.FirstOver.unique {s a b : State} {j k : Nat} (ha : s.FirstOver a j)
    (hb : s.FirstOver b k) : a = b := by
  rcases Nat.lt_trichotomy j k with hjk | rfl | hkj
  · exact absurd ha.isOver (Bool.eq_false_iff.1 (hb.before j a hjk ha.run))
  · have h := ha.run.symm.trans hb.run
    injection h
  · exact absurd hb.isOver (Bool.eq_false_iff.1 (ha.before k b hkj hb.run))

/-- A run that has ended is at its first end. -/
theorem firstOver_of_ended {k : Nat} {s e : State} (h : runFor k s = .ended e) :
    ∃ j, j ≤ k ∧ s.FirstOver e j := by
  induction k generalizing s with
  | zero =>
    obtain ⟨hs, rfl⟩ | ⟨_, _, hk, -⟩ := runFor_ended_cases h
    · exact ⟨0, Nat.le_refl 0, .refl hs⟩
    · cases hk
  | succ k ih =>
    obtain ⟨hs, rfl⟩ | ⟨_, t, hk, hs, hx, ht⟩ := runFor_ended_cases h
    · exact ⟨0, Nat.zero_le _, .refl hs⟩
    · cases hk
      obtain ⟨j, hj, hfirst⟩ := ih ht
      exact ⟨j + 1, Nat.succ_le_succ hj, hfirst.succ hs hx⟩

/-- Settles O46: a run that has ended is at its first end, of which there is one. -/
theorem runEndsAtItsFirstIdlePoint : Obligations.RunEndsAtItsFirstIdlePoint := by
  refine ⟨runOver_iff_status, fun k s e h => ?_, fun s a b ⟨_, ha⟩ ⟨_, hb⟩ => ?_,
    fun s => step_of_over, fun s e ⟨k, he⟩ hang => ?_⟩
  · obtain ⟨j, hj, hfirst⟩ := firstOver_of_ended h
    exact ⟨hfirst.isOver, j, hj, hfirst.run, hfirst.before⟩
  · obtain ⟨_, -, hfa⟩ := firstOver_of_ended ha
    obtain ⟨_, -, hfb⟩ := firstOver_of_ended hb
    exact hfa.unique hfb
  · obtain ⟨t, ht⟩ := hang k
    cases he.symm.trans ht

/-! ### The start of a command -/

/-- Settles O6: the write is the next move, and acceptance latches the word that is run. -/
theorem stepRunsTheWrittenCommand : Obligations.StepRunsTheWrittenCommand := by
  intro s w i rest hh hs hd
  rw [step_of_command (nextMove_csrw_cmd hs hh), runCommand_of_ok (i := i) hd]
  rfl

/-! ### The ends of a command -/

/-- The fields of `ERRINFO` that every error fills (10_state.md rule R27). -/
theorem errinfoOf_fields (opc data : Byte) (x : Option ErrXfer) :
    (errinfoOf opc data x).extractLsb' 24 8 = opc ∧
    (errinfoOf opc data x).extractLsb' 16 8 = data ∧
    (errinfoOf opc data x).extractLsb' 10 6 = 0 := by
  cases x <;> refine ⟨?_, ?_, ?_⟩ <;>
    simp (disch := decide) only [errinfoOf, BitVec.extractLsb'_append_eq_of_le,
      BitVec.extractLsb'_append_eq_of_add_le, BitVec.extractLsb'_eq_self, Nat.reduceSub]

/-- The fields of `ERRINFO` on the transaction are 0 where the error concerns none. -/
theorem errinfoOf_none_xfer (opc data : Byte) :
    (errinfoOf opc data none).extractLsb' 0 10 = 0 := by
  ext i hi
  simp only [errinfoOf, BitVec.getElem_extractLsb', BitVec.getLsbD_append]
  obtain hsreg | rfl | rfl : i < 8 ∨ i = 8 ∨ i = 9 := by omega
  · simp [hsreg]
  · simp
  · simp

/-- The fields of `ERRINFO` on the transaction that the error concerns. -/
theorem errinfoOf_some_xfer (opc data : Byte) (r : ErrXfer) :
    (errinfoOf opc data (some r)).getLsbD 9 = true ∧
    (errinfoOf opc data (some r)).getLsbD 8 = r.dir ∧
    (errinfoOf opc data (some r)).extractLsb' 0 8 = r.sreg := by
  refine ⟨?_, ?_, ?_⟩
  · simp only [errinfoOf, BitVec.getLsbD_append, Nat.reduceLT, Nat.reduceSub, if_true, if_false]
    simp
  · simp only [errinfoOf, BitVec.getLsbD_append, Nat.reduceLT, Nat.reduceSub, if_true, if_false]
    simp
  · simp (disch := decide) only [errinfoOf, BitVec.extractLsb'_append_eq_of_add_le,
      BitVec.extractLsb'_eq_self]

/-- The programming errors are those that set `PERR` (60_exceptions.md rule R261). -/
theorem setsPerr_iff (e : Err) :
    e.setsPerr = true ↔ e = .illegalCommand ∨ e = .sequenceError ∨ e = .readOnly := by
  cases e <;> decide

/-- Settles O17: `raiseWith` writes the record whose fields are those of `errinfoOf`. -/
theorem endsOfACommand : Obligations.EndsOfACommand := by
  refine ⟨fun s => rfl, fun s e x data => ?_, ⟨rfl, rfl, rfl, rfl, rfl, rfl, rfl, rfl⟩,
    setsPerr_iff⟩
  obtain ⟨hopc, hdata, hreserved⟩ := errinfoOf_fields (s.lcmd.extractLsb' 24 8) data x
  refine ⟨errinfoOf (s.lcmd.extractLsb' 24 8) data x, rfl, hopc, hdata, hreserved, ?_, ?_⟩
  · rintro rfl
    exact errinfoOf_none_xfer _ _
  · rintro r rfl
    exact errinfoOf_some_xfer _ _ r

end Sys2Proof.Machine

/-!
Block reset, what a poll without a limit can do, and what the register commands leave unchanged
(70_reset_and_hazards.md rules R290, R291, R303, R306).
-/

namespace Sys2Proof.Machine

/-! ### Reset -/

/-- Settles O15: reset is one fixed state, and each clause is a value computed from it. -/
theorem resetValues : Obligations.ResetValues := by
  unfold Obligations.ResetValues
  decide

/-- Block reset is a move of its own: the sequencer does not act in it. -/
theorem nextMove_reset {s : State} {rest : List HostOp} (h : s.host = .reset :: rest) :
    nextMove s = .made { s with host := rest }.blockReset := by
  simp [nextMove, h]

/-- Settles O16: the step is the move, whatever the state was. -/
theorem blockResetClearsTheBlock : Obligations.BlockResetClearsTheBlock :=
  fun _ _ h => step_of_made (nextMove_reset h)

/-! ### A poll without a limit -/

/-- A run is not over while a command runs. -/
theorem runOver_of_run {s : State} {p : Phase} (hs : s.seq = .run p) : s.runOver = false := by
  simp [State.runOver, s.busy_of_run p hs]

/-- The state after a status read that finds the measuring bit set and goes on. -/
def State.polledOn (s : State) (b : Byte) : State :=
  { s.record (.read s.selA7 s.params.sreg.status 1) (.ok [b]) with
    pollcnt := s.pollcnt + 1 }.goto .poll

/-- A status read of a poll without a limit goes on where the sensor still measures. -/
theorem step_of_unlimited_poll {s : State} {i : Instr} {b : Byte} {rest : List Answer}
    (hs : s.seq = .run .poll) (hh : s.host = []) (hd : decode s.lcmd = .ok i)
    (hi : measures i = true) (hl : s.params.pollLimit = none) (hb : b.getLsbD 3 = true)
    (hscript : s.script = .ok [b] :: rest) : step s = .next (s.polledOn b) := by
  rw [step_of_running hh hs hd]
  obtain ⟨-, hok⟩ := conversionPoll s i hi hs
  obtain ⟨-, -, hon⟩ := hok b (readAnswer_given s _ 1 [b] rest hscript rfl)
  exact hon hb (by simp [hl])

/-- Settles O40, by induction on the given answers: each one leaves the command in its poll. -/
theorem unboundedPollCanHang : Obligations.UnboundedPollCanHang := by
  intro k s i b hs hh hd hi hl hc hb hscript
  induction k generalizing s with
  | zero =>
    exact ⟨s, rfl, hs, hc, (status_bits s).1.trans (s.busy_of_run .poll hs), rfl,
      by simp [runFor, runOver_of_run hs]⟩
  | succ k ih =>
    rw [List.replicate_succ] at hscript
    have hstep := step_of_unlimited_poll hs hh hd hi hl hb hscript
    obtain ⟨t, hrun, hpoll, hconv, hbusy, hcnt, hgoing⟩ :=
      ih (s.polledOn b) rfl hh hd hl hc (congrArg List.tail hscript)
    exact ⟨t, (core_run_succ k hstep).trans hrun, hpoll, hconv, hbusy,
      hcnt.trans (Nat.succ_add_eq_add_succ s.pollcnt k),
      (runFor_succ k (runOver_of_run hs) hstep).trans hgoing⟩

/-! ### The register commands -/

/-- `s` with `RDATA`, the bus, the flags and the sequencer of `w`: all that a step of `REG_READ`,
`REG_WRITE`, `FIELD_READ` or `FIELD_WRITE` writes. -/
def State.withTransport (s w : State) : State :=
  { s with
    rdata := w.rdata, history := w.history, script := w.script, answered := w.answered,
    done := w.done, err := w.err, perr := w.perr, errcode := w.errcode, errinfo := w.errinfo,
    seq := w.seq }

/-- Only what a register command writes is changed, and `RDATA` only where the command `reads`. -/
def State.TransportsTo (s : State) (reads : Bool) (t : State) : Prop :=
  t = s.withTransport t ∧ (reads = false → t.rdata = s.rdata)

section Register

variable {i : Instr} {s t : State} {x : Progress} {reads : Bool}

/-- A step of a register command writes nothing else. -/
theorem registerStep_transports (h : RegisterStep i reads s x) :
    x.Keeps (s.TransportsTo reads) := by
  rcases h with ⟨e, rfl⟩ | ⟨-, q, -, -, -, -, rfl⟩ | ⟨-, txn, a, -, hx⟩ | ⟨-, rfl⟩
  · exact ⟨rfl, fun _ => rfl⟩
  · exact ⟨rfl, fun _ => rfl⟩
  · rcases hx with ⟨e, reg, dir, data, -, rfl⟩ | ⟨e, rfl⟩ | ⟨q, -, -, -, -, rfl⟩ | ⟨r, hr, rfl⟩
    · exact ⟨rfl, fun _ => rfl⟩
    · exact ⟨rfl, fun _ => rfl⟩
    · exact ⟨rfl, fun _ => rfl⟩
    · exact ⟨rfl, hr⟩
  · trivial

/-- What a register command writes is neither of the session nor a result nor the selection. -/
theorem registerCommand_frame (h : RegisterStep i reads s (progressOf i s))
    (hi : resultOf i = id) (hx : exec i s = .next t) :
    s.SameSession t ∧ s.SameResults t ∧ s.SameSelection t ∧
      (reads = false → t.rdata = s.rdata) := by
  obtain ⟨u, ⟨hu, hr⟩, ht⟩ := exec_of_keeps (registerStep_transports h) hx
  rw [hi, hu] at ht
  rcases ht with rfl | rfl <;>
    exact ⟨⟨rfl, rfl, rfl, rfl⟩, by constructor <;> rfl, ⟨rfl, rfl⟩, hr⟩

/-- Everything `SELECT_ADDRESS` can do. -/
theorem exec_selectAddress_cases {a7 : Addr7} (h : exec (.selectAddress a7) s = .next t) :
    (∃ e, t = s.raise e) ∨ t = s.finish ∨
      (s.addrSel = false ∧ s.params.candidate a7 = true ∧
        t = { s with addrSel := true, selA7 := a7 }.finish) := by
  rw [exec_eq] at h
  have h := oneStep_next h
  rcases selectStep_cases a7 s with ⟨e, hx⟩ | hx | ⟨hn, hc, hx⟩ <;> rw [hx] at h <;>
    injection h with h
  · exact .inl ⟨e, h.symm⟩
  · exact .inr (.inl h.symm)
  · exact .inr (.inr ⟨hn, hc, h.symm⟩)

end Register

/-- Settles O57: `SELECT_ADDRESS` by its three outcomes, the others by the frame of a register
command's step. -/
theorem registerCommandsFrame : Obligations.RegisterCommandsFrame := by
  refine fun s t a7 reg fld => ⟨fun h => ?_, fun h => ?_, fun h => ?_, fun h => ?_, fun h => ?_⟩
  · rcases exec_selectAddress_cases h with ⟨e, rfl⟩ | rfl | ⟨-, -, rfl⟩ <;>
      exact ⟨⟨rfl, rfl, rfl, rfl⟩, by constructor <;> rfl, ⟨rfl, rfl, rfl⟩, rfl⟩
  · obtain ⟨hses, hres, hsel, -⟩ := registerCommand_frame (regReadStep_cases reg s) rfl h
    exact ⟨hses, hres, hsel⟩
  · obtain ⟨hses, hres, hsel, hr⟩ := registerCommand_frame (regWriteStep_cases reg s) rfl h
    exact ⟨hses, hres, hsel, hr rfl⟩
  · obtain ⟨hses, hres, hsel, -⟩ := registerCommand_frame (fieldReadStep_cases fld s) rfl h
    exact ⟨hses, hres, hsel⟩
  · obtain ⟨hses, hres, hsel, hr⟩ := registerCommand_frame (fieldWriteStep_cases fld s) rfl h
    exact ⟨hses, hres, hsel, hr rfl⟩

end Sys2Proof.Machine
